-- ==== Sys2Proof/Word.lean ====
section
/-!
DEFINITION. The two word types of the block (spec/30_encoding.md R81, spec/20_memory.md R64) and nothing else.
-/
namespace Sys2Proof

/-- A word of the command port, the ingest port or the response channel (R81, R90, R95). -/
abbrev Word := BitVec 32

/-- A byte of raw or output memory, or of a packet's payload (R10, R64). -/
abbrev Byte := BitVec 8

end Sys2Proof
end

