-- ==== Sys2Proof/Syntax.lean ====
section
/-!
DEFINITION. The instructions of spec/opcode_table.json as syntax: one constructor per row, operands as the fields of
spec/30_encoding.md R84 to R91 give them.
-/
namespace Sys2Proof

/-- One packet of an ingest record (R91): its error bit and its payload bytes; the length field is the number of
payload bytes. -/
structure Packet where
  err : Bool
  payload : List Byte
  deriving DecidableEq, Repr

/-- The instructions. Thirteen commands (R83), the ingest record XFER (R90) and the internal micro-operation
PUBLISH (R97). -/
inductive Instr where
  | cfgMode (res : BitVec 4) (fmt : BitVec 3) (hflip vflip : Bool)
  | cfgBright (bright : BitVec 16)
  | cfgView (viewX viewY : BitVec 12)
  | startCapture
  | stopCapture
  | pullFrame (slot : BitVec 8)
  | pollReady
  | cancelPull
  | readReg (n : BitVec 8)
  | acquireRead
  | releaseRead
  | convert (slot : BitVec 8)
  | brighten (slot : BitVec 8)
  | xfer (xferFail : Bool) (packets : List Packet)
  | publish
  deriving DecidableEq, Repr

/-- Where an instruction's code is read (R80, R83): the command port, the ingest port, or the internal
micro-operation codes, which have no port (R97). -/
inductive CodeSpace where
  | command | ingest | internal
  deriving DecidableEq, Repr

end Sys2Proof
end

