-- ==== Sys2Proof/WellFormed.lean ====
section
/-!
DEFINITION. Which instructions have a spelling (spec/30_encoding.md R90, R91): an ingest record's packet count fits 16
bits and each payload length fits 24 bits. Every command operand fits its field by its type (R84 to R88).
-/
namespace Sys2Proof

/-- The payload length fits the 24-bit `length` field (R91). -/
def Packet.wf (p : Packet) : Bool :=
  decide (p.payload.length < 2 ^ 24)

/-- The packet count fits the 16-bit `npkt` field and every packet is well formed (R90, R91). -/
def packetsWf (ps : List Packet) : Bool :=
  decide (ps.length < 2 ^ 16) && ps.all Packet.wf

/-- An instruction that has an encoding. -/
def Instr.wf : Instr → Bool
  | .cfgMode _ _ _ _ => true
  | .cfgBright _ => true
  | .cfgView _ _ => true
  | .startCapture => true
  | .stopCapture => true
  | .pullFrame _ => true
  | .pollReady => true
  | .cancelPull => true
  | .readReg _ => true
  | .acquireRead => true
  | .releaseRead => true
  | .convert _ => true
  | .brighten _ => true
  | .xfer _ packets => packetsWf packets
  | .publish => true

end Sys2Proof
end

