-- ==== Sys2Proof/Decode.lean ====
section
/-!
DEFINITION. The decoder of command words (spec/30_encoding.md R81 to R89, R98, R101), of ingest records (R90 to R94)
and of the internal code of PUBLISH (R97), total and rejecting by name; then the encoder, from the same tables.
-/
namespace Sys2Proof

/-- `v[hi:lo]` of R11: bits hi down to lo of a word, zero-extended. -/
def bits (v : Word) (hi lo : Nat) : Nat :=
  v.toNat / 2 ^ lo % 2 ^ (hi + 1 - lo)

/-- Bit 1 means true (R84, R90, R91). -/
def flagOf (n : Nat) : Bool :=
  decide (n % 2 = 1)

/-- Why a command word spells no command (R82, R98). -/
inductive CommandError where
  | unknownOpcode (op : Nat)
  | reservedBits (op : Nat)
  deriving DecidableEq, Repr

/-- Why the words at the head of the ingest port spell no record (R94). `truncated`: fewer words than R93 gives the
record. -/
inductive RecordError where
  | badOpcode
  | reservedBits
  | nonzeroPad
  | truncated
  deriving DecidableEq, Repr

/-- R82: the instruction if the reserved field is 0. -/
def whenZero (reserved op : Nat) (i : Instr) : Except CommandError Instr :=
  if reserved = 0 then .ok i else .error (.reservedBits op)

/-- The command a word of the command port spells (R83 to R89). -/
def decodeCommand (w : Word) : Except CommandError Instr :=
  let op := bits w 31 24
  if op = 0x01 then
    whenZero (bits w 23 9) op
      (.cfgMode (BitVec.ofNat 4 (bits w 3 0)) (BitVec.ofNat 3 (bits w 6 4)) (flagOf (bits w 7 7)) (flagOf (bits w 8 8)))
  else if op = 0x02 then whenZero (bits w 23 16) op (.cfgBright (BitVec.ofNat 16 (bits w 15 0)))
  else if op = 0x03 then .ok (.cfgView (BitVec.ofNat 12 (bits w 11 0)) (BitVec.ofNat 12 (bits w 23 12)))
  else if op = 0x10 then whenZero (bits w 23 0) op .startCapture
  else if op = 0x11 then whenZero (bits w 23 0) op .stopCapture
  else if op = 0x20 then whenZero (bits w 23 8) op (.pullFrame (BitVec.ofNat 8 (bits w 7 0)))
  else if op = 0x21 then whenZero (bits w 23 0) op .pollReady
  else if op = 0x22 then whenZero (bits w 23 0) op .cancelPull
  else if op = 0x30 then whenZero (bits w 23 8) op (.readReg (BitVec.ofNat 8 (bits w 7 0)))
  else if op = 0x40 then whenZero (bits w 23 0) op .acquireRead
  else if op = 0x41 then whenZero (bits w 23 0) op .releaseRead
  else if op = 0x42 then whenZero (bits w 23 8) op (.convert (BitVec.ofNat 8 (bits w 7 0)))
  else if op = 0x43 then whenZero (bits w 23 8) op (.brighten (BitVec.ofNat 8 (bits w 7 0)))
  else .error (.unknownOpcode op)

/-- The rows of R101 for the command port: match, mask and opcode. A word spells a row's command exactly when the word
under the mask is the match. -/
def commandRows : List (Word × Word × Nat) :=
  [(0x01000000, 0xFFFFFE00, 0x01), (0x02000000, 0xFFFF0000, 0x02), (0x03000000, 0xFF000000, 0x03),
   (0x10000000, 0xFFFFFFFF, 0x10), (0x11000000, 0xFFFFFFFF, 0x11), (0x20000000, 0xFFFFFF00, 0x20),
   (0x21000000, 0xFFFFFFFF, 0x21), (0x22000000, 0xFFFFFFFF, 0x22), (0x30000000, 0xFFFFFF00, 0x30),
   (0x40000000, 0xFFFFFFFF, 0x40), (0x41000000, 0xFFFFFFFF, 0x41), (0x42000000, 0xFFFFFF00, 0x42),
   (0x43000000, 0xFFFFFF00, 0x43)]

/-- The four payload bytes of a payload word, least significant first (R92). -/
def wordBytes (w : Word) : List Byte :=
  [BitVec.ofNat 8 (bits w 7 0), BitVec.ofNat 8 (bits w 15 8), BitVec.ofNat 8 (bits w 23 16), BitVec.ofNat 8 (bits w 31 24)]

/-- The number of payload words of a payload of `len` bytes (R91). -/
def payloadWords (len : Nat) : Nat :=
  (len + 3) / 4

/-- The next `n` packets of a record (R91 to R94): each descriptor, then its payload words, whose bytes past `length`
must be 0. -/
def decodePackets : Nat → List Word → Except RecordError (List Packet × List Word)
  | 0, ws => .ok ([], ws)
  | _ + 1, [] => .error .truncated
  | n + 1, d :: ws =>
    if bits d 30 24 ≠ 0 then .error .reservedBits
    else if ws.length < payloadWords (bits d 23 0) then .error .truncated
    else
      let bytes := (ws.take (payloadWords (bits d 23 0))).flatMap wordBytes
      if (bytes.drop (bits d 23 0)).all (fun v => v = 0) then
        match decodePackets n (ws.drop (payloadWords (bits d 23 0))) with
        | .ok (ps, rest) => .ok ({ err := flagOf (bits d 31 31), payload := bytes.take (bits d 23 0) } :: ps, rest)
        | .error e => .error e
      else .error .nonzeroPad

/-- The ingest record at the head of the words of the ingest port, and the words after it (R90, R93, R94). -/
def decodeRecord : List Word → Except RecordError (Instr × List Word)
  | [] => .error .truncated
  | h :: ws =>
    if bits h 31 24 ≠ 0x80 then .error .badOpcode
    else if bits h 7 1 ≠ 0 then .error .reservedBits
    else
      match decodePackets (bits h 23 8) ws with
      | .ok (ps, rest) => .ok (.xfer (flagOf (bits h 0 0)) ps, rest)
      | .error e => .error e

/-- The micro-operation of an internal code word (R83, R97): the row of opcode_table.json has match 0x81000000 and mask
0xFF000000, so bits [23:0] are not looked at. -/
def decodeInternal (w : Word) : Option Instr :=
  if bits w 31 24 = 0x81 then some .publish else none

/-- Where the code of an instruction is read (R83). -/
def Instr.space : Instr → CodeSpace
  | .cfgMode _ _ _ _ => .command
  | .cfgBright _ => .command
  | .cfgView _ _ => .command
  | .startCapture => .command
  | .stopCapture => .command
  | .pullFrame _ => .command
  | .pollReady => .command
  | .cancelPull => .command
  | .readReg _ => .command
  | .acquireRead => .command
  | .releaseRead => .command
  | .convert _ => .command
  | .brighten _ => .command
  | .xfer _ _ => .ingest
  | .publish => .internal

/-- The instruction at the head of the words of a code space, with the words after it. -/
def decodeIn : CodeSpace → List Word → Option (Instr × List Word)
  | .command, w :: ws =>
    match decodeCommand w with
    | .ok i => some (i, ws)
    | .error _ => none
  | .ingest, ws =>
    match decodeRecord ws with
    | .ok r => some r
    | .error _ => none
  | .internal, w :: ws => (decodeInternal w).map (fun i => (i, ws))
  | .command, [] => none
  | .internal, [] => none

/-- The code space whose decoder reads a word of `spec/opcode_table.json`: by its opcode (R83). -/
def spaceOfWord (w : Word) : CodeSpace :=
  if bits w 31 24 = 0x80 then .ingest
  else if bits w 31 24 = 0x81 then .internal
  else .command

/-- The words of an instruction whose bits are `w`: the word itself and, for an ingest header, one descriptor of 0 for
each packet it announces. -/
def tableWords (w : Nat) : List Word :=
  BitVec.ofNat 32 w ::
    (if bits (BitVec.ofNat 32 w) 31 24 = 0x80 then List.replicate (bits (BitVec.ofNat 32 w) 23 8) 0 else [])

/-- What the decoder reads from an instruction whose bits are `w`, every bit above `nbits` being 0. -/
def decodeTableWord (nbits w : Nat) : Option Instr :=
  if nbits = 32 ∧ w < 2 ^ 32 then
    match decodeIn (spaceOfWord (BitVec.ofNat 32 w)) (tableWords w) with
    | some (i, []) => some i
    | _ => none
  else none

/-! ## The encoder -/

/-- The opcode of an instruction (R83). -/
def Instr.opcode : Instr → Nat
  | .cfgMode _ _ _ _ => 0x01
  | .cfgBright _ => 0x02
  | .cfgView _ _ => 0x03
  | .startCapture => 0x10
  | .stopCapture => 0x11
  | .pullFrame _ => 0x20
  | .pollReady => 0x21
  | .cancelPull => 0x22
  | .readReg _ => 0x30
  | .acquireRead => 0x40
  | .releaseRead => 0x41
  | .convert _ => 0x42
  | .brighten _ => 0x43
  | .xfer _ _ => 0x80
  | .publish => 0x81

/-- A word with an opcode and a 24-bit operand (R81). -/
def opWord (op operand : Nat) : Word :=
  BitVec.ofNat 32 (op * 2 ^ 24 + operand)

/-- 1 for true (R84, R90, R91). -/
def flagBit (b : Bool) : Nat :=
  if b then 1 else 0

/-- Payload bytes packed four to a word, least significant first, the last word filled with 0 (R92). -/
def packWords : List Byte → List Word
  | [] => []
  | [a] => [BitVec.ofNat 32 a.toNat]
  | [a, b] => [BitVec.ofNat 32 (a.toNat + b.toNat * 2 ^ 8)]
  | [a, b, c] => [BitVec.ofNat 32 (a.toNat + b.toNat * 2 ^ 8 + c.toNat * 2 ^ 16)]
  | a :: b :: c :: d :: rest =>
    BitVec.ofNat 32 (a.toNat + b.toNat * 2 ^ 8 + c.toNat * 2 ^ 16 + d.toNat * 2 ^ 24) :: packWords rest

/-- A packet's descriptor and payload words (R91). -/
def encodePacket (p : Packet) : List Word :=
  BitVec.ofNat 32 (flagBit p.err * 2 ^ 31 + p.payload.length) :: packWords p.payload

/-- The words of an instruction (R84 to R92; PUBLISH: its internal code, R97). -/
def encode : Instr → List Word
  | .cfgMode res fmt hflip vflip =>
    [opWord 0x01 (flagBit vflip * 2 ^ 8 + flagBit hflip * 2 ^ 7 + fmt.toNat * 2 ^ 4 + res.toNat)]
  | .cfgBright bright => [opWord 0x02 bright.toNat]
  | .cfgView viewX viewY => [opWord 0x03 (viewY.toNat * 2 ^ 12 + viewX.toNat)]
  | .startCapture => [opWord 0x10 0]
  | .stopCapture => [opWord 0x11 0]
  | .pullFrame slot => [opWord 0x20 slot.toNat]
  | .pollReady => [opWord 0x21 0]
  | .cancelPull => [opWord 0x22 0]
  | .readReg n => [opWord 0x30 n.toNat]
  | .acquireRead => [opWord 0x40 0]
  | .releaseRead => [opWord 0x41 0]
  | .convert slot => [opWord 0x42 slot.toNat]
  | .brighten slot => [opWord 0x43 slot.toNat]
  | .xfer xferFail packets =>
    opWord 0x80 (packets.length * 2 ^ 8 + flagBit xferFail) :: packets.flatMap encodePacket
  | .publish => [opWord 0x81 0]

end Sys2Proof
end

