-- ==== Sys2Proof/Config.lean ====
section
/-!
DEFINITION. What an implementation fixes (spec/00_scope.md R8) as types, and the values the spec leaves open as
constants without a body. The checks of R8 and the default tables stand in Machine/Parameters.lean.
-/
namespace Sys2Proof

/-- One entry of RES_TABLE: native capture size and decimation factor (R8, R26). -/
structure ResEntry where
  width : Nat
  height : Nat
  factor : Nat
  deriving DecidableEq, Repr, Inhabited

/-- The tap kinds of R168, R169. -/
inductive TapKind where
  | own | h2 | v2 | x4 | c4
  deriving DecidableEq, Repr, Inhabited

/-- The tap kind of each output channel at one bayer phase (R168). -/
structure PhaseTaps where
  r : TapKind
  g : TapKind
  b : TapKind
  deriving DecidableEq, Repr, Inhabited

/-- BAYER_TAPS: `pYX` is the phase `(cy mod 2, cx mod 2) = (Y, X)` (R167, R168). -/
structure BayerTaps where
  p00 : PhaseTaps
  p01 : PhaseTaps
  p10 : PhaseTaps
  p11 : PhaseTaps
  deriving DecidableEq, Repr, Inhabited

/-- YUV_COLS: the column each of Y, U, V reads for each of R, G, B (R8, R175). -/
structure YuvCols where
  yr : Fin 8
  yg : Fin 8
  yb : Fin 8
  ur : Fin 8
  ug : Fin 8
  ub : Fin 8
  vr : Fin 8
  vg : Fin 8
  vb : Fin 8
  deriving DecidableEq, Repr, Inhabited

/-- RES_TABLE, ten entries (R8). -/
abbrev ResTable := Vector ResEntry 10

/-- YUV_TAB, 256 rows of 8 signed 16-bit entries (R8, R63). -/
abbrev YuvTab := Vector (Vector (BitVec 16) 8) 256

/-- The parameters of R8 and the output base address of R69, before the constraints of R8 are checked. -/
structure ParamSet where
  poolSize : Nat
  cap : Nat
  nslots : Nat
  slotBytes : Nat
  resTable : ResTable
  yuvTab : YuvTab
  yuvCols : YuvCols
  bayerTaps : BayerTaps
  outBase : Nat
  deriving DecidableEq, Repr, Inhabited

/-- The parameters for which R8 and R69 give no default, which an instance brings with it. -/
structure OpenParams where
  resTable : ResTable
  yuvTab : YuvTab
  outBase : Nat
  deriving DecidableEq, Repr, Inhabited

/-- The moves between which an order is left open (R227, R266): one PRODUCER step, the SEQUENCER taking a command
word, the SEQUENCER's WAIT or CONVERT step of a pending pull. -/
inductive Move where
  | produce | command | pull
  deriving DecidableEq, Repr, Inhabited

/-- DESIGN CHOICE (log 2): the parameters without a default of the instance that `State.reset` is. No value of them is
known. -/
opaque Config.openParams : OpenParams

/-- DESIGN CHOICE (log 3): how the scheduler's n-th round of free choices begins (R227: every interleaving is legal).
Nothing constrains it. -/
opaque Config.freeRound : Nat → List Move

/-- DESIGN CHOICE (log 8): the 32-bit response value of a byte count of 2^32 or more, which no rule states. -/
opaque Config.freeValue : Nat → Word

end Sys2Proof
end

