-- ==== Sys2Proof/Machine/Parameters.lean ====
section
/-!
DEFINITION. The constraints of spec/00_scope.md R8 on a parameter set, the default tables the spec gives
(spec/43_demosaic.md R167, R8), and the parameter sets the model names.
-/
namespace Sys2Proof.Machine

/-- Which constraint of R8 a parameter set breaks. -/
inductive ParamError where
  | poolSize | nslots | slotBytes | resEntry | capBelowFrame | capTooLarge | tapsWithoutOneOwn
  deriving DecidableEq, Repr

/-- The factors R8 allows. -/
def factorOk (factor : Nat) : Bool :=
  [1, 2, 3, 4, 5, 8].contains factor

/-- A RES_TABLE entry of R8: width and height at least 1, factor in the set. -/
def resEntryOk (e : ResEntry) : Bool :=
  decide (1 ≤ e.width) && decide (1 ≤ e.height) && factorOk e.factor

/-- OWN stands in exactly one channel of a phase (R168). -/
def phaseTapsOk (p : PhaseTaps) : Bool :=
  decide (([p.r, p.g, p.b].filter (fun k => decide (k = TapKind.own))).length = 1)

/-- R168 for the four phases. -/
def bayerTapsOk (t : BayerTaps) : Bool :=
  phaseTapsOk t.p00 && phaseTapsOk t.p01 && phaseTapsOk t.p10 && phaseTapsOk t.p11

/-- The first constraint of R8 that a parameter set breaks, if any (R9). -/
def paramError (p : ParamSet) : Option ParamError :=
  if p.poolSize < 2 ∨ 15 < p.poolSize then some .poolSize
  else if p.nslots < 2 ∨ 256 < p.nslots then some .nslots
  else if p.slotBytes < 1 then some .slotBytes
  else if p.resTable.toList.all resEntryOk = false then some .resEntry
  else if p.resTable.toList.all (fun e => decide (e.width * e.height ≤ p.cap)) = false then some .capBelowFrame
  else if 2 ^ 32 ≤ p.cap then some .capTooLarge
  else if bayerTapsOk p.bayerTaps = false then some .tapsWithoutOneOwn
  else none

/-- A parameter set that meets R8. -/
def paramsOk (p : ParamSet) : Bool :=
  (paramError p).isNone

/-- The parameters of a model instance: only a set that meets R8 has a meaning (R9). -/
abbrev Params :=
  { p : ParamSet // paramsOk p = true }

/-- The default BAYER_TAPS of R167. -/
def defaultTaps : BayerTaps where
  p00 := { r := .own, g := .h2, b := .x4 }
  p01 := { r := .h2, g := .own, b := .v2 }
  p10 := { r := .v2, g := .own, b := .h2 }
  p11 := { r := .x4, g := .h2, b := .own }

/-- BAYER_TAPS_LITERAL of R168: the default with channel R of phase (0, 1) changed to X4. -/
def literalTaps : BayerTaps :=
  { defaultTaps with p01 := { r := .x4, g := .own, b := .v2 } }

/-- The default YUV_COLS of R8: Y (0,1,2), U (3,4,5), V (5,6,7). -/
def defaultCols : YuvCols where
  yr := 0
  yg := 1
  yb := 2
  ur := 3
  ug := 4
  ub := 5
  vr := 5
  vg := 6
  vb := 7

/-- The largest value of a size over the entries of RES_TABLE. -/
def largest (size : ResEntry → Nat) (t : ResTable) : Nat :=
  (t.toList.map size).foldl max 0

/-- width * height of an entry (R8, R26). -/
def frameBytes (e : ResEntry) : Nat :=
  e.width * e.height

/-- The pixels of the largest view an entry can have: a side is the image's, or what a 12-bit field of VIEW holds (R25,
R26). DESIGN CHOICE (log 19): R8 and D11 do not say over which views the largest is taken. -/
def maxViewPixels (e : ResEntry) : Nat :=
  max (e.width / e.factor) 4095 * max (e.height / e.factor) 4095

/-- The default of CAP (R8, D12). -/
def defaultCap (t : ResTable) : Nat :=
  largest frameBytes t

/-- The default of SLOT_BYTES: four bytes for each pixel of the largest view (R8, D11; log 19). -/
def defaultSlotBytes (t : ResTable) : Nat :=
  4 * largest maxViewPixels t

/-- The parameter set with the defaults R8 gives, POOL_SIZE 3, CAP, NSLOTS 2, SLOT_BYTES, YUV_COLS and BAYER_TAPS, and
the other values of an instance. -/
def withDefaults (o : OpenParams) : ParamSet where
  poolSize := 3
  cap := defaultCap o.resTable
  nslots := 2
  slotBytes := defaultSlotBytes o.resTable
  resTable := o.resTable
  yuvTab := o.yuvTab
  yuvCols := defaultCols
  bayerTaps := defaultTaps
  outBase := o.outBase

/-- The smallest frames that meet R8, taken only where the values without a default do not meet it (log 2). -/
def smallestOpen : OpenParams where
  resTable := ⟨(List.replicate 10 { width := 1, height := 1, factor := 1 }).toArray, by decide⟩
  yuvTab := Vector.replicate 256 (Vector.replicate 8 0)
  outBase := 0

theorem withDefaults_smallestOpen_ok : paramsOk (withDefaults smallestOpen) = true := by decide

/-- The parameters of the instance that `State.reset` is: the defaults of R8, and the constant without a body of Config
where it gives none (log 2). -/
def resetParams : Params :=
  if h : paramsOk (withDefaults Config.openParams) = true then ⟨withDefaults Config.openParams, h⟩
  else ⟨withDefaults smallestOpen, withDefaults_smallestOpen_ok⟩

/-! ## The test configuration of spec/95_test_vectors.md section 1 -/

/-- The row of the test YUV_TAB for sample value `i`. -/
def tcfgYuvRow (i : Nat) : Vector (BitVec 16) 8 :=
  ⟨[(77 * i / 256 : Int), 150 * i / 256, 29 * i / 256, -(43 * i / 256), -(85 * i / 256), 128 * i / 256,
    -(107 * i / 256), -(21 * i / 256)].map (BitVec.ofInt 16) |>.toArray, by simp⟩

/-- The test YUV_TAB. -/
def tcfgYuvTab : YuvTab :=
  ⟨((List.range 256).map tcfgYuvRow).toArray, by simp⟩

/-- The test RES_TABLE. -/
def tcfgResTable : ResTable :=
  ⟨[⟨4, 4, 1⟩, ⟨8, 8, 2⟩, ⟨6, 6, 3⟩, ⟨8, 4, 1⟩, ⟨6, 6, 2⟩, ⟨4, 4, 1⟩, ⟨4, 4, 1⟩, ⟨4, 4, 1⟩, ⟨4, 4, 1⟩,
    ⟨4, 4, 1⟩].toArray, by decide⟩

/-- TCFG as a parameter set: the spec's own test values, which make no claim about the device. -/
def tcfgSet : ParamSet :=
  { withDefaults { resTable := tcfgResTable, yuvTab := tcfgYuvTab, outBase := 0 } with cap := 64, slotBytes := 256 }

theorem tcfgSet_ok : paramsOk tcfgSet = true := by decide

/-- TCFG, a parameter set that meets R8. -/
def tcfg : Params :=
  ⟨tcfgSet, tcfgSet_ok⟩

end Sys2Proof.Machine
end

