-- ==== Sys2Proof/Machine/State.lean ====
section
/-!
DEFINITION. The state of the block (spec/10_state.md) as plain data, its value after power-on reset
(spec/70_reset_and_hazards.md R290), and the reasons a step can stop.
-/
namespace Sys2Proof.Machine

/-- The output pixel formats (R23, R180). -/
inductive Format where
  | rgb24 | rgb32 | bgr24 | bgr32 | uyvy | yuyv
  deriving DecidableEq, Repr

/-- Register MODE (R23). `res` and `fmt` hold legal values by their types (log 17). -/
structure Mode where
  res : Fin 10
  fmt : Format
  hflip : Bool
  vflip : Bool
  deriving DecidableEq, Repr

/-- The fields of one raw buffer (R33). -/
structure Buf where
  off : BitVec 32
  err : BitVec 32
  odd : Bool
  deriving DecidableEq, Repr

/-- The pool while running (R31, R33): the four roles and, one entry per buffer id, the per-buffer fields. -/
structure Pool where
  fill : Nat
  read : Option Nat
  empty : List Nat
  full : List Nat
  bufs : List Buf
  deriving DecidableEq, Repr

/-- `S.run` (R22). The pool exists only while running (R31). -/
inductive Run where
  | stopped
  | running (pool : Pool)
  deriving DecidableEq, Repr

/-- `S.pull` (R37): NONE, WAIT(slot) or CONVERT(slot). -/
inductive Pull where
  | noPull
  | wait (slot : BitVec 8)
  | convert (slot : BitVec 8)
  deriving DecidableEq, Repr

/-- The status codes (R96). -/
inductive Status where
  | ok | none | retry | terminated | streamError | readHeld | noRead | badState | badConfig | badSlot | busy | illegal
  | fatal
  deriving DecidableEq, Repr

/-- One response on the response channel (R95); its two words are `Response.words`. -/
structure Response where
  op : BitVec 8
  status : Status
  value : Word
  deriving DecidableEq, Repr

/-- What the model's fault record can hold (R268, R290). -/
inductive FatalInfo where
  | poolInvariant
  deriving DecidableEq, Repr

/-- A byte memory: (address, byte) pairs. An address that is not listed holds no value (R43). -/
abbrev Mem := List Host.Cell

/-- The state of the block: everything spec/10_state.md names, the ports and the response channel (R42, R290), the
model's fault record (R268), the instance's parameters (log 1), and two fields of the model's own that say which agent
moves next (`schedule`, `tick`, log 3). -/
structure State where
  params : Params
  run : Run
  mode : Mode
  bright : BitVec 16
  viewX : BitVec 12
  viewY : BitVec 12
  isocErrors : BitVec 32
  dropped : BitVec 32
  dumped : BitVec 32
  streamError : Bool
  fatal : Bool
  pull : Pull
  raw : Mem
  out : Mem
  cmdPort : List Word
  ingestPort : List Word
  xferRest : List Packet
  responses : List Response
  faultRecord : List FatalInfo
  schedule : List Move
  tick : Nat
  deriving DecidableEq, Repr

/-- Why the machine stops with a fault. Each is raised only in states no run from power-on reaches. -/
inductive Fault where
  /-- Raised by a raw access outside the POOL_SIZE x CAP bytes (R61: fault, not wrap). Safe. -/
  | rawOutOfRange (buffer addr : Nat)
  /-- Raised by a raw read of a byte nothing has written (R43). Safe. -/
  | rawWithoutValue (buffer addr : Nat)
  /-- Raised by an output access outside the NSLOTS x SLOT_BYTES bytes (R62, R13). DESIGN CHOICE (log 18): the rules give
  the range, not what an access outside it does. Safe. -/
  | outOutOfRange (addr : Nat)
  /-- Raised by the CONVERT step of a pull when no Read buffer is held, where R226 reads one (log 12). Safe. -/
  | noReadBuffer
  /-- Raised by a pull step while stopped, where the pool fields have no value (R31; log 12). Safe. -/
  | poolReleased
  deriving DecidableEq, Repr

/-- Why a step has no meaning. -/
inductive Refusal where
  /-- Raised by an arm of `exec` whose instruction has no meaning yet; no arm is left so. Safe. -/
  | notModelled (mnemonic : String)
  /-- Raised by the PRODUCER at words that spell no ingest record (R94). Safe. -/
  | malformedRecord (why : RecordError)
  /-- Raised at the creation of an instance whose parameters break R8 (R9). Safe. -/
  | badParameters (why : ParamError)
  /-- Raised by PUBLISH alone while stopped: there is no Fill buffer (R31), and R97 runs it only in a frame boundary
  (log 9). Safe. -/
  | publishWithoutPool
  deriving DecidableEq, Repr

/-- Power-on reset of an instance with parameters `p` (R42, R290). -/
def State.powerOn (p : Params) : State where
  params := p
  run := .stopped
  mode := { res := 0, fmt := .rgb24, hflip := false, vflip := false }
  bright := 32767
  viewX := 0
  viewY := 0
  isocErrors := 0
  dropped := 0
  dumped := 0
  streamError := false
  fatal := false
  pull := .noPull
  raw := []
  out := []
  cmdPort := []
  ingestPort := []
  xferRest := []
  responses := []
  faultRecord := []
  schedule := []
  tick := 0

/-- The machine right after power-on (R290), with the parameters of log 2. -/
def State.reset : State :=
  State.powerOn resetParams

end Sys2Proof.Machine
end

