-- ==== Sys2Proof/Machine/Ops.lean ====
section
/-!
DEFINITION. The named operations over the block's memories and state: byte memories (spec/20_memory.md R61, R62),
responses (spec/30_encoding.md R95), the pool primitives (spec/42_pool.md R140, R143, R145) and the fatal fault
(spec/60_exceptions.md R268). The block takes no trap and returns from none (R267).
-/
namespace Sys2Proof.Machine

/-! ## Byte memories -/

/-- The byte at an address, if something has written it (R43). -/
def Mem.read : Mem → Nat → Option Byte
  | [], _ => none
  | (b, v) :: m, a => if a = b then some v else Mem.read m a

/-- The memory with the byte at `a` replaced, in canonical form. -/
def Mem.write : Mem → Nat → Byte → Mem
  | [], a, v => [(a, v)]
  | (b, w) :: m, a, v =>
    if a < b then (a, v) :: (b, w) :: m
    else if a = b then (a, v) :: m
    else (b, w) :: Mem.write m a v

/-- The memory with bytes written at `a` upward, in ascending address order (R67). -/
def Mem.writeList : Mem → Nat → List Byte → Mem
  | m, _, [] => m
  | m, a, v :: vs => Mem.writeList (Mem.write m a v) (a + 1) vs

/-- The canonical form: addresses strictly rising. No listed byte can equal what an unlisted address reads as, since
that is no value. -/
def Mem.wf : Mem → Bool
  | [] => true
  | [_] => true
  | (a, _) :: (b, w) :: m => decide (a < b) && Mem.wf ((b, w) :: m)

/-- Every byte of a memory replaced by a function of its address and value. -/
def Mem.mapBytes (m : Mem) (f : Nat → Byte → Byte) : Mem :=
  List.map (fun c => (c.1, f c.1 c.2)) m

/-! ## Reading the state -/

/-- POOL_SIZE of the instance (R8). -/
def State.poolSize (s : State) : Nat :=
  s.params.val.poolSize

/-- CAP of the instance (R8). -/
def State.cap (s : State) : Nat :=
  s.params.val.cap

/-- NSLOTS of the instance (R8). -/
def State.nslots (s : State) : Nat :=
  s.params.val.nslots

/-- SLOT_BYTES of the instance (R8). -/
def State.slotBytes (s : State) : Nat :=
  s.params.val.slotBytes

/-- The size of output memory (R62). -/
def State.outSize (s : State) : Nat :=
  s.nslots * s.slotBytes

/-- `S.run = RUNNING` (R22). -/
def State.running (s : State) : Bool :=
  match s.run with
  | .stopped => false
  | .running _ => true

/-- The pool, while running (R31). -/
def State.pool? (s : State) : Option Pool :=
  match s.run with
  | .stopped => none
  | .running pool => some pool

/-- `S.pull != NONE` (R37). -/
def State.pullPending (s : State) : Bool :=
  match s.pull with
  | .noPull => false
  | .wait _ => true
  | .convert _ => true

/-- The fields of a buffer (R33). An id no role can hold (R32) reads as a fresh buffer (log 16). -/
def Pool.buf (p : Pool) (b : Nat) : Buf :=
  p.bufs.getD b { off := 0, err := 0, odd := false }

/-- The ids in the four roles, in the order of R32. -/
def Pool.ids (p : Pool) : List Nat :=
  p.fill :: (p.read.toList ++ p.empty ++ p.full)

/-- The Full list, empty while stopped: the pool fields then have no value (R31, log 12). -/
def State.fullList (s : State) : List Nat :=
  match s.run with
  | .stopped => []
  | .running pool => pool.full

/-- The Read role, none while stopped (R40, R41). -/
def State.readRole (s : State) : Option Nat :=
  match s.run with
  | .stopped => none
  | .running pool => pool.read

/-! ## Writing the state -/

/-- `respond(op, status, value)` of R95: one response, after those already there. -/
def State.respond (s : State) (op : BitVec 8) (status : Status) (value : Word) : State :=
  { s with responses := s.responses ++ [{ op := op, status := status, value := value }] }

/-- `S.run` and the pool written together (R31). -/
def State.setRun (s : State) (run : Run) : State :=
  { s with run := run }

/-- The pool written while running. -/
def State.setPool (s : State) (pool : Pool) : State :=
  { s with run := .running pool }

/-- `S.pull` written. -/
def State.setPull (s : State) (pull : Pull) : State :=
  { s with pull := pull }

/-- MODE written whole (R216). -/
def State.setMode (s : State) (mode : Mode) : State :=
  { s with mode := mode }

/-- BRIGHT written (R217). -/
def State.setBright (s : State) (bright : BitVec 16) : State :=
  { s with bright := bright }

/-- VIEW written (R218). -/
def State.setView (s : State) (viewX viewY : BitVec 12) : State :=
  { s with viewX := viewX, viewY := viewY }

/-- Raw memory written. -/
def State.setRaw (s : State) (raw : Mem) : State :=
  { s with raw := raw }

/-- Output memory written. -/
def State.setOut (s : State) (out : Mem) : State :=
  { s with out := out }

/-- The packets of the record in progress that are still to be processed (R113). -/
def State.setRest (s : State) (rest : List Packet) : State :=
  { s with xferRest := rest }

/-- ISOC_ERRORS incremented by `inc32` (R12, R27). -/
def State.countIsoc (s : State) : State :=
  { s with isocErrors := s.isocErrors + 1 }

/-- DROPPED_FRAMES incremented by `inc32` (R12, R28). -/
def State.countDropped (s : State) : State :=
  { s with dropped := s.dropped + 1 }

/-- DUMPED_FRAMES incremented by `inc32` (R12, R29). -/
def State.countDumped (s : State) : State :=
  { s with dumped := s.dumped + 1 }

/-- The sticky stream error set (R30, R112). -/
def State.setStreamError (s : State) : State :=
  { s with streamError := true }

/-- The counters and the sticky flags as START_CAPTURE leaves them (R219). -/
def State.clearStream (s : State) : State :=
  { s with isocErrors := 0, dropped := 0, dumped := 0, streamError := false, fatal := false }

/-- `raise Fatal(info)`: the fatal flag set and the fault recorded, for good (R268). No response: the ingest port
produces none (R95, log 10). -/
def State.raiseFatal (s : State) (info : FatalInfo) : State :=
  { s with fatal := true, faultRecord := s.faultRecord ++ [info] }

/-- The command port after words have been taken from it (R215). -/
def State.setCmdPort (s : State) (words : List Word) : State :=
  { s with cmdPort := words }

/-- The ingest port after words have been taken from it (R93). -/
def State.setIngestPort (s : State) (words : List Word) : State :=
  { s with ingestPort := words }

/-- The schedule after entries have been used (log 3). -/
def State.setSchedule (s : State) (schedule : List Move) : State :=
  { s with schedule := schedule }

/-- The scheduler's next round of free choices is another one (log 3). -/
def State.nextTick (s : State) : State :=
  { s with tick := s.tick + 1 }

/-! ## Raw and output memory -/

/-- The key of raw byte (b, a): buffers lie one after another. -/
def State.rawKey (s : State) (b a : Nat) : Nat :=
  b * s.cap + a

/-- `RawRead(b, a)` (R13, R61): outside the memory, and at a byte without value, a fault. -/
def State.rawRead (s : State) (b a : Nat) : Except Fault Byte :=
  if b < s.poolSize ∧ a < s.cap then
    match Mem.read s.raw (s.rawKey b a) with
    | some v => .ok v
    | none => .error (.rawWithoutValue b a)
  else .error (.rawOutOfRange b a)

/-- `RawWrite(b, a + k, bytes[k])` for every k (R61, R120): all inside the buffer, or a fault. -/
def State.rawStore (s : State) (b a : Nat) (bytes : List Byte) : Except Fault State :=
  if b < s.poolSize ∧ a + bytes.length ≤ s.cap then
    .ok (s.setRaw (Mem.writeList s.raw (s.rawKey b a) bytes))
  else .error (.rawOutOfRange b a)

/-- `OutRead(a)` (R13): the byte, if something has written it. -/
def State.outRead (s : State) (a : Nat) : Option Byte :=
  Mem.read s.out a

/-- `OutWrite(a + k, bytes[k])` for every k (R62): all inside output memory, or a fault. DESIGN CHOICE (log 18): R13 and
R62 give the range, not what an access outside it does. -/
def State.outStore (s : State) (a : Nat) (bytes : List Byte) : Except Fault State :=
  if a + bytes.length ≤ s.outSize then .ok (s.setOut (Mem.writeList s.out a bytes))
  else .error (.outOutOfRange a)

/-! ## Acceptance common to the commands -/

/-- One response and nothing else. -/
def answer (s : State) (op : BitVec 8) (status : Status) (value : Word) : Host.Outcome State Fault Refusal :=
  .next (s.respond op status value)

/-- R215: with a pull pending the command is answered BUSY, otherwise its own rule runs. -/
def unlessBusy (op : BitVec 8) (s : State) (own : Host.Outcome State Fault Refusal) :
    Host.Outcome State Fault Refusal :=
  if s.pullPending then answer s op .busy 0 else own

/-- A byte count as a response value. A count of 2^32 or more has no stated 32-bit value (log 8). -/
def countValue (n : Nat) : Word :=
  if n < 2 ^ 32 then BitVec.ofNat 32 n else Config.freeValue n

/-! ## Pool operations -/

/-- `sat_inc32` (R12). -/
def satInc32 (v : BitVec 32) : BitVec 32 :=
  if v = 0xFFFFFFFF#32 then v else v + 1

/-- The fields of one buffer replaced. -/
def Pool.setBuf (p : Pool) (b : Nat) (buf : Buf) : Pool :=
  { p with bufs := p.bufs.set b buf }

/-- `S.err[b] <- sat_inc32(S.err[b])` (R120, R122). -/
def Pool.countErr (p : Pool) (b : Nat) : Pool :=
  p.setBuf b { p.buf b with err := satInc32 (p.buf b).err }

/-- `S.off[b]` written (R120). -/
def Pool.setOff (p : Pool) (b off : Nat) : Pool :=
  p.setBuf b { p.buf b with off := BitVec.ofNat 32 off }

/-- `S.odd[b]` written (R117). -/
def Pool.setOdd (p : Pool) (b : Nat) (odd : Bool) : Pool :=
  p.setBuf b { p.buf b with odd := odd }

/-- FILL_RESET (R124): offset and error count of the buffer that is now Fill. -/
def Pool.fillReset (p : Pool) : Pool :=
  p.setBuf p.fill { p.buf p.fill with off := 0, err := 0 }

/-- What PUBLISH reports (R140): a fresh Fill buffer, a displaced frame, or no buffer at all. -/
inductive Published where
  | fresh | displaced | exhausted
  deriving DecidableEq, Repr

/-- PUBLISH(B) on the roles (R140): B to the tail of Full, then the new Fill from the head of Empty, else of Full. -/
def Pool.publish (p : Pool) (b : Nat) : Pool × Published :=
  match p.empty with
  | e :: es => ({ p with full := p.full ++ [b], fill := e, empty := es }, .fresh)
  | [] =>
    match p.full ++ [b] with
    | f :: fs => ({ p with full := fs, fill := f }, .displaced)
    | [] => ({ p with full := [] }, .exhausted)

/-- The state after PUBLISH: the pool, and the fatal fault where no buffer was left (R142, R268). -/
def State.afterPublish (s : State) (r : Pool × Published) : State :=
  match r.2 with
  | .fresh => s.setPool r.1
  | .displaced => s.setPool r.1
  | .exhausted => (s.setPool r.1).raiseFatal .poolInvariant

/-- `tryAcquireRead` (R143): nothing if a Read buffer is held or Full is empty. -/
def Pool.tryAcquire (p : Pool) : Pool × Option Nat :=
  match p.read, p.full with
  | none, f :: fs => ({ p with read := some f, full := fs }, some f)
  | none, [] => (p, none)
  | some _, _ => (p, none)

/-- `releaseRead` (R145): the Read buffer to the tail of Empty. -/
def Pool.release (p : Pool) (b : Nat) : Pool :=
  { p with empty := p.empty ++ [b], read := none }

/-- The pool START_CAPTURE sets up (R219). -/
def freshPool (poolSize : Nat) : Pool where
  fill := 0
  read := none
  empty := (List.range (poolSize - 1)).map (· + 1)
  full := []
  bufs := List.replicate poolSize { off := 0, err := 0, odd := false }

end Sys2Proof.Machine
end

