-- ==== Sys2Proof/Machine/Geometry.lean ====
section
/-!
DEFINITION. The derived geometry of spec/10_state.md R26 and spec/43_demosaic.md R163.
-/
namespace Sys2Proof.Machine

/-- Bytes per pixel of a format (R26, R163). -/
def Format.bpp : Format → Nat
  | .rgb24 => 3
  | .rgb32 => 4
  | .bgr24 => 3
  | .bgr32 => 4
  | .uyvy => 2
  | .yuyv => 2

/-- `RES_TABLE[S.res]` (R26). -/
def State.resEntry (s : State) : ResEntry :=
  s.params.val.resTable[s.mode.res]

/-- Native capture width (R26). -/
def State.width (s : State) : Nat :=
  s.resEntry.width

/-- Native capture height (R26). -/
def State.height (s : State) : Nat :=
  s.resEntry.height

/-- Decimation factor (R26). -/
def State.factor (s : State) : Nat :=
  s.resEntry.factor

/-- Image width, floor division (R26). -/
def State.nwidth (s : State) : Nat :=
  s.width / s.factor

/-- Image height, floor division (R26). -/
def State.nheight (s : State) : Nat :=
  s.height / s.factor

/-- View width: 0 means the image width (R25, R26). -/
def State.vx (s : State) : Nat :=
  if s.viewX = 0 then s.nwidth else s.viewX.toNat

/-- View height: 0 means the image height (R25, R26). -/
def State.vy (s : State) : Nat :=
  if s.viewY = 0 then s.nheight else s.viewY.toNat

/-- Bytes per pixel of the configured format (R26). -/
def State.bpp (s : State) : Nat :=
  s.mode.fmt.bpp

/-- `expected_bytes` (R26). -/
def State.expectedBytes (s : State) : Nat :=
  s.width * s.height

/-- `out_bytes` (R26, R163). -/
def State.outBytes (s : State) : Nat :=
  s.vx * s.vy * s.bpp

/-- Horizontal centring offset (R163). -/
def State.ox (s : State) : Nat :=
  (s.vx - s.nwidth) / 2

/-- Vertical centring offset (R163). -/
def State.oy (s : State) : Nat :=
  (s.vy - s.nheight) / 2

/-- The first output address of a slot (R62, R163). -/
def State.slotBase (s : State) (slot : BitVec 8) : Nat :=
  slot.toNat * s.slotBytes

/-- `addr(X, Y)` of R163: the first output address of view pixel (X, Y) of a slot. -/
def State.pixelAddr (s : State) (slot : BitVec 8) (x y : Nat) : Nat :=
  s.slotBase slot + (y * s.vx + x) * s.bpp

/-- The check of START_CAPTURE (R219): the view holds the image and the output fits a slot. -/
def State.viewFits (s : State) : Bool :=
  decide (s.nwidth ≤ s.vx) && decide (s.nheight ≤ s.vy) && decide (s.outBytes ≤ s.slotBytes)

end Sys2Proof.Machine
end

