-- ==== Sys2Proof/Machine/Operands.lean ====
section
/-!
DEFINITION. The operand forms of the commands (spec/30_encoding.md R84 to R88): which values a command accepts. Every
operand is taken zero-extended as it stands (R89).
-/
namespace Sys2Proof.Machine

/-- The resolution index of a `res` operand; none for 10..15, which R216 rejects. -/
def resIndex (res : BitVec 4) : Option (Fin 10) :=
  if h : res.toNat < 10 then some ⟨res.toNat, h⟩ else none

/-- The format of a `fmt` operand (R23); none for 6 and 7, which R216 rejects. -/
def formatOf (fmt : BitVec 3) : Option Format :=
  match fmt.toNat with
  | 0 => some .rgb24
  | 1 => some .rgb32
  | 2 => some .bgr24
  | 3 => some .bgr32
  | 4 => some .uyvy
  | 5 => some .yuyv
  | _ => none

/-- The code of a format in MODE (R23). -/
def Format.code : Format → Nat
  | .rgb24 => 0
  | .rgb32 => 1
  | .bgr24 => 2
  | .bgr32 => 3
  | .uyvy => 4
  | .yuyv => 5

/-- `slot < NSLOTS` (R87). -/
def State.slotOk (s : State) (slot : BitVec 8) : Bool :=
  decide (slot.toNat < s.nslots)

end Sys2Proof.Machine
end

