-- ==== Sys2Proof/Machine/Flags.lean ====
section
/-!
DEFINITION. The derived bits and registers: `ready` and IRQ_READY (spec/10_state.md R38, spec/60_exceptions.md R263),
the registers READ_REG reads (R39 to R41), and the words of a response (spec/30_encoding.md R95, R96).
-/
namespace Sys2Proof.Machine

/-- `ready` (R38). -/
def State.ready (s : State) : Bool :=
  s.running && (!s.fullList.isEmpty || s.streamError)

/-- The IRQ_READY line: at every moment equal to `ready` (R263). -/
def State.irqReady (s : State) : Bool :=
  s.ready

/-- A one-bit field at a bit position. -/
def bitAt (b : Bool) (position : Nat) : Nat :=
  if b then 2 ^ position else 0

/-- Register MODE (R23). -/
def State.modeReg (s : State) : Word :=
  BitVec.ofNat 32 (bitAt s.mode.vflip 8 + bitAt s.mode.hflip 7 + s.mode.fmt.code * 2 ^ 4 + s.mode.res.val)

/-- Register BRIGHT (R24). -/
def State.brightReg (s : State) : Word :=
  BitVec.ofNat 32 s.bright.toNat

/-- Register VIEW (R25). -/
def State.viewReg (s : State) : Word :=
  BitVec.ofNat 32 (s.viewY.toNat * 2 ^ 12 + s.viewX.toNat)

/-- `S.pull = CONVERT(_)` (R40). -/
def State.pullConverting (s : State) : Bool :=
  match s.pull with
  | .noPull => false
  | .wait _ => false
  | .convert _ => true

/-- Register STATUS (R40). -/
def State.statusReg (s : State) : Word :=
  BitVec.ofNat 32 (bitAt s.running 0 + bitAt s.streamError 1 + bitAt s.fatal 2 + bitAt s.pullPending 3 +
    bitAt s.pullConverting 4 + bitAt s.ready 5 + bitAt s.readRole.isSome 6)

/-- The POOL register of a pool (R41). Each field takes as many bits as R41 gives it. -/
def Pool.poolReg (p : Pool) : Word :=
  BitVec.ofNat 32 (p.fill % 2 ^ 4 + p.read.getD 0 % 2 ^ 4 * 2 ^ 4 + bitAt p.read.isSome 8 +
    bitAt (p.buf p.fill).odd 9 +
    bitAt (match p.read with
      | some r => (p.buf r).odd
      | none => false) 10 +
    p.empty.length % 2 ^ 4 * 2 ^ 12 + p.full.length % 2 ^ 4 * 2 ^ 16)

/-- Register POOL (R41): 0 while stopped. -/
def State.poolReg (s : State) : Word :=
  match s.run with
  | .stopped => 0
  | .running pool => pool.poolReg

/-- Register FILL_OFFSET (R39): 0 while stopped. -/
def State.fillOffsetReg (s : State) : Word :=
  match s.run with
  | .stopped => 0
  | .running pool => (pool.buf pool.fill).off

/-- Register FILL_ERRORS (R39): 0 while stopped. -/
def State.fillErrorsReg (s : State) : Word :=
  match s.run with
  | .stopped => 0
  | .running pool => (pool.buf pool.fill).err

/-- `REG(n)` of R232, by the map of R39; none for 10..255. -/
def State.reg (s : State) (n : BitVec 8) : Option Word :=
  match n.toNat with
  | 0 => some s.modeReg
  | 1 => some s.brightReg
  | 2 => some s.viewReg
  | 3 => some s.isocErrors
  | 4 => some s.dropped
  | 5 => some s.dumped
  | 6 => some s.statusReg
  | 7 => some s.poolReg
  | 8 => some s.fillOffsetReg
  | 9 => some s.fillErrorsReg
  | _ => none

/-- The code of a status (R96). -/
def Status.code : Status → Nat
  | .ok => 0x00
  | .none => 0x01
  | .retry => 0x02
  | .terminated => 0x03
  | .streamError => 0x04
  | .readHeld => 0x05
  | .noRead => 0x06
  | .badState => 0x07
  | .badConfig => 0x08
  | .badSlot => 0x09
  | .busy => 0x0A
  | .illegal => 0x0B
  | .fatal => 0x0C

/-- The two words of a response on the channel (R95). -/
def Response.words (r : Response) : List Word :=
  [BitVec.ofNat 32 (r.op.toNat * 2 ^ 24 + r.status.code * 2 ^ 16), r.value]

end Sys2Proof.Machine
end

