-- ==== Sys2Proof/Machine/Capture.lean ====
section
/-!
DEFINITION. START_CAPTURE and STOP_CAPTURE (spec/45_control.md R219 to R221).
-/
namespace Sys2Proof.Machine

/-- The state START_CAPTURE sets up: the pool, the counters, the sticky flags, RUNNING (R219). Memory keeps its
bytes. -/
def State.startStream (s : State) : State :=
  s.clearStream.setPool (freshPool s.poolSize)

/-- START_CAPTURE (R219). -/
def execStartCapture (s : State) : Host.Outcome State Fault Refusal :=
  unlessBusy 0x10 s <|
    if s.running then answer s 0x10 .badState 0
    else .next (if s.viewFits then s.startStream.respond 0x10 .ok 0 else s.respond 0x10 .badConfig 0)

/-- A pending pull is ended with TERMINATED (R221). -/
def State.terminatePull (s : State) : State :=
  if s.pullPending then (s.respond 0x20 .terminated 0).setPull .noPull else s

/-- STOP_CAPTURE (R220): the pull first, then the pool is released, then the answer. -/
def execStopCapture (s : State) : Host.Outcome State Fault Refusal :=
  answer (s.terminatePull.setRun .stopped) 0x11 .ok 0

end Sys2Proof.Machine
end

