-- ==== Sys2Proof/Machine/Configure.lean ====
section
/-!
DEFINITION. CFG_MODE, CFG_BRIGHT, CFG_VIEW (spec/45_control.md R216 to R218).
-/
namespace Sys2Proof.Machine

/-- CFG_MODE (R216). -/
def execCfgMode (res : BitVec 4) (fmt : BitVec 3) (hflip vflip : Bool) (s : State) :
    Host.Outcome State Fault Refusal :=
  unlessBusy 0x01 s <|
    if s.running then answer s 0x01 .badState 0
    else
      match resIndex res, formatOf fmt with
      | some r, some f => answer (s.setMode { res := r, fmt := f, hflip := hflip, vflip := vflip }) 0x01 .ok 0
      | none, _ => answer s 0x01 .badConfig 0
      | some _, none => answer s 0x01 .badConfig 0

/-- CFG_BRIGHT (R217). -/
def execCfgBright (bright : BitVec 16) (s : State) : Host.Outcome State Fault Refusal :=
  unlessBusy 0x02 s <|
    if s.running then answer s 0x02 .badState 0
    else answer (s.setBright bright) 0x02 .ok 0

/-- CFG_VIEW (R218). -/
def execCfgView (viewX viewY : BitVec 12) (s : State) : Host.Outcome State Fault Refusal :=
  unlessBusy 0x03 s <|
    if s.running then answer s 0x03 .badState 0
    else answer (s.setView viewX viewY) 0x03 .ok 0

end Sys2Proof.Machine
end

