-- ==== Sys2Proof/Machine/Brightness.lean ====
section
/-!
DEFINITION. The brightness correction and the command BRIGHTEN (spec/44_brightness.md).
-/
namespace Sys2Proof.Machine

/-- One affected byte corrected (R200, R202, R203): saturating at 255 when adding and at 0 when subtracting. -/
def brightByte (bright : BitVec 16) (v : Byte) : Byte :=
  if 32767 ≤ bright.toNat then BitVec.ofNat 8 (min 255 (v.toNat + (bright.toNat - 32767) / 256))
  else BitVec.ofNat 8 (v.toNat - (32767 - bright.toNat) / 256)

/-- The affected byte offsets of a format (R204). -/
def Format.affected : Format → Nat → Bool
  | .rgb24, _ => true
  | .rgb32, _ => true
  | .bgr24, _ => true
  | .bgr32, _ => true
  | .uyvy, k => decide (k % 2 = 1)
  | .yuyv, k => decide (k % 2 = 0)

/-- Address `a` is an affected byte of a slot's `out_bytes` region (R204, R205). -/
def State.affectedAddr (s : State) (slot : BitVec 8) (a : Nat) : Bool :=
  decide (s.slotBase slot ≤ a) && decide (a < s.slotBase slot + s.outBytes) &&
    s.mode.fmt.affected (a - s.slotBase slot)

/-- CORRECT(slot) (R200): every affected byte that holds a value is corrected in place; a byte without value stays
without value (R209). A region that leaves output memory is a fault: DESIGN CHOICE (log 18). -/
def State.correct (s : State) (slot : BitVec 8) : Except Fault State :=
  if s.slotBase slot + s.outBytes ≤ s.outSize then
    .ok (s.setOut (Mem.mapBytes s.out fun a v => if s.affectedAddr slot a then brightByte s.bright v else v))
  else .error (.outOutOfRange (s.slotBase slot))

/-- BRIGHTEN (R200, R201). -/
def execBrighten (slot : BitVec 8) (s : State) : Host.Outcome State Fault Refusal :=
  unlessBusy 0x43 s <|
    if s.running then
      if s.slotOk slot then
        match s.correct slot with
        | .ok s' => answer s' 0x43 .ok (countValue s.outBytes)
        | .error f => .fault f
      else answer s 0x43 .badSlot 0
    else answer s 0x43 .badState 0

end Sys2Proof.Machine
end

