-- ==== Sys2Proof/Machine/Demosaic.lean ====
section
/-!
DEFINITION. The demosaic conversion and the command CONVERT (spec/43_demosaic.md).
-/
namespace Sys2Proof.Machine

/-! ## Samples and taps -/

/-- `avg2` (R12): truncating. -/
def avg2 (a b : Byte) : Byte :=
  BitVec.ofNat 8 ((a.toNat + b.toNat) / 2)

/-- `avg4` (R12): truncating. -/
def avg4 (a b c d : Byte) : Byte :=
  BitVec.ofNat 8 ((a.toNat + b.toNat + c.toNat + d.toNat) / 4)

/-- The raw sample at column `x` and row `y` of buffer `b`; the row stride is the native width (R169). -/
def State.sample (s : State) (b x y : Nat) : Except Fault Byte :=
  s.rawRead b (y * s.width + x)

/-- The tap centre of interior image pixel (c, r) (R166). -/
def State.tapCentre (s : State) (c r : Nat) : Nat × Nat :=
  (if s.mode.hflip then (s.width - 2) - (c - 1) * s.factor else 1 + (c - 1) * s.factor,
   if s.mode.vflip then (s.height - 2) - (r - 1) * s.factor else 1 + (r - 1) * s.factor)

/-- The tap kinds at the phase of raw site (cx, cy) (R167, R168). -/
def tapsAt (t : BayerTaps) (cx cy : Nat) : PhaseTaps :=
  if cy % 2 = 0 then
    if cx % 2 = 0 then t.p00 else t.p01
  else
    if cx % 2 = 0 then t.p10 else t.p11

/-- A tap of kind `k` at raw site (cx, cy) (R169). -/
def State.tap (s : State) (b cx cy : Nat) : TapKind → Except Fault Byte
  | .own => s.sample b cx cy
  | .h2 => do
    let l ← s.sample b (cx - 1) cy
    let r ← s.sample b (cx + 1) cy
    return avg2 l r
  | .v2 => do
    let u ← s.sample b cx (cy - 1)
    let d ← s.sample b cx (cy + 1)
    return avg2 u d
  | .x4 => do
    let ul ← s.sample b (cx - 1) (cy - 1)
    let ur ← s.sample b (cx + 1) (cy - 1)
    let dl ← s.sample b (cx - 1) (cy + 1)
    let dr ← s.sample b (cx + 1) (cy + 1)
    return avg4 ul ur dl dr
  | .c4 => do
    let l ← s.sample b (cx - 1) cy
    let r ← s.sample b (cx + 1) cy
    let u ← s.sample b cx (cy - 1)
    let d ← s.sample b cx (cy + 1)
    return avg4 l r u d

/-- The three channels of a pixel. -/
structure Rgb where
  r : Byte
  g : Byte
  b : Byte
  deriving DecidableEq, Repr

/-- The channels of interior image pixel (c, r) from buffer `b` (R170). -/
def State.interiorRgb (s : State) (b c r : Nat) : Except Fault Rgb :=
  let centre := s.tapCentre c r
  let taps := tapsAt s.params.val.bayerTaps centre.1 centre.2
  do
    let red ← s.tap b centre.1 centre.2 taps.r
    let green ← s.tap b centre.1 centre.2 taps.g
    let blue ← s.tap b centre.1 centre.2 taps.b
    return { r := red, g := green, b := blue }

/-! ## Output encodings -/

/-- `clamp(v, lo, hi)` (R12). -/
def clamp (v lo hi : Int) : Int :=
  min hi (max lo v)

/-- `Tab(i, c)` (R13, R63): the signed entry of YUV_TAB. -/
def State.tab (s : State) (i : Byte) (c : Fin 8) : Int :=
  (s.params.val.yuvTab[i.toFin][c]).toInt

/-- The sum of three table entries, one per channel (R175). -/
def State.tabSum (s : State) (p : Rgb) (cr cg cb : Fin 8) : Int :=
  s.tab p.r cr + s.tab p.g cg + s.tab p.b cb

/-- `Ys` of R175. -/
def State.ySum (s : State) (p : Rgb) : Int :=
  s.tabSum p s.params.val.yuvCols.yr s.params.val.yuvCols.yg s.params.val.yuvCols.yb

/-- `Us` of R175. -/
def State.uSum (s : State) (p : Rgb) : Int :=
  s.tabSum p s.params.val.yuvCols.ur s.params.val.yuvCols.ug s.params.val.yuvCols.ub

/-- `Vs` of R175. -/
def State.vSum (s : State) (p : Rgb) : Int :=
  s.tabSum p s.params.val.yuvCols.vr s.params.val.yuvCols.vg s.params.val.yuvCols.vb

/-- The luma clamp and rescale (R176, R177); the dividend is never negative. -/
def lumaByte (sum : Int) : Byte :=
  BitVec.ofInt 8 (219 * clamp sum 0 255 / 255 + 16)

/-- The chroma clamp and rescale (R176, R178); the division truncates toward zero. -/
def chromaByte (sum : Int) : Byte :=
  BitVec.ofInt 8 (Int.tdiv (112 * clamp sum (-127) 127) 127 + 128)

/-- The chroma byte of the pixel at view column `x`: U when even, V when odd (R179). -/
def State.chromaAt (s : State) (p : Rgb) (x : Nat) : Byte :=
  if x % 2 = 0 then chromaByte (s.uSum p) else chromaByte (s.vSum p)

/-- The bytes of an interior pixel at view column `x` (R173, R174, R180). -/
def State.pixelOf (s : State) (p : Rgb) (x : Nat) : List Byte :=
  match s.mode.fmt with
  | .rgb24 => [p.r, p.g, p.b]
  | .rgb32 => [p.r, p.g, p.b, 0]
  | .bgr24 => [p.b, p.g, p.r]
  | .bgr32 => [p.b, p.g, p.r, 0]
  | .uyvy => [s.chromaAt p x, lumaByte (s.ySum p)]
  | .yuyv => [lumaByte (s.ySum p), s.chromaAt p x]

/-- The background bytes of a format (R181). -/
def Format.background : Format → List Byte
  | .rgb24 => [0, 0, 0]
  | .rgb32 => [0, 0, 0, 0]
  | .bgr24 => [0, 0, 0]
  | .bgr32 => [0, 0, 0, 0]
  | .uyvy => [0x80, 0x10]
  | .yuyv => [0x10, 0x80]

/-! ## The conversion -/

/-- View pixel (x, y) lies in the image (R164). -/
def State.inImage (s : State) (x y : Nat) : Bool :=
  decide (s.ox ≤ x) && decide (x < s.ox + s.nwidth) && decide (s.oy ≤ y) && decide (y < s.oy + s.nheight)

/-- Image pixel (c, r) lies on the border (R165). -/
def State.onBorder (s : State) (c r : Nat) : Bool :=
  decide (r = 0) || decide (r = s.nheight - 1) || decide (c = 0) || decide (c = s.nwidth - 1)

/-- The bytes of view pixel (x, y) converted from buffer `b`: padding (R164), border (R165) or interior (R166). -/
def State.viewPixel (s : State) (b x y : Nat) : Except Fault (List Byte) :=
  if s.inImage x y then
    if s.onBorder (x - s.ox) (y - s.oy) then .ok s.mode.fmt.background
    else
      match s.interiorRgb b (x - s.ox) (y - s.oy) with
      | .ok p => .ok (s.pixelOf p x)
      | .error f => .error f
  else .ok (List.replicate s.bpp 0)

/-- The results of a list of computations joined, or the first fault. -/
def joinBytes : List (Except Fault (List Byte)) → Except Fault (List Byte)
  | [] => .ok []
  | .error f :: _ => .error f
  | .ok bs :: rest =>
    match joinBytes rest with
    | .ok more => .ok (bs ++ more)
    | .error f => .error f

/-- The converted view of buffer `b`, row-major, top row first (R163). -/
def State.viewBytes (s : State) (b : Nat) : Except Fault (List Byte) :=
  joinBytes ((List.range (s.vx * s.vy)).map fun n => s.viewPixel b (n % s.vx) (n / s.vx))

/-- DEMOSAIC(b, slot) (R162): the slot's bytes written, nothing else. -/
def State.demosaic (s : State) (b : Nat) (slot : BitVec 8) : Except Fault State :=
  match s.viewBytes b with
  | .ok bytes => s.outStore (s.slotBase slot) bytes
  | .error f => .error f

/-- CONVERT (R160). -/
def execConvert (slot : BitVec 8) (s : State) : Host.Outcome State Fault Refusal :=
  unlessBusy 0x42 s <|
    match s.run with
    | .stopped => answer s 0x42 .badState 0
    | .running pool =>
      if s.fatal then answer s 0x42 .fatal 0
      else if s.slotOk slot then
        match pool.read with
        | none => answer s 0x42 .noRead 0
        | some b =>
          match s.demosaic b slot with
          | .ok s' => answer s' 0x42 .ok (countValue s.outBytes)
          | .error f => .fault f
      else answer s 0x42 .badSlot 0

end Sys2Proof.Machine
end

