-- ==== Sys2Proof/Machine/Control.lean ====
section
/-!
DEFINITION. PULL_FRAME with its WAIT and CONVERT steps, POLL_READY, CANCEL_PULL and READ_REG (spec/45_control.md R223
to R232).
-/
namespace Sys2Proof.Machine

/-- PULL_FRAME, issue step (R224). -/
def execPullFrame (slot : BitVec 8) (s : State) : Host.Outcome State Fault Refusal :=
  unlessBusy 0x20 s <|
    match s.run with
    | .stopped => answer s 0x20 .terminated 0
    | .running pool =>
      if s.slotOk slot then
        if s.fatal then answer s 0x20 .fatal 0
        else if pool.read.isSome then answer s 0x20 .readHeld 0
        else .next (s.setPull (.wait slot))
      else answer s 0x20 .badSlot 0

/-- A pull step is enabled (R225, R226). -/
def State.pullEnabled (s : State) : Bool :=
  match s.pull with
  | .noPull => false
  | .wait _ => s.fatal || s.streamError || !s.fullList.isEmpty
  | .convert _ => true

/-- The WAIT step of a pull into `slot` (R225). -/
def waitStep (slot : BitVec 8) (s : State) : Host.Outcome State Fault Refusal :=
  if s.fatal then .next ((s.respond 0x20 .fatal 0).setPull .noPull)
  else if s.streamError then .next ((s.respond 0x20 .streamError 0).setPull .noPull)
  else
    match s.run with
    | .stopped => .fault .poolReleased
    | .running pool => .next ((s.setPool pool.tryAcquire.1).setPull (.convert slot))

/-- The CONVERT step of a pull into `slot` (R226): convert, correct and release, in one step. -/
def convertStep (slot : BitVec 8) (s : State) : Host.Outcome State Fault Refusal :=
  match s.run with
  | .stopped => .fault .poolReleased
  | .running pool =>
    match pool.read with
    | none => .fault .noReadBuffer
    | some b =>
      match s.demosaic b slot with
      | .error f => .fault f
      | .ok s1 =>
        match s1.correct slot with
        | .error f => .fault f
        | .ok s2 =>
          .next (((s2.setPool (pool.release b)).setPull .noPull).respond 0x20 .ok (countValue s.outBytes))

/-- The enabled step of the pending pull (R225, R226); without a pull nothing happens. -/
def pullStep (s : State) : Host.Outcome State Fault Refusal :=
  match s.pull with
  | .noPull => .next s
  | .wait slot => waitStep slot s
  | .convert slot => convertStep slot s

/-- POLL_READY (R229). -/
def execPollReady (s : State) : Host.Outcome State Fault Refusal :=
  answer s 0x21 .ok (BitVec.ofNat 32 (bitAt s.ready 0))

/-- CANCEL_PULL (R230): a waiting pull is answered RETRY first. -/
def execCancelPull (s : State) : Host.Outcome State Fault Refusal :=
  match s.pull with
  | .noPull => answer s 0x22 .ok 0
  | .wait _ => answer ((s.respond 0x20 .retry 0).setPull .noPull) 0x22 .ok 1
  | .convert _ => answer s 0x22 .ok 0

/-- READ_REG (R232). -/
def execReadReg (n : BitVec 8) (s : State) : Host.Outcome State Fault Refusal :=
  match s.reg n with
  | some v => answer s 0x30 .ok v
  | none => answer s 0x30 .illegal 0

end Sys2Proof.Machine
end

