-- ==== Sys2Proof/Machine/Ingest.lean ====
section
/-!
DEFINITION. The ingest front end: XFER (spec/41_stream_ingest.md). One packet is one step (R113).
-/
namespace Sys2Proof.Machine

/-- The header length a packet's first payload byte gives (R116). -/
def headerLength (first : Byte) : Nat :=
  if first.getLsbD 7 then 8 else 4

/-- APPEND of a data packet's bytes to Fill buffer (R120). -/
def appendData (pool : Pool) (bytes : List Byte) (s : State) : Host.Outcome State Fault Refusal :=
  let off := (pool.buf pool.fill).off.toNat
  if s.cap < off + bytes.length then .next (s.setPool (pool.countErr pool.fill))
  else
    match s.rawStore pool.fill off bytes with
    | .ok s' => .next (s'.setPool (pool.setOff pool.fill (off + bytes.length)))
    | .error f => .fault f

/-- The short-frame check at a marker (R122). -/
def shortCheck (pool : Pool) (s : State) : Pool :=
  if (pool.buf pool.fill).off.toNat < s.expectedBytes then pool.countErr pool.fill else pool

/-- The state after PUBLISH at a frame boundary and FILL_RESET (R123, R124): a displaced frame is counted. -/
def publishFrame (pool : Pool) (s : State) : State :=
  let r := pool.publish pool.fill
  let s' := s.afterPublish (r.1.fillReset, r.2)
  if r.2 = .displaced then s'.countDumped else s'

/-- The state after a frame is dropped and FILL_RESET (R122, R124). -/
def dropFrame (pool : Pool) (s : State) : State :=
  (s.setPool pool.fillReset).countDropped

/-- BOUNDARY at an end-of-frame marker (R121, R122): a spurious marker changes nothing; a good frame is published, a
bad one dropped. `pool` is the pool of `s`. -/
def boundary (pool : Pool) (s : State) : State :=
  if (pool.buf pool.fill).off = 0 then s
  else
    let checked := shortCheck pool s
    if (checked.buf checked.fill).err = 0 then publishFrame checked s else dropFrame checked s

/-- PACKET(p) of R110 while running with `pool`. -/
def packetStep (p : Packet) (pool : Pool) (s : State) : Host.Outcome State Fault Refusal :=
  if p.err then .next s.countIsoc
  else
    match p.payload with
    | [] => .next s
    | first :: _ =>
      let pool' := if p.payload.length = 8 then pool.setOdd pool.fill (first.getLsbD 6) else pool
      if headerLength first < p.payload.length then
        appendData pool' (p.payload.drop (headerLength first)) (s.setPool pool')
      else if p.payload.length = headerLength first then .next (boundary pool' (s.setPool pool'))
      else .next (s.setPool pool')

/-- XFER (R110), the next step of it: while stopped the record is discarded (R111); a failed transfer is counted and
sets the stream error (R112); otherwise the first packet is processed and the others remain (R113). -/
def execXfer (xferFail : Bool) (packets : List Packet) (s : State) : Host.Outcome State Fault Refusal :=
  match s.run with
  | .stopped => .next (s.setRest [])
  | .running pool =>
    if xferFail then .next (s.setRest []).countIsoc.setStreamError
    else
      match packets with
      | [] => .next (s.setRest [])
      | p :: rest => packetStep p pool (s.setRest rest)

end Sys2Proof.Machine
end

