-- ==== Sys2Proof/Machine/PoolCommands.lean ====
section
/-!
DEFINITION. PUBLISH, ACQUIRE_READ and RELEASE_READ (spec/42_pool.md).
-/
namespace Sys2Proof.Machine

/-- PUBLISH (R140) of the Fill buffer, as the micro-operation alone: the roles only; its caller counts a displaced
frame (R141, R123). While stopped there is no Fill buffer (log 9). -/
def execPublish (s : State) : Host.Outcome State Fault Refusal :=
  match s.run with
  | .stopped => .refused .publishWithoutPool
  | .running pool => .next (s.afterPublish (pool.publish pool.fill))

/-- ACQUIRE_READ (R144). -/
def execAcquireRead (s : State) : Host.Outcome State Fault Refusal :=
  unlessBusy 0x40 s <|
    match s.run with
    | .stopped => answer s 0x40 .badState 0
    | .running pool =>
      if s.fatal then answer s 0x40 .fatal 0
      else if pool.read.isSome then answer s 0x40 .readHeld 0
      else
        match pool.tryAcquire with
        | (_, none) => answer s 0x40 .none 0
        | (pool', some b) => answer (s.setPool pool') 0x40 .ok (BitVec.ofNat 32 b)

/-- RELEASE_READ (R145). -/
def execReleaseRead (s : State) : Host.Outcome State Fault Refusal :=
  unlessBusy 0x41 s <|
    match s.run with
    | .stopped => answer s 0x41 .badState 0
    | .running pool =>
      if s.fatal then answer s 0x41 .fatal 0
      else
        match pool.read with
        | none => answer s 0x41 .noRead 0
        | some b => answer (s.setPool (pool.release b)) 0x41 .ok (BitVec.ofNat 32 b)

end Sys2Proof.Machine
end

