-- ==== Sys2Proof/Machine/Dispatch.lean ====
section
/-!
DEFINITION. One arm per instruction of spec/opcode_table.json.
-/
namespace Sys2Proof.Machine

def exec (i : Instr) (s : State) : Host.Outcome State Fault Refusal :=
  match i with
  | .cfgMode res fmt hflip vflip => Sys2Proof.Machine.execCfgMode res fmt hflip vflip s
  | .cfgBright bright => Sys2Proof.Machine.execCfgBright bright s
  | .cfgView viewX viewY => Sys2Proof.Machine.execCfgView viewX viewY s
  | .startCapture => Sys2Proof.Machine.execStartCapture s
  | .stopCapture => Sys2Proof.Machine.execStopCapture s
  | .pullFrame slot => Sys2Proof.Machine.execPullFrame slot s
  | .pollReady => Sys2Proof.Machine.execPollReady s
  | .cancelPull => Sys2Proof.Machine.execCancelPull s
  | .readReg n => Sys2Proof.Machine.execReadReg n s
  | .acquireRead => Sys2Proof.Machine.execAcquireRead s
  | .releaseRead => Sys2Proof.Machine.execReleaseRead s
  | .convert slot => Sys2Proof.Machine.execConvert slot s
  | .brighten slot => Sys2Proof.Machine.execBrighten slot s
  | .xfer xferFail packets => Sys2Proof.Machine.execXfer xferFail packets s
  | .publish => Sys2Proof.Machine.execPublish s

end Sys2Proof.Machine
end

