-- ==== Sys2Proof/Machine/Agents.lean ====
section
/-!
DEFINITION. The steps of the two agents (spec/00_scope.md R15) and the choice between them (spec/45_control.md R227,
spec/60_exceptions.md R266).
-/
namespace Sys2Proof.Machine

/-- TAKE (R215): the first word of the command port; one that spells no command is answered ILLEGAL (R82, R98). -/
def takeCommand (s : State) : Host.Outcome State Fault Refusal :=
  match s.cmdPort with
  | [] => .next s
  | w :: ws =>
    match decodeCommand w with
    | .ok i => exec i (s.setCmdPort ws)
    | .error _ => answer (s.setCmdPort ws) (BitVec.ofNat 8 (bits w 31 24)) .illegal 0

/-- A PRODUCER step (R113): the next packet of the record in progress, else of the first record of the ingest port. A
malformed record is refused (R94). -/
def producerStep (s : State) : Host.Outcome State Fault Refusal :=
  match s.xferRest with
  | p :: rest => exec (.xfer false (p :: rest)) s
  | [] =>
    match s.ingestPort with
    | [] => .next s
    | w :: ws =>
      match decodeRecord (w :: ws) with
      | .ok (i, after) => exec i (s.setIngestPort after)
      | .error e => .refused (.malformedRecord e)

/-- A move is enabled (R15, R225, R226). -/
def State.enabled (s : State) : Move → Bool
  | .produce => !s.xferRest.isEmpty || !s.ingestPort.isEmpty
  | .command => !s.cmdPort.isEmpty
  | .pull => s.pullEnabled

/-- The enabled moves. -/
def State.enabledMoves (s : State) : List Move :=
  [Move.pull, Move.command, Move.produce].filter s.enabled

/-- The first entry of a schedule that is enabled, and the entries after it (log 3). -/
def firstEnabled (s : State) : List Move → Option (Move × List Move)
  | [] => none
  | m :: ms => if s.enabled m then some (m, ms) else firstEnabled s ms

/-- A round of free choices: any moves in any order, then each move that is not among them. Every move stands in every
round, so no enabled agent is passed over for ever (R299; log 3). -/
def fairRound (ms : List Move) : List Move :=
  ms ++ [Move.pull, Move.command, Move.produce].filter fun m => !ms.contains m

/-- The next move, and the state with the schedule used up to it (log 3): the schedule's first enabled entry; without
one, the one enabled move, or, among several, the first enabled entry of a new round, whose rest is the schedule then.
None when no agent can step (R295). -/
def State.chooseMove (s : State) : Option (Move × State) :=
  match s.enabledMoves with
  | [] => none
  | m :: ms =>
    match firstEnabled s s.schedule with
    | some (m', rest) => some (m', s.setSchedule rest)
    | none =>
      match ms with
      | [] => some (m, s.setSchedule [])
      | _ :: _ =>
        (firstEnabled s (fairRound (Config.freeRound s.tick))).map fun r => (r.1, (s.setSchedule r.2).nextTick)

/-- The move the next step makes; none when no agent can step. -/
def State.nextMove (s : State) : Option Move :=
  s.chooseMove.map Prod.fst

/-- The step of a move. -/
def runMove (m : Move) (s : State) : Host.Outcome State Fault Refusal :=
  match m with
  | .produce => producerStep s
  | .command => takeCommand s
  | .pull => pullStep s

/-- One step of the block (R14): the chosen agent's. When no agent can step the state stays as it is, until the HOST
acts (R295, log 4). -/
def blockStep (s : State) : Host.Outcome State Fault Refusal :=
  match s.chooseMove with
  | none => .next s
  | some (m, s') => runMove m s'

/-- The state with the words of an instruction placed where the next step takes them: an ingest record at the head of
the ingest port, any other word at the head of the command port (log 9, log 14). -/
def State.placeWord (s : State) (w : Nat) : State :=
  match spaceOfWord (BitVec.ofNat 32 w) with
  | .ingest =>
    ((s.setIngestPort (tableWords w ++ s.ingestPort)).setRest []).setSchedule (Move.produce :: s.schedule)
  | .command => (s.setCmdPort (tableWords w ++ s.cmdPort)).setSchedule (Move.command :: s.schedule)
  | .internal => (s.setCmdPort (tableWords w ++ s.cmdPort)).setSchedule (Move.command :: s.schedule)

end Sys2Proof.Machine
end

