-- ==== Sys2Proof/Machine/Step.lean ====
section
/-!
DEFINITION. The step of the machine, and the placing of an instruction where the next step takes it.
-/
namespace Sys2Proof.Machine

/-- One step (R14). -/
def step (s : State) : Host.Outcome State Fault Refusal :=
  blockStep s

/-- The state in which the next step takes the instruction whose bits are `w` (log 14). Every row of the table has 32
bits. -/
def State.withFetchWord (s : State) (_nbits w : Nat) : State :=
  s.placeWord w

end Sys2Proof.Machine
end

