-- ==== Sys2Proof/Machine/Environment.lean ====
section
/-!
DEFINITION. The outside of the block: the creation of an instance (spec/70_reset_and_hazards.md R290, R293), what the
HOST does at the ports (spec/45_control.md R234) and what it reads from output memory (spec/20_memory.md R69, R77).
These are no steps of the block: they happen between its steps.
-/
namespace Sys2Proof.Machine

/-- Power-on with a parameter set (R290, R293 step 1); a set that breaks R8 is refused (R9). -/
def create (p : ParamSet) : Host.Outcome State Fault Refusal :=
  match h : paramError p with
  | some e => .refused (.badParameters e)
  | none => .next (State.powerOn ⟨p, by simp [paramsOk, h]⟩)

/-- What the HOST does at the ports (R234). -/
inductive HostAction where
  | sendCommand (w : Word)
  | sendRecord (words : List Word)
  | takeResponse
  deriving DecidableEq, Repr

/-- The state after a HOST action: words join the end of their port, responses leave oldest first (R95). -/
def hostAct (s : State) : HostAction → State
  | .sendCommand w => s.setCmdPort (s.cmdPort ++ [w])
  | .sendRecord words => s.setIngestPort (s.ingestPort ++ words)
  | .takeResponse => { s with responses := s.responses.tail }

/-- What the HOST does between two steps, in order. -/
def hostActs (s : State) (actions : List HostAction) : State :=
  actions.foldl hostAct s

/-- What a HOST read of an output byte gives. -/
inductive HostRead where
  /-- The byte that was written last. -/
  | value (v : Byte)
  /-- The read races with a pending write of the slot: any value (R77). -/
  | race
  /-- Nothing has written the byte: the observation is a fault of the HOST's (R43, R269). -/
  | noValue
  /-- The address is outside output memory (R62). No value: DESIGN CHOICE (log 18). -/
  | outside
  deriving DecidableEq, Repr

/-- An instruction writes output slot `slot` (R35). -/
def writesSlot (slot : Nat) : Instr → Bool
  | .cfgMode _ _ _ _ => false
  | .cfgBright _ => false
  | .cfgView _ _ => false
  | .startCapture => false
  | .stopCapture => false
  | .pullFrame n => decide (n.toNat = slot)
  | .pollReady => false
  | .cancelPull => false
  | .readReg _ => false
  | .acquireRead => false
  | .releaseRead => false
  | .convert n => decide (n.toNat = slot)
  | .brighten n => decide (n.toNat = slot)
  | .xfer _ _ => false
  | .publish => false

/-- A command word still on the port will write output slot `slot`. -/
def wordWritesSlot (slot : Nat) (w : Word) : Bool :=
  match decodeCommand w with
  | .ok i => writesSlot slot i
  | .error _ => false

/-- A write of slot `slot` is pending (R77): a pull into it, or a command issued and not yet answered. -/
def State.slotPending (s : State) (slot : Nat) : Bool :=
  (match s.pull with
    | .noPull => false
    | .wait n => decide (n.toNat = slot)
    | .convert n => decide (n.toNat = slot)) || s.cmdPort.any (wordWritesSlot slot)

/-- A HOST read of output byte `a` (R43, R62, R77). -/
def State.hostRead (s : State) (a : Nat) : HostRead :=
  if a < s.outSize then
    if s.slotPending (a / s.slotBytes) then .race
    else
      match s.outRead a with
      | some v => .value v
      | none => .noValue
  else .outside

/-- A HOST read at an address of its own map, where output memory sits at OUT_BASE (R69). -/
def State.hostReadAt (s : State) (addr : Nat) : HostRead :=
  if s.params.val.outBase ≤ addr then s.hostRead (addr - s.params.val.outBase) else .outside

/-- The values a HOST read admits: one, any (R77), or none (R43: never given a value). -/
def HostRead.admits (r : HostRead) (v : Byte) : Bool :=
  match r with
  | .value u => decide (u = v)
  | .race => true
  | .noValue => false
  | .outside => false

end Sys2Proof.Machine
end

