-- ==== Sys2Proof/Safety.lean ====
section
/-!
DEFINITION. What claims about runs are stated in terms of: the invariant of the block, how a run ends
(spec/70_reset_and_hazards.md R295), runs and their fairness (spec/70_reset_and_hazards.md R299), and repeated publishing (spec/42_pool.md R148).
-/
namespace Sys2Proof.Machine

/-- Every buffer id stands exactly once in the four roles (R32). -/
def State.RolesPartition (s : State) : Prop :=
  ∀ pool, s.run = .running pool → pool.ids.Perm (List.range s.poolSize)

/-- Both memories are in canonical form. -/
def State.MemoryCanonical (s : State) : Prop :=
  Mem.wf s.raw = true ∧ Mem.wf s.out = true

/-- What holds of the pool while running: the roles (R32), the per-buffer fields (R33), every byte below a fill offset
holds a value (R120), every Full or Read frame is complete (R126), and the view fits (R219). -/
structure State.PoolInv (s : State) (pool : Pool) : Prop where
  roles : pool.ids.Perm (List.range s.poolSize)
  bufCount : pool.bufs.length = s.poolSize
  offCap : ∀ b, b < s.poolSize → (pool.buf b).off.toNat ≤ s.cap
  written : ∀ b, b < s.poolSize → ∀ a, a < (pool.buf b).off.toNat → (Mem.read s.raw (s.rawKey b a)).isSome = true
  complete : ∀ b, b ∈ pool.full ∨ pool.read = some b → s.expectedBytes ≤ (pool.buf b).off.toNat
  view : s.viewFits = true

/-- The invariant of the block: what every run from power-on keeps. -/
structure State.Inv (s : State) : Prop where
  canonical : s.MemoryCanonical
  rawRange : ∀ c, c ∈ s.raw → c.1 < s.poolSize * s.cap
  outRange : ∀ c, c ∈ s.out → c.1 < s.outSize
  notFatal : s.fatal = false
  noFault : s.faultRecord = []
  pullRuns : s.pullPending = true → s.running = true
  pullSlot : ∀ slot, s.pull = .wait slot ∨ s.pull = .convert slot → s.slotOk slot = true
  waitRead : ∀ slot, s.pull = .wait slot → s.readRole = none
  convertRead : ∀ slot, s.pull = .convert slot → s.readRole.isSome = true
  pool : ∀ pool, s.run = .running pool → s.PoolInv pool

/-- No agent can step (R295). -/
def State.ended (s : State) : Bool :=
  s.enabledMoves.isEmpty

/-- A final state: the run has ended, no fault is recorded and no pull waits (R295). -/
def State.final (s : State) : Bool :=
  s.ended && s.faultRecord.isEmpty && !s.pullPending

/-- A stuck state: the run has ended with a pull still waiting (R269, R295). -/
def State.stuck (s : State) : Bool :=
  s.ended && s.pullPending

/-- A run without end: the HOST acts on the n-th state as `host n` says, and the block's step from there gives the
next one (R14, R234). -/
def IsRun (s : Nat → State) (host : Nat → List HostAction) : Prop :=
  ∀ n, step (hostActs (s n) (host n)) = .next (s (n + 1))

/-- Weak fairness (R299): a move that stays enabled is made. -/
def WeaklyFair (s : Nat → State) (host : Nat → List HostAction) : Prop :=
  ∀ (m : Move) (n : Nat), (∀ k, n ≤ k → (hostActs (s k) (host k)).enabled m = true) →
    ∃ k, n ≤ k ∧ (hostActs (s k) (host k)).nextMove = some m

/-- `n` publishes of the Fill buffer with no consumer, and how many frames they displaced (R148). -/
def publishTimes : Nat → Pool → Pool × Nat
  | 0, p => (p, 0)
  | n + 1, p =>
    let before := publishTimes n p
    let r := before.1.publish before.1.fill
    (r.1, if r.2 = .displaced then before.2 + 1 else before.2)

/-- The responses sent and the pull still to be answered: one for each command taken (R95). -/
def State.answers (s : State) : Nat :=
  s.responses.length + if s.pullPending then 1 else 0

end Sys2Proof.Machine
end

