-- ==== Sys2Proof/Certificates/Slice0/Obligations.lean ====
section
/-!
DEFINITION. The statements for the provers, each a proposition about the model; the docstring names the rule of spec/ it
formalises.
-/

open Sys2Proof Sys2Proof.Machine

/-! ## Encoding -/

/-- Decoding the words of a well-formed instruction, whatever follows them, gives the instruction back, for every
instruction and every operand value (R84 to R93). -/
def Obligations.DecodeOfEncode : Prop :=
  ∀ (i : Instr) (ws : List Word), i.wf = true → decodeIn i.space (encode i ++ ws) = some (i, ws)

/-- What decodes is an encoding: a word that spells a command is that command's encoding, so each word has one meaning
(R81 to R89), and the words taken for a record are exactly the encoding of the record read (R90 to R94). -/
def Obligations.EncodeOfDecoded : Prop :=
  (∀ (w : Word) (i : Instr), decodeCommand w = .ok i → i.space = .command ∧ encode i = [w]) ∧
  (∀ (ws rest : List Word) (i : Instr), decodeRecord ws = .ok (i, rest) →
    i.wf = true ∧ i.space = .ingest ∧ ws = encode i ++ rest)

/-- R101: a word matches a row of the table exactly when it spells that command, a command word that matches no row is
illegal, and the XFER row is the header of the ingest port. -/
def Obligations.WordsMatchTheirRow : Prop :=
  (∀ row ∈ commandRows, ∀ w : Word,
    (w &&& row.2.1 = row.1 ↔ ∃ i, decodeCommand w = .ok i ∧ i.opcode = row.2.2)) ∧
  (∀ w : Word, (∀ row ∈ commandRows, w &&& row.2.1 ≠ row.1) → ∃ e, decodeCommand w = .error e) ∧
  (∀ w : Word, w &&& 0xFF0000FE#32 = 0x80000000#32 ↔ ∃ ws i rest, decodeRecord (w :: ws) = .ok (i, rest))

/-- The words the spec writes out as examples decode to what they stand for (R84 to R89, R92, R97). -/
def Obligations.SpecExampleWords : Prop :=
  decodeCommand 0x010000C5 = .ok (.cfgMode 5 4 true false) ∧
  decodeCommand 0x0200FFFF = .ok (.cfgBright 65535) ∧
  decodeCommand 0x03006008 = .ok (.cfgView 8 6) ∧
  decodeCommand 0x20000001 = .ok (.pullFrame 1) ∧
  decodeCommand 0x30000005 = .ok (.readReg 5) ∧
  decodeCommand 0x40000000 = .ok .acquireRead ∧
  decodeCommand 0x81000000 = .error (.unknownOpcode 0x81) ∧
  decodeRecord [0x80000100, 0x00000004, 0x00004180] =
    .ok (.xfer false [{ err := false, payload := [0x80, 0x41, 0x00, 0x00] }], [])

/-! ## Steps -/

/-- When the scheduler lets the SEQUENCER take the first word of the command port and it decodes to an instruction,
the step is that instruction's, in the state with the word taken and the schedule entry used (R215). The schedule is
the model's own (log 3). -/
def Obligations.StepRunsCommand : Prop :=
  ∀ (s : State) (w : Word) (ws : List Word) (sched : List Move) (i : Instr),
    s.cmdPort = w :: ws → s.schedule = .command :: sched → decodeCommand w = .ok i →
    step s = exec i { s with cmdPort := ws, schedule := sched }

/-- When the scheduler lets the PRODUCER step, the step is that of the record at the head of the ingest port or, with
a record in progress, of the packets that remain (R113). The schedule is the model's own (log 3). -/
def Obligations.StepRunsRecord : Prop :=
  ∀ (s : State) (sched : List Move), s.schedule = .produce :: sched →
    (∀ (i : Instr) (rest : List Word), s.xferRest = [] → decodeRecord s.ingestPort = .ok (i, rest) →
      step s = exec i { s with ingestPort := rest, schedule := sched }) ∧
    (∀ (p : Packet) (ps : List Packet), s.xferRest = p :: ps →
      step s = exec (.xfer false (p :: ps)) { s with schedule := sched })

/-- A word placed where the next step takes it is decoded as the table decoder decodes it and run: a command in the
very state, a record with no other record in progress (logs 3, 14: the placing is the model's). -/
def Obligations.StepRunsPlacedWord : Prop :=
  ∀ (s : State) (w : Nat) (i : Instr), decodeTableWord 32 w = some i →
    (i.space = .command → step (s.withFetchWord 32 w) = exec i s) ∧
    (i.space = .ingest → step (s.withFetchWord 32 w) = exec i { s with xferRest := [] })

/-- R215, R82, R98: what taking a command word does, in the order of the checks. A word that matches no row of the table
is answered `(opcode, ILLEGAL, 0)`, with a pull pending or not; then, with a pull pending, every command but
STOP_CAPTURE, CANCEL_PULL, POLL_READY and READ_REG is answered `(opcode, BUSY, 0)`; neither changes anything but the port
and the response channel; otherwise the command's own meaning runs. -/
def Obligations.TakeChecksInOrder : Prop :=
  ∀ (s : State) (w : Word) (ws : List Word), s.cmdPort = w :: ws →
    ((∀ row ∈ commandRows, w &&& row.2.1 ≠ row.1) →
      takeCommand s = .next { s with
        cmdPort := ws
        responses := s.responses ++ [{ op := BitVec.ofNat 8 (bits w 31 24), status := .illegal, value := 0 }] }) ∧
    (∀ i, decodeCommand w = .ok i → s.pull ≠ .noPull →
      i ≠ .stopCapture → i ≠ .cancelPull → i ≠ .pollReady → (∀ n, i ≠ .readReg n) →
      takeCommand s = .next { s with
        cmdPort := ws
        responses := s.responses ++ [{ op := BitVec.ofNat 8 (bits w 31 24), status := .busy, value := 0 }] }) ∧
    (∀ i, decodeCommand w = .ok i → takeCommand s = exec i { s with cmdPort := ws })

/-- R227, R266: whichever move is enabled, some schedule lets it run next, and every step of the block is an enabled
move's or, when no agent can step, leaves the state as it is. The schedule and the idle step are the model's (logs 3,
4). -/
def Obligations.EveryInterleavingIsLegal : Prop :=
  (∀ (s : State) (m : Move) (sched : List Move), s.enabled m = true →
    step { s with schedule := m :: sched } = runMove m { s with schedule := sched }) ∧
  (∀ s : State, (s.enabledMoves = [] ∧ step s = .next s) ∨
    ∃ m sched n, s.enabled m = true ∧ step s = runMove m { s with schedule := sched, tick := n })

/-! ## Reset -/

/-- R42, R290: what power-on reset leaves, whatever the parameters. -/
def Obligations.PowerOnValues : Prop :=
  ∀ p : Params,
    (State.powerOn p).params = p ∧
    (State.powerOn p).run = .stopped ∧
    (State.powerOn p).mode = { res := 0, fmt := .rgb24, hflip := false, vflip := false } ∧
    (State.powerOn p).bright = 32767 ∧
    (State.powerOn p).viewX = 0 ∧ (State.powerOn p).viewY = 0 ∧
    (State.powerOn p).isocErrors = 0 ∧ (State.powerOn p).dropped = 0 ∧ (State.powerOn p).dumped = 0 ∧
    (State.powerOn p).streamError = false ∧ (State.powerOn p).fatal = false ∧
    (State.powerOn p).pull = .noPull ∧
    (∀ a, (State.powerOn p).outRead a = none) ∧
    (∀ b a, Mem.read (State.powerOn p).raw ((State.powerOn p).rawKey b a) = none) ∧
    (State.powerOn p).responses = [] ∧ (State.powerOn p).ingestPort = [] ∧
    (State.powerOn p).faultRecord = [] ∧ (State.powerOn p).irqReady = false

/-- R9: power-on with a parameter set gives a machine exactly when the set meets every constraint of R8, and is refused
otherwise; a pool of size 1 is refused. -/
def Obligations.BadParametersRefused : Prop :=
  (∀ p : ParamSet, (∃ s, create p = .next s) ↔
    (2 ≤ p.poolSize ∧ p.poolSize ≤ 15) ∧ (2 ≤ p.nslots ∧ p.nslots ≤ 256) ∧ 1 ≤ p.slotBytes ∧
    (∀ e ∈ p.resTable.toList, 1 ≤ e.width ∧ 1 ≤ e.height ∧ e.factor ∈ [1, 2, 3, 4, 5, 8] ∧
      e.width * e.height ≤ p.cap) ∧
    p.cap < 2 ^ 32 ∧
    (∀ t ∈ [p.bayerTaps.p00, p.bayerTaps.p01, p.bayerTaps.p10, p.bayerTaps.p11],
      [t.r, t.g, t.b].count .own = 1)) ∧
  (∀ p : ParamSet, (∃ s, create p = .next s) ∨ ∃ e, create p = .refused (.badParameters e)) ∧
  (∀ p : ParamSet, p.poolSize = 1 → create p = .refused (.badParameters .poolSize))

/-- The defaults of R8: POOL_SIZE 3; CAP the largest width * height; NSLOTS 2; SLOT_BYTES four times the pixels of the
largest view an entry and a VIEW register can have (log 19: the model's choice of the views compared); YUV_COLS; the four
phases of BAYER_TAPS (R167). RES_TABLE, YUV_TAB and OUT_BASE are the instance's own, and the reset instance takes the
defaults (log 2). -/
def Obligations.DefaultParameters : Prop :=
  (∀ o : OpenParams,
    (withDefaults o).resTable = o.resTable ∧ (withDefaults o).yuvTab = o.yuvTab ∧
    (withDefaults o).outBase = o.outBase ∧
    (withDefaults o).bayerTaps =
      { p00 := { r := .own, g := .h2, b := .x4 }, p01 := { r := .h2, g := .own, b := .v2 },
        p10 := { r := .v2, g := .own, b := .h2 }, p11 := { r := .x4, g := .h2, b := .own } } ∧
    (withDefaults o).poolSize = 3 ∧ (withDefaults o).nslots = 2 ∧
    (∀ e ∈ o.resTable.toList, e.width * e.height ≤ (withDefaults o).cap) ∧
    (∃ e ∈ o.resTable.toList, (withDefaults o).cap = e.width * e.height) ∧
    (let pixels (e : ResEntry) (viewX viewY : BitVec 12) : Nat :=
      (if viewX = 0 then e.width / e.factor else viewX.toNat) * (if viewY = 0 then e.height / e.factor else viewY.toNat)
     (∀ e ∈ o.resTable.toList, ∀ viewX viewY, 4 * pixels e viewX viewY ≤ (withDefaults o).slotBytes) ∧
     (∃ e ∈ o.resTable.toList, ∃ viewX viewY, (withDefaults o).slotBytes = 4 * pixels e viewX viewY)) ∧
    (let c := (withDefaults o).yuvCols
     [c.yr, c.yg, c.yb, c.ur, c.ug, c.ub, c.vr, c.vg, c.vb] = [0, 1, 2, 3, 4, 5, 5, 6, 7])) ∧
  ∃ o : OpenParams, State.reset.params.val = withDefaults o

/-- The invariant holds at power-on, whatever the parameters (derived from R42). -/
def Obligations.PowerOnMeetsInv : Prop :=
  ∀ p : Params, (State.powerOn p).Inv

/-! ## Configuration -/

/-- R216: CFG_MODE. -/
def Obligations.CfgModeWritesMode : Prop :=
  ∀ (res : BitVec 4) (fmt : BitVec 3) (hflip vflip : Bool) (s : State),
    encode (.cfgMode res fmt hflip vflip) =
      [BitVec.ofNat 32 (0x01000000 + flagBit vflip * 256 + flagBit hflip * 128 + fmt.toNat * 16 + res.toNat)] ∧
    (s.pull = .noPull → s.run = .stopped → ∀ (r : Fin 10) (f : Format), res.toNat = r.val → fmt.toNat = f.code →
      exec (.cfgMode res fmt hflip vflip) s = .next { s with
        mode := { res := r, fmt := f, hflip := hflip, vflip := vflip }
        responses := s.responses ++ [{ op := 0x01, status := .ok, value := 0 }] }) ∧
    (s.pull = .noPull → s.run = .stopped → 10 ≤ res.toNat ∨ 6 ≤ fmt.toNat →
      exec (.cfgMode res fmt hflip vflip) s = .next { s with
        responses := s.responses ++ [{ op := 0x01, status := .badConfig, value := 0 }] }) ∧
    (s.pull = .noPull → s.running = true →
      exec (.cfgMode res fmt hflip vflip) s = .next { s with
        responses := s.responses ++ [{ op := 0x01, status := .badState, value := 0 }] })

/-- R217: CFG_BRIGHT. -/
def Obligations.CfgBrightWritesBright : Prop :=
  ∀ (bright : BitVec 16) (s : State),
    encode (.cfgBright bright) = [BitVec.ofNat 32 (0x02000000 + bright.toNat)] ∧
    (s.pull = .noPull → s.run = .stopped →
      exec (.cfgBright bright) s = .next { s with
        bright := bright, responses := s.responses ++ [{ op := 0x02, status := .ok, value := 0 }] }) ∧
    (s.pull = .noPull → s.running = true →
      exec (.cfgBright bright) s = .next { s with
        responses := s.responses ++ [{ op := 0x02, status := .badState, value := 0 }] })

/-- R218: CFG_VIEW. -/
def Obligations.CfgViewWritesView : Prop :=
  ∀ (viewX viewY : BitVec 12) (s : State),
    encode (.cfgView viewX viewY) = [BitVec.ofNat 32 (0x03000000 + viewY.toNat * 4096 + viewX.toNat)] ∧
    (s.pull = .noPull → s.run = .stopped →
      exec (.cfgView viewX viewY) s = .next { s with
        viewX := viewX, viewY := viewY
        responses := s.responses ++ [{ op := 0x03, status := .ok, value := 0 }] }) ∧
    (s.pull = .noPull → s.running = true →
      exec (.cfgView viewX viewY) s = .next { s with
        responses := s.responses ++ [{ op := 0x03, status := .badState, value := 0 }] })

/-! ## Start and stop -/

/-- R219: START_CAPTURE. Memory, MODE, BRIGHT, VIEW and everything else not named keep their values. -/
def Obligations.StartCaptureSetsUpStream : Prop :=
  encode .startCapture = [0x10000000] ∧
  ∀ s : State, s.pull = .noPull →
    (s.run = .stopped → s.nwidth ≤ s.vx → s.nheight ≤ s.vy → s.outBytes ≤ s.slotBytes →
      exec .startCapture s = .next { s with
        run := .running { fill := 0, read := none, empty := List.range' 1 (s.poolSize - 1), full := [],
                          bufs := List.replicate s.poolSize { off := 0, err := 0, odd := false } }
        isocErrors := 0, dropped := 0, dumped := 0, streamError := false, fatal := false
        responses := s.responses ++ [{ op := 0x10, status := .ok, value := 0 }] }) ∧
    (s.run = .stopped → s.vx < s.nwidth ∨ s.vy < s.nheight ∨ s.slotBytes < s.outBytes →
      exec .startCapture s = .next { s with
        responses := s.responses ++ [{ op := 0x10, status := .badConfig, value := 0 }] }) ∧
    (s.running = true →
      exec .startCapture s = .next { s with
        responses := s.responses ++ [{ op := 0x10, status := .badState, value := 0 }] })

/-- R220, R221: STOP_CAPTURE in every state; a pending pull, in either phase, is answered first. -/
def Obligations.StopCaptureReleasesPool : Prop :=
  encode .stopCapture = [0x11000000] ∧
  ∀ s : State,
    (s.pull = .noPull → exec .stopCapture s = .next { s with
      run := .stopped, responses := s.responses ++ [{ op := 0x11, status := .ok, value := 0 }] }) ∧
    (s.pull ≠ .noPull → exec .stopCapture s = .next { s with
      run := .stopped, pull := .noPull
      responses := s.responses ++ [{ op := 0x20, status := .terminated, value := 0 },
                                   { op := 0x11, status := .ok, value := 0 }] })

/-! ## Pulls, poll, cancel, registers -/

/-- R224: the issue step of PULL_FRAME, with its checks in the order of R264. -/
def Obligations.PullFrameIssueWaits : Prop :=
  ∀ (slot : BitVec 8) (s : State), s.pull = .noPull →
    encode (.pullFrame slot) = [BitVec.ofNat 32 (0x20000000 + slot.toNat)] ∧
    (∀ pool, s.run = .running pool → slot.toNat < s.nslots → s.fatal = false → pool.read = none →
      exec (.pullFrame slot) s = .next { s with pull := .wait slot }) ∧
    (s.run = .stopped → exec (.pullFrame slot) s = .next { s with
      responses := s.responses ++ [{ op := 0x20, status := .terminated, value := 0 }] }) ∧
    (s.running = true → s.nslots ≤ slot.toNat → exec (.pullFrame slot) s = .next { s with
      responses := s.responses ++ [{ op := 0x20, status := .badSlot, value := 0 }] }) ∧
    (s.running = true → slot.toNat < s.nslots → s.fatal = true → exec (.pullFrame slot) s = .next { s with
      responses := s.responses ++ [{ op := 0x20, status := .fatal, value := 0 }] }) ∧
    (∀ pool, s.run = .running pool → slot.toNat < s.nslots → s.fatal = false → pool.read ≠ none →
      exec (.pullFrame slot) s = .next { s with
        responses := s.responses ++ [{ op := 0x20, status := .readHeld, value := 0 }] })

/-- R225: when the WAIT step of a running pull is enabled and what it does: FATAL, then STREAM_ERROR, then the head of
Full becomes the Read buffer. -/
def Obligations.WaitStepAcquiresOrReports : Prop :=
  ∀ (slot : BitVec 8) (s : State) (pool : Pool), s.pull = .wait slot → s.run = .running pool →
    (s.enabled .pull = true ↔ s.fatal = true ∨ s.streamError = true ∨ pool.full ≠ []) ∧
    (s.fatal = true → pullStep s = .next { s with
      pull := .noPull, responses := s.responses ++ [{ op := 0x20, status := .fatal, value := 0 }] }) ∧
    (s.fatal = false → s.streamError = true → pullStep s = .next { s with
      pull := .noPull, responses := s.responses ++ [{ op := 0x20, status := .streamError, value := 0 }] }) ∧
    (∀ b rest, s.fatal = false → s.streamError = false → pool.read = none → pool.full = b :: rest →
      pullStep s = .next { s with
        run := .running { pool with read := some b, full := rest }, pull := .convert slot })

/-- R226: the CONVERT step of a pull. Every view pixel's bytes, corrected where affected, stand in the slot; every other
output byte is as before; the Read buffer goes to the tail of Empty; the pull is answered OK with `out_bytes`, or, for a
count of 2^32 or more, which no rule states, with log 8's free value. -/
def Obligations.PullConvertsCorrectsReleases : Prop :=
  ∀ (slot : BitVec 8) (s : State), s.Inv → s.pull = .convert slot →
    ∃ pool b t, s.run = .running pool ∧ pool.read = some b ∧ pullStep s = .next t ∧
      t = { s with
        out := t.out
        run := .running { pool with empty := pool.empty ++ [b], read := none }
        pull := .noPull
        responses := s.responses ++ [{ op := 0x20, status := .ok, value := countValue s.outBytes }] } ∧
      (s.outBytes < 2 ^ 32 → countValue s.outBytes = BitVec.ofNat 32 s.outBytes) ∧
      (∀ x y, x < s.vx → y < s.vy → ∃ bytes, s.viewPixel b x y = .ok bytes ∧ bytes.length = s.bpp ∧
        ∀ k v, bytes[k]? = some v →
          t.outRead (s.pixelAddr slot x y + k) =
            some (if s.mode.fmt.affected ((y * s.vx + x) * s.bpp + k) then brightByte s.bright v else v)) ∧
      (∀ a, a < s.slotBase slot ∨ s.slotBase slot + s.outBytes ≤ a → t.outRead a = s.outRead a)

/-- R229, R38, R263: POLL_READY answers 1 while running with a Full buffer or the stream error, else 0, and changes
nothing else; accepted with a pull pending or not. The line IRQ_READY is at the same level in each case. -/
def Obligations.PollReadyAnswersReady : Prop :=
  encode .pollReady = [0x21000000] ∧
  ∀ s : State,
    (∀ pool, s.run = .running pool → pool.full ≠ [] ∨ s.streamError = true →
      s.irqReady = true ∧
      exec .pollReady s = .next { s with
        responses := s.responses ++ [{ op := 0x21, status := .ok, value := 1 }] }) ∧
    (∀ pool, s.run = .running pool → pool.full = [] → s.streamError = false →
      s.irqReady = false ∧
      exec .pollReady s = .next { s with
        responses := s.responses ++ [{ op := 0x21, status := .ok, value := 0 }] }) ∧
    (s.run = .stopped →
      s.irqReady = false ∧
      exec .pollReady s = .next { s with
        responses := s.responses ++ [{ op := 0x21, status := .ok, value := 0 }] })

/-- R230: CANCEL_PULL ends a waiting pull with RETRY and does nothing to a converting one. -/
def Obligations.CancelPullEndsWait : Prop :=
  encode .cancelPull = [0x22000000] ∧
  ∀ s : State,
    (∀ slot, s.pull = .wait slot → exec .cancelPull s = .next { s with
      pull := .noPull
      responses := s.responses ++ [{ op := 0x20, status := .retry, value := 0 },
                                   { op := 0x22, status := .ok, value := 1 }] }) ∧
    ((∀ slot, s.pull ≠ .wait slot) → exec .cancelPull s = .next { s with
      responses := s.responses ++ [{ op := 0x22, status := .ok, value := 0 }] })

/-- R232 and the map of R39: READ_REG answers the register's value, or ILLEGAL for 10..255, and changes nothing else. -/
def Obligations.ReadRegAnswersRegister : Prop :=
  (∀ n : BitVec 8, encode (.readReg n) = [BitVec.ofNat 32 (0x30000000 + n.toNat)]) ∧
  ∀ s : State,
    (∀ (n : BitVec 8) (v : Word),
      (n, v) ∈ [((0 : BitVec 8), s.modeReg), (1, s.brightReg), (2, s.viewReg), (3, s.isocErrors), (4, s.dropped),
        (5, s.dumped), (6, s.statusReg), (7, s.poolReg), (8, s.fillOffsetReg), (9, s.fillErrorsReg)] →
      exec (.readReg n) s = .next { s with
        responses := s.responses ++ [{ op := 0x30, status := .ok, value := v }] }) ∧
    (∀ n : BitVec 8, 10 ≤ n.toNat → exec (.readReg n) s = .next { s with
      responses := s.responses ++ [{ op := 0x30, status := .illegal, value := 0 }] })

/-- The fields of MODE, BRIGHT, VIEW (R23 to R25), STATUS (R40) and, under the pool's invariant, POOL (R41), bit by bit;
reserved bits read 0. -/
def Obligations.RegisterFields : Prop :=
  ∀ s : State,
    (bits s.modeReg 3 0 = s.mode.res.val ∧ bits s.modeReg 6 4 = s.mode.fmt.code ∧
      flagOf (bits s.modeReg 7 7) = s.mode.hflip ∧ flagOf (bits s.modeReg 8 8) = s.mode.vflip ∧
      bits s.modeReg 31 9 = 0) ∧
    (bits s.brightReg 15 0 = s.bright.toNat ∧ bits s.brightReg 31 16 = 0) ∧
    (bits s.viewReg 11 0 = s.viewX.toNat ∧ bits s.viewReg 23 12 = s.viewY.toNat ∧ bits s.viewReg 31 24 = 0) ∧
    (flagOf (bits s.statusReg 0 0) = s.running ∧ flagOf (bits s.statusReg 1 1) = s.streamError ∧
      flagOf (bits s.statusReg 2 2) = s.fatal ∧ flagOf (bits s.statusReg 3 3) = s.pullPending ∧
      flagOf (bits s.statusReg 4 4) = s.pullConverting ∧ flagOf (bits s.statusReg 5 5) = s.ready ∧
      flagOf (bits s.statusReg 6 6) = s.readRole.isSome ∧ bits s.statusReg 31 7 = 0) ∧
    (s.run = .stopped → s.poolReg = 0 ∧ s.fillOffsetReg = 0 ∧ s.fillErrorsReg = 0) ∧
    (∀ pool, s.run = .running pool → pool.ids.Perm (List.range s.poolSize) →
      bits s.poolReg 3 0 = pool.fill ∧ bits s.poolReg 7 4 = pool.read.getD 0 ∧
      flagOf (bits s.poolReg 8 8) = pool.read.isSome ∧ flagOf (bits s.poolReg 9 9) = (pool.buf pool.fill).odd ∧
      (∀ r, pool.read = some r → flagOf (bits s.poolReg 10 10) = (pool.buf r).odd) ∧
      (pool.read = none → bits s.poolReg 10 10 = 0) ∧ bits s.poolReg 11 11 = 0 ∧
      bits s.poolReg 15 12 = pool.empty.length ∧ bits s.poolReg 19 16 = pool.full.length ∧
      bits s.poolReg 31 20 = 0 ∧
      s.fillOffsetReg = (pool.buf pool.fill).off ∧ s.fillErrorsReg = (pool.buf pool.fill).err)

/-! ## Pool commands -/

/-- R143, R144: ACQUIRE_READ takes the head of Full, or answers BAD_STATE, FATAL, READ_HELD, NONE, in that order. -/
def Obligations.AcquireReadTakesOldestFrame : Prop :=
  encode .acquireRead = [0x40000000] ∧
  ∀ s : State, s.pull = .noPull →
    (∀ pool b rest, s.run = .running pool → s.fatal = false → pool.read = none → pool.full = b :: rest →
      exec .acquireRead s = .next { s with
        run := .running { pool with read := some b, full := rest }
        responses := s.responses ++ [{ op := 0x40, status := .ok, value := BitVec.ofNat 32 b }] }) ∧
    (s.run = .stopped → exec .acquireRead s = .next { s with
      responses := s.responses ++ [{ op := 0x40, status := .badState, value := 0 }] }) ∧
    (s.running = true → s.fatal = true → exec .acquireRead s = .next { s with
      responses := s.responses ++ [{ op := 0x40, status := .fatal, value := 0 }] }) ∧
    (∀ pool, s.run = .running pool → s.fatal = false → pool.read ≠ none → exec .acquireRead s = .next { s with
      responses := s.responses ++ [{ op := 0x40, status := .readHeld, value := 0 }] }) ∧
    (∀ pool, s.run = .running pool → s.fatal = false → pool.read = none → pool.full = [] →
      exec .acquireRead s = .next { s with
        responses := s.responses ++ [{ op := 0x40, status := .none, value := 0 }] })

/-- R145: RELEASE_READ puts the Read buffer at the tail of Empty, or answers BAD_STATE, FATAL, NO_READ, in that
order. -/
def Obligations.ReleaseReadReturnsBuffer : Prop :=
  encode .releaseRead = [0x41000000] ∧
  ∀ s : State, s.pull = .noPull →
    (∀ pool b, s.run = .running pool → s.fatal = false → pool.read = some b →
      exec .releaseRead s = .next { s with
        run := .running { pool with read := none, empty := pool.empty ++ [b] }
        responses := s.responses ++ [{ op := 0x41, status := .ok, value := BitVec.ofNat 32 b }] }) ∧
    (s.run = .stopped → exec .releaseRead s = .next { s with
      responses := s.responses ++ [{ op := 0x41, status := .badState, value := 0 }] }) ∧
    (s.running = true → s.fatal = true → exec .releaseRead s = .next { s with
      responses := s.responses ++ [{ op := 0x41, status := .fatal, value := 0 }] }) ∧
    (∀ pool, s.run = .running pool → s.fatal = false → pool.read = none → exec .releaseRead s = .next { s with
      responses := s.responses ++ [{ op := 0x41, status := .noRead, value := 0 }] })

/-- R140: PUBLISH while running moves Fill to the tail of Full and takes the new Fill from the head of Empty, not
displaced; else from the head of Full after the append, displaced, which may be the buffer itself. After the append Full
is not empty, so no third case is left. -/
def Obligations.PublishMovesFill : Prop :=
  ∀ (s : State) (pool : Pool), s.run = .running pool →
    (∀ e rest, pool.empty = e :: rest →
      (pool.publish pool.fill).2 = .fresh ∧
      exec .publish s = .next { s with
        run := .running { pool with full := pool.full ++ [pool.fill], fill := e, empty := rest } }) ∧
    (∀ f rest, pool.empty = [] → pool.full = f :: rest →
      (pool.publish pool.fill).2 = .displaced ∧
      exec .publish s = .next { s with
        run := .running { pool with full := rest ++ [pool.fill], fill := f } }) ∧
    (pool.empty = [] → pool.full = [] →
      (pool.publish pool.fill).2 = .displaced ∧ exec .publish s = .next s)

/-! ## Conversion and brightness commands -/

/-- R160: CONVERT. With a Read buffer held, in every state that meets the invariant, every view pixel's bytes stand in
the slot, every other output byte and everything else is as before, and the answer is OK with `out_bytes` (a count of
2^32 or more: log 8); the refusals in the order of their checks change nothing else. -/
def Obligations.ConvertWritesView : Prop :=
  ∀ (slot : BitVec 8) (s : State), s.pull = .noPull →
    encode (.convert slot) = [BitVec.ofNat 32 (0x42000000 + slot.toNat)] ∧
    (∀ pool b, s.Inv → s.run = .running pool → pool.read = some b → slot.toNat < s.nslots →
      ∃ t, exec (.convert slot) s = .next t ∧
        t = { s with
          out := t.out
          responses := s.responses ++ [{ op := 0x42, status := .ok, value := countValue s.outBytes }] } ∧
        (s.outBytes < 2 ^ 32 → countValue s.outBytes = BitVec.ofNat 32 s.outBytes) ∧
        (∀ x y, x < s.vx → y < s.vy → ∃ bytes, s.viewPixel b x y = .ok bytes ∧ bytes.length = s.bpp ∧
          ∀ k v, bytes[k]? = some v → t.outRead (s.pixelAddr slot x y + k) = some v) ∧
        (∀ a, a < s.slotBase slot ∨ s.slotBase slot + s.outBytes ≤ a → t.outRead a = s.outRead a)) ∧
    (s.run = .stopped → exec (.convert slot) s = .next { s with
      responses := s.responses ++ [{ op := 0x42, status := .badState, value := 0 }] }) ∧
    (s.running = true → s.fatal = true → exec (.convert slot) s = .next { s with
      responses := s.responses ++ [{ op := 0x42, status := .fatal, value := 0 }] }) ∧
    (s.running = true → s.fatal = false → s.nslots ≤ slot.toNat → exec (.convert slot) s = .next { s with
      responses := s.responses ++ [{ op := 0x42, status := .badSlot, value := 0 }] }) ∧
    (∀ pool, s.run = .running pool → s.fatal = false → slot.toNat < s.nslots → pool.read = none →
      exec (.convert slot) s = .next { s with
        responses := s.responses ++ [{ op := 0x42, status := .noRead, value := 0 }] })

/-- R200, R201, R204, R205: BRIGHTEN. It corrects every affected byte of the slot's view region that holds a value,
leaves every other output byte and everything else as before, and answers OK with `out_bytes` (a count of 2^32 or more:
log 8's free value), whatever `fatal` and the Read buffer are; the refusals in the order of their checks change nothing
else. That a byte without value stays so is R209's own inference and log 7. -/
def Obligations.BrightenCorrectsSlot : Prop :=
  ∀ (slot : BitVec 8) (s : State), s.pull = .noPull →
    encode (.brighten slot) = [BitVec.ofNat 32 (0x43000000 + slot.toNat)] ∧
    (s.running = true → slot.toNat < s.nslots → s.outBytes ≤ s.slotBytes →
      ∃ t, exec (.brighten slot) s = .next t ∧
        t = { s with
          out := t.out
          responses := s.responses ++ [{ op := 0x43, status := .ok, value := countValue s.outBytes }] } ∧
        (s.outBytes < 2 ^ 32 → countValue s.outBytes = BitVec.ofNat 32 s.outBytes) ∧
        (∀ k, k < s.outBytes →
          ((s.mode.fmt = .uyvy → k % 2 = 1) → (s.mode.fmt = .yuyv → k % 2 = 0) →
            t.outRead (s.slotBase slot + k) = (s.outRead (s.slotBase slot + k)).map fun v => BitVec.ofNat 8
              (if 32767 ≤ s.bright.toNat then min 255 (v.toNat + (s.bright.toNat - 32767) / 256)
              else v.toNat - (32767 - s.bright.toNat) / 256)) ∧
          (s.mode.fmt = .uyvy ∧ k % 2 = 0 ∨ s.mode.fmt = .yuyv ∧ k % 2 = 1 →
            t.outRead (s.slotBase slot + k) = s.outRead (s.slotBase slot + k))) ∧
        (∀ a, a < s.slotBase slot ∨ s.slotBase slot + s.outBytes ≤ a → t.outRead a = s.outRead a)) ∧
    (s.run = .stopped → exec (.brighten slot) s = .next { s with
      responses := s.responses ++ [{ op := 0x43, status := .badState, value := 0 }] }) ∧
    (s.running = true → s.nslots ≤ slot.toNat → exec (.brighten slot) s = .next { s with
      responses := s.responses ++ [{ op := 0x43, status := .badSlot, value := 0 }] })

/-! ## Ingest -/

/-- R111, R112: while stopped a record, or the rest of one, changes nothing and the PRODUCER is done with it; while
running a whole-transfer failure counts one error, sets the sticky stream error and processes no packet; a record
without packets changes nothing. -/
def Obligations.WholeTransfers : Prop :=
  ∀ (s : State) (packets : List Packet),
    (∀ xferFail, s.run = .stopped → exec (.xfer xferFail packets) s = .next { s with xferRest := [] }) ∧
    (s.running = true → exec (.xfer true packets) s = .next { s with
      isocErrors := s.isocErrors + 1, streamError := true, xferRest := [] }) ∧
    (s.running = true → exec (.xfer false []) s = .next { s with xferRest := [] })

/-- R114, R115, and the runt class of R119: an error packet is counted and otherwise ignored; an empty packet and a runt
(shorter than its header) change nothing; in each case the rest of the record remains. -/
def Obligations.IgnoredPackets : Prop :=
  ∀ (s : State) (p : Packet) (rest : List Packet), s.running = true →
    (p.err = true → exec (.xfer false (p :: rest)) s = .next { s with
      isocErrors := s.isocErrors + 1, xferRest := rest }) ∧
    (p.err = false → p.payload = [] → exec (.xfer false (p :: rest)) s = .next { s with xferRest := rest }) ∧
    (∀ first more, p.err = false → p.payload = first :: more →
      p.payload.length < (if first.getLsbD 7 then 8 else 4) →
      exec (.xfer false (p :: rest)) s = .next { s with xferRest := rest })

/-- R116, R120: a data packet, with the parity flag of R117. Its header is 8 or 4 bytes by the top bit of its first
byte and is not copied. One that fits is appended to the Fill buffer in ascending order and the offset advances; every
other raw byte and everything else is as before. One that does not fit is not copied, and the Fill buffer's error count
grows by one, saturating. -/
def Obligations.DataPacketAppendsOrCounts : Prop :=
  ∀ (s : State) (pool : Pool) (p : Packet) (rest : List Packet) (first : Byte) (more : List Byte) (hdr : Nat),
    s.run = .running pool → pool.fill < s.poolSize → pool.bufs.length = s.poolSize →
    p.err = false → p.payload = first :: more → hdr = (if first.getLsbD 7 then 8 else 4) → hdr < p.payload.length →
    ((pool.buf pool.fill).off.toNat + (p.payload.length - hdr) ≤ s.cap →
      ∃ t, exec (.xfer false (p :: rest)) s = .next t ∧
        t = { s with
          raw := t.raw
          xferRest := rest
          run := .running (pool.setBuf pool.fill {
            off := BitVec.ofNat 32 ((pool.buf pool.fill).off.toNat + (p.payload.length - hdr))
            err := (pool.buf pool.fill).err
            odd := if p.payload.length = 8 then first.getLsbD 6 else (pool.buf pool.fill).odd }) } ∧
        (∀ k v, p.payload[hdr + k]? = some v →
          Mem.read t.raw (s.rawKey pool.fill ((pool.buf pool.fill).off.toNat + k)) = some v) ∧
        (∀ a, a < s.rawKey pool.fill (pool.buf pool.fill).off.toNat ∨
            s.rawKey pool.fill ((pool.buf pool.fill).off.toNat + (p.payload.length - hdr)) ≤ a →
          Mem.read t.raw a = Mem.read s.raw a)) ∧
    (s.cap < (pool.buf pool.fill).off.toNat + (p.payload.length - hdr) →
      exec (.xfer false (p :: rest)) s = .next { s with
        xferRest := rest
        run := .running (pool.setBuf pool.fill {
          off := (pool.buf pool.fill).off
          err := BitVec.ofNat 32 (min (2 ^ 32 - 1) ((pool.buf pool.fill).err.toNat + 1))
          odd := if p.payload.length = 8 then first.getLsbD 6 else (pool.buf pool.fill).odd }) })

/-- R121, R117: a marker with a fill offset of 0 changes nothing but the parity flag a length of 8 has already
written. -/
def Obligations.SpuriousMarkerIgnored : Prop :=
  ∀ (s : State) (pool : Pool) (p : Packet) (rest : List Packet) (first : Byte) (more : List Byte),
    s.run = .running pool → pool.fill < pool.bufs.length → (pool.buf pool.fill).off = 0 →
    p.err = false → p.payload = first :: more → p.payload.length = (if first.getLsbD 7 then 8 else 4) →
    exec (.xfer false (p :: rest)) s = .next { s with
      xferRest := rest
      run := if p.payload.length = 8 then .running (pool.setOdd pool.fill (first.getLsbD 6)) else .running pool }

/-- R122, R123, R124, R117, R141: a marker on a good frame of at least the expected size publishes it; a displaced frame
is counted in DUMPED_FRAMES; the new Fill buffer starts with offset and error count 0 and keeps its parity flag. -/
def Obligations.MarkerPublishesGoodFrame : Prop :=
  ∀ (s : State) (pool : Pool) (p : Packet) (rest : List Packet) (first : Byte) (more : List Byte) (fill' : Nat)
    (empty' full' : List Nat),
    s.run = .running pool → (∀ b, b ∈ pool.ids → b < pool.bufs.length) →
    (pool.buf pool.fill).off ≠ 0 → s.expectedBytes ≤ (pool.buf pool.fill).off.toNat →
    (pool.buf pool.fill).err = 0 →
    p.err = false → p.payload = first :: more → p.payload.length = (if first.getLsbD 7 then 8 else 4) →
    (pool.empty = fill' :: empty' ∧ full' = pool.full ++ [pool.fill] ∨
      pool.empty = [] ∧ empty' = [] ∧ pool.full ++ [pool.fill] = fill' :: full') →
    ∃ t bufs', exec (.xfer false (p :: rest)) s = .next t ∧
      t = { s with
        xferRest := rest
        run := .running { fill := fill', read := pool.read, empty := empty', full := full', bufs := bufs' }
        dumped := if pool.empty = [] then s.dumped + 1 else s.dumped } ∧
      bufs'.length = pool.bufs.length ∧
      (∀ b buf, b ≠ fill' → b ≠ pool.fill → pool.bufs[b]? = some buf → bufs'[b]? = some buf) ∧
      (fill' ≠ pool.fill → bufs'[pool.fill]? = some {
        off := (pool.buf pool.fill).off
        err := 0
        odd := if p.payload.length = 8 then first.getLsbD 6 else (pool.buf pool.fill).odd }) ∧
      bufs'[fill']? = some {
        off := 0
        err := 0
        odd := if fill' = pool.fill ∧ p.payload.length = 8 then first.getLsbD 6 else (pool.buf fill').odd }

/-- R122, R124, R117: a marker on a short frame or on one with errors publishes nothing; DROPPED_FRAMES grows by one; the
same Fill buffer starts again with offset and error count 0. -/
def Obligations.MarkerDropsBadFrame : Prop :=
  ∀ (s : State) (pool : Pool) (p : Packet) (rest : List Packet) (first : Byte) (more : List Byte),
    s.run = .running pool → pool.fill < pool.bufs.length → (pool.buf pool.fill).off ≠ 0 →
    (pool.buf pool.fill).off.toNat < s.expectedBytes ∨ (pool.buf pool.fill).err ≠ 0 →
    p.err = false → p.payload = first :: more → p.payload.length = (if first.getLsbD 7 then 8 else 4) →
    exec (.xfer false (p :: rest)) s = .next { s with
      xferRest := rest
      dropped := s.dropped + 1
      run := .running (pool.setBuf pool.fill {
        off := 0
        err := 0
        odd := if p.payload.length = 8 then first.getLsbD 6 else (pool.buf pool.fill).odd }) }

/-! ## The conversion -/

/-- R171: every tap address of an interior pixel lies in the frame and in the buffer, for any parameters, mode and
flips. -/
def Obligations.TapsStayInsideFrame : Prop :=
  ∀ (s : State) (c r dx dy : Nat), 1 ≤ c → c + 2 ≤ s.nwidth → 1 ≤ r → r + 2 ≤ s.nheight → dx ≤ 2 → dy ≤ 2 →
    1 ≤ (s.tapCentre c r).1 ∧ 1 ≤ (s.tapCentre c r).2 ∧
    ((s.tapCentre c r).2 + dy - 1) * s.width + ((s.tapCentre c r).1 + dx - 1) < s.width * s.height ∧
    s.width * s.height ≤ s.cap

/-- R166, R167: the tap centre (cx, cy) of an interior pixel, and, with the default table, which raw samples make the
pixel at each of the four phases, averages truncated (R12). `v dx dy` is the sample at the tap centre +
(dx - 1, dy - 1). -/
def Obligations.DefaultTapsByPhase : Prop :=
  ∀ (s : State) (b c r cx cy : Nat) (v : Nat → Nat → Byte), s.params.val.bayerTaps = defaultTaps →
    1 ≤ c → c + 2 ≤ s.nwidth → 1 ≤ r → r + 2 ≤ s.nheight →
    cx = (if s.mode.hflip then (s.width - 2) - (c - 1) * s.factor else 1 + (c - 1) * s.factor) →
    cy = (if s.mode.vflip then (s.height - 2) - (r - 1) * s.factor else 1 + (r - 1) * s.factor) →
    (∀ dx dy, dx ≤ 2 → dy ≤ 2 → s.rawRead b ((cy + dy - 1) * s.width + (cx + dx - 1)) = .ok (v dx dy)) →
    let half (a b : Byte) : Byte := BitVec.ofNat 8 ((a.toNat + b.toNat) / 2)
    let quarter (a b c d : Byte) : Byte := BitVec.ofNat 8 ((a.toNat + b.toNat + c.toNat + d.toNat) / 4)
    s.interiorRgb b c r = .ok
      (match cy % 2, cx % 2 with
      | 0, 0 => { r := v 1 1, g := half (v 0 1) (v 2 1), b := quarter (v 0 0) (v 2 0) (v 0 2) (v 2 2) }
      | 0, _ => { r := half (v 0 1) (v 2 1), g := v 1 1, b := half (v 1 0) (v 1 2) }
      | _, 0 => { r := half (v 1 0) (v 1 2), g := v 1 1, b := half (v 0 1) (v 2 1) }
      | _, _ => { r := quarter (v 0 0) (v 2 0) (v 0 2) (v 2 2), g := half (v 0 1) (v 2 1), b := v 1 1 })

/-- R169, R173, R174, R175, R179, R180: the bytes of an interior view pixel (x, y), for any tap table, mode and flips.
Each channel is the tap of the kind the table gives at the phase of the tap centre (cx, cy), with truncating averages;
`v dx dy` is the sample at the tap centre + (dx - 1, dy - 1). The pixel's bytes are, by format, the channels in their
order with the pad byte last, or the luma byte of Ys and a chroma byte, Us at an even view column and Vs at an odd one
(the rescaled bytes: VideoRanges). A conversion puts them at the pixel's address upward. -/
def Obligations.InteriorPixelBytes : Prop :=
  ∀ (s : State) (b x y cx cy : Nat) (v : Nat → Nat → Byte),
    s.ox + 1 ≤ x → x + 2 ≤ s.ox + s.nwidth → s.oy + 1 ≤ y → y + 2 ≤ s.oy + s.nheight →
    cx = (if s.mode.hflip then (s.width - 2) - (x - s.ox - 1) * s.factor else 1 + (x - s.ox - 1) * s.factor) →
    cy = (if s.mode.vflip then (s.height - 2) - (y - s.oy - 1) * s.factor else 1 + (y - s.oy - 1) * s.factor) →
    (∀ dx dy, dx ≤ 2 → dy ≤ 2 → s.rawRead b ((cy + dy - 1) * s.width + (cx + dx - 1)) = .ok (v dx dy)) →
    let table := s.params.val.bayerTaps
    let taps : PhaseTaps := match cy % 2, cx % 2 with
      | 0, 0 => table.p00
      | 0, _ => table.p01
      | _, 0 => table.p10
      | _, _ => table.p11
    let cols := s.params.val.yuvCols
    let tab (i : Byte) (column : Fin 8) : Int := (s.params.val.yuvTab[i.toFin][column]).toInt
    ∃ (p : Rgb) (bytes : List Byte), s.viewPixel b x y = .ok bytes ∧
      (∀ kind channel, (kind, channel) ∈ [(taps.r, p.r), (taps.g, p.g), (taps.b, p.b)] →
        (channel : Byte).toNat = match (kind : TapKind) with
          | .own => (v 1 1).toNat
          | .h2 => ((v 0 1).toNat + (v 2 1).toNat) / 2
          | .v2 => ((v 1 0).toNat + (v 1 2).toNat) / 2
          | .x4 => ((v 0 0).toNat + (v 2 0).toNat + (v 0 2).toNat + (v 2 2).toNat) / 4
          | .c4 => ((v 0 1).toNat + (v 2 1).toNat + (v 1 0).toNat + (v 1 2).toNat) / 4) ∧
      (let luma := lumaByte (tab p.r cols.yr + tab p.g cols.yg + tab p.b cols.yb)
       let chroma := if x % 2 = 0 then chromaByte (tab p.r cols.ur + tab p.g cols.ug + tab p.b cols.ub)
        else chromaByte (tab p.r cols.vr + tab p.g cols.vg + tab p.b cols.vb)
       (s.mode.fmt, s.mode.fmt.code, bytes) ∈
        [(Format.rgb24, 0, [p.r, p.g, p.b]), (.rgb32, 1, [p.r, p.g, p.b, 0]), (.bgr24, 2, [p.b, p.g, p.r]),
         (.bgr32, 3, [p.b, p.g, p.r, 0]), (.uyvy, 4, [chroma, luma]), (.yuyv, 5, [luma, chroma])]) ∧
      (∀ (slot : BitVec 8) (t : State) (k : Nat) (byte : Byte), x < s.vx → y < s.vy → s.demosaic b slot = .ok t →
        bytes[k]? = some byte → t.outRead (slot.toNat * s.slotBytes + (y * s.vx + x) * s.bpp + k) = some byte)

/-- R182: on a flat field every interior pixel has all three channels equal to it, for any flips, factor, format and
tap table; in RGB24 its bytes are the value three times. -/
def Obligations.FlatFieldStaysFlat : Prop :=
  ∀ (s : State) (b x y : Nat) (k : Byte), b < s.poolSize →
    (∀ a, a < s.width * s.height → Mem.read s.raw (s.rawKey b a) = some k) →
    s.ox + 1 ≤ x → x + 2 ≤ s.ox + s.nwidth → s.oy + 1 ≤ y → y + 2 ≤ s.oy + s.nheight →
    s.viewPixel b x y = .ok (s.pixelOf { r := k, g := k, b := k } x) ∧
    (s.mode.fmt = .rgb24 → s.viewPixel b x y = .ok [k, k, k])

/-- R164, R165, R181, R183: after a conversion every padding byte is 0, in every format, and every border pixel holds the
format's background bytes. -/
def Obligations.PaddingAndBorderBytes : Prop :=
  ∀ (s t : State) (b : Nat) (slot : BitVec 8) (x y : Nat), s.demosaic b slot = .ok t → x < s.vx → y < s.vy →
    (x < s.ox ∨ s.ox + s.nwidth ≤ x ∨ y < s.oy ∨ s.oy + s.nheight ≤ y →
      ∀ k, k < s.bpp → t.outRead (s.pixelAddr slot x y + k) = some 0) ∧
    (s.ox ≤ x → x < s.ox + s.nwidth → s.oy ≤ y → y < s.oy + s.nheight →
      x = s.ox ∨ x + 1 = s.ox + s.nwidth ∨ y = s.oy ∨ y + 1 = s.oy + s.nheight →
      ∀ k, k < s.bpp → t.outRead (s.pixelAddr slot x y + k) =
        (match s.mode.fmt with
        | .rgb24 => some 0
        | .rgb32 => some 0
        | .bgr24 => some 0
        | .bgr32 => some 0
        | .uyvy => if k = 0 then some 0x80 else some 0x10
        | .yuyv => if k = 0 then some 0x10 else some 0x80))

/-- R184: an image of at most two rows or columns reads no raw byte: its conversion is the same whatever raw memory and
buffer it is given, and every image pixel is background. -/
def Obligations.SmallImagesReadNothing : Prop :=
  ∀ (s : State) (raw : Mem) (b b' x y : Nat), s.nwidth ≤ 2 ∨ s.nheight ≤ 2 →
    ({ s with raw := raw }).viewPixel b' x y = s.viewPixel b x y ∧
    (s.ox ≤ x → x < s.ox + s.nwidth → s.oy ≤ y → y < s.oy + s.nheight →
      s.viewPixel b x y = .ok s.mode.fmt.background)

/-- R162: the conversion depends on nothing but the buffer's bytes, MODE, VIEW and the parameters: two states that agree
on those convert to the same bytes, from whichever buffers. -/
def Obligations.ConversionIsPure : Prop :=
  ∀ (s t : State) (b c : Nat) (bytes : List Byte), t.params = s.params → t.mode = s.mode → t.viewX = s.viewX →
    t.viewY = s.viewY → b < s.poolSize → c < s.poolSize →
    (∀ a, a < s.cap → Mem.read t.raw (t.rawKey c a) = Mem.read s.raw (s.rawKey b a)) →
    s.viewBytes b = .ok bytes → t.viewBytes c = .ok bytes

/-- R176, R177, R178: the luma byte is the clamped sum rescaled with floor division, in 16..235; the chroma byte is the
clamped sum rescaled with division truncating toward zero, in 16..240. -/
def Obligations.VideoRanges : Prop :=
  ∀ sum : Int,
    ((lumaByte sum).toNat : Int) = 219 * (min 255 (max 0 sum)) / 255 + 16 ∧
    16 ≤ (lumaByte sum).toNat ∧ (lumaByte sum).toNat ≤ 235 ∧
    ((chromaByte sum).toNat : Int) = Int.tdiv (112 * (min 127 (max (-127) sum))) 127 + 128 ∧
    16 ≤ (chromaByte sum).toNat ∧ (chromaByte sum).toNat ≤ 240

/-- R202, R203: the corrected byte, saturating at both ends, and the range of the delta. -/
def Obligations.BrightnessSaturates : Prop :=
  ∀ (bright : BitVec 16) (v : Byte),
    (32767 ≤ bright.toNat →
      (brightByte bright v).toNat = min 255 (v.toNat + (bright.toNat - 32767) / 256) ∧
      (bright.toNat - 32767) / 256 ≤ 128) ∧
    (bright.toNat < 32767 →
      (brightByte bright v).toNat = v.toNat - (32767 - bright.toNat) / 256 ∧
      (32767 - bright.toNat) / 256 ≤ 127)

/-! ## Laws of the pool -/

/-- R147: in every step while running, buffers leave Full at its head only and enter it at its tail only. -/
def Obligations.FullIsFifo : Prop :=
  ∀ (s t : State) (p q : Pool), step s = .next t → s.run = .running p → t.run = .running q →
    ∃ out new, out ≤ 1 ∧ new.length ≤ 1 ∧ q.full = (p.full ++ new).drop out

/-- R148: a displacing PUBLISH takes the oldest unread frame; with no consumer, after k publishes, k at least the pool
size n, Full holds the last n - 1 published buffers in publish order and k - n + 1 frames were displaced. -/
def Obligations.FreshnessUnderBackpressure : Prop :=
  (∀ (p : Pool) (b : Nat), (p.publish b).2 = .displaced →
    p.full ++ [b] = (p.publish b).1.fill :: (p.publish b).1.full) ∧
  (∀ n k : Nat, 2 ≤ n → n ≤ k →
    (publishTimes k (freshPool n)).2 = k - n + 1 ∧
    (publishTimes k (freshPool n)).1.full =
      (List.range (n - 1)).map fun i => (publishTimes (k - (n - 1) + i) (freshPool n)).1.fill)

/-- R142: no run reaches the fatal branch: no PUBLISH runs out of buffers, and a step leaves the fatal flag clear and the
fault record as it is. -/
def Obligations.FatalIsUnreachable : Prop :=
  (∀ (p : Pool) (b : Nat), (p.publish b).2 ≠ .exhausted) ∧
  (∀ s t : State, step s = .next t → t.faultRecord = s.faultRecord ∧ (s.fatal = false → t.fatal = false))

/-- R150, R32: after every step every buffer id stands exactly once in the four roles, if it did before. -/
def Obligations.RolesStayPartitioned : Prop :=
  ∀ s t : State, s.RolesPartition → step s = .next t → t.RolesPartition

/-! ## Rules of the whole machine -/

/-- Every step keeps the invariant of the block (R32, R33, R61, R62, R126, R150, R219 together): a rule about every
state, not only those of a run. -/
def Obligations.StepKeepsInv : Prop :=
  ∀ s t : State, s.Inv → step s = .next t → t.Inv

/-- R171, R126, R43, R61: in a state that meets the invariant no step faults: no conversion reads a raw byte nothing
wrote, and no access leaves its memory. -/
def Obligations.InvNeverFaults : Prop :=
  ∀ (s : State) (f : Fault), s.Inv → step s ≠ .fault f

/-- A step is refused only when the PRODUCER is at words that spell no record, and there it is refused, with the reason
why (R94, R269; a record cut short is log 6's). Under the invariant a step that takes a command word gives a
next state with one more answer, sent or owed by the pull (R95). PUBLISH on its own is refused while stopped and nowhere
else (log 9). -/
def Obligations.OnlyMalformedRecordsRefused : Prop :=
  (∀ (s : State) (r : Refusal), step s = .refused r →
    ∃ e, r = .malformedRecord e ∧ s.xferRest = [] ∧ decodeRecord s.ingestPort = .error e) ∧
  (∀ (s : State) (sched : List Move) (e : RecordError), s.schedule = .produce :: sched → s.xferRest = [] →
    s.ingestPort ≠ [] → decodeRecord s.ingestPort = .error e → step s = .refused (.malformedRecord e)) ∧
  (∀ (s : State) (sched : List Move), s.Inv → s.schedule = .command :: sched → s.cmdPort ≠ [] →
    ∃ t, step s = .next t ∧ t.answers = s.answers + 1) ∧
  (∀ s : State, exec .publish s = .refused .publishWithoutPool ↔ s.run = .stopped)

/-- The canonical form of both memories survives every step. -/
def Obligations.MemoryStaysCanonical : Prop :=
  ∀ s t : State, s.MemoryCanonical → step s = .next t → t.MemoryCanonical

/-- R34, R35, R60, R78: raw memory is written by XFER only and output memory by CONVERT and BRIGHTEN only; while running
a step changes raw bytes of the Fill buffer only, while stopped of none. -/
def Obligations.MemoryWriters : Prop :=
  (∀ (i : Instr) (s t : State), exec i s = .next t →
    ((∀ xferFail packets, i ≠ .xfer xferFail packets) → t.raw = s.raw) ∧
    ((∀ slot, i ≠ .convert slot ∧ i ≠ .brighten slot) → t.out = s.out)) ∧
  (∀ s t : State, step s = .next t →
    (∀ pool, s.run = .running pool → ∀ b a, b ≠ pool.fill → a < s.cap →
      Mem.read t.raw (s.rawKey b a) = Mem.read s.raw (s.rawKey b a)) ∧
    (s.run = .stopped → t.raw = s.raw))

/-- R222, R8: no step changes the parameters, and no step while running changes MODE, BRIGHT or VIEW. -/
def Obligations.ConfigurationIsFixedWhileRunning : Prop :=
  ∀ s t : State, step s = .next t →
    t.params = s.params ∧
    (s.running = true → t.mode = s.mode ∧ t.bright = s.bright ∧ t.viewX = s.viewX ∧ t.viewY = s.viewY)

/-- R30, R112, R219: a step sets the sticky stream error only by a failed transfer while running, and clears it only by a
START_CAPTURE word while stopped. -/
def Obligations.StreamErrorIsSticky : Prop :=
  ∀ s t : State, step s = .next t →
    (s.streamError = false → t.streamError = true →
      s.running = true ∧ ∃ packets rest, decodeRecord s.ingestPort = .ok (.xfer true packets, rest)) ∧
    (s.streamError = true → t.streamError = false →
      s.running = false ∧ t.running = true ∧ ∃ ws, s.cmdPort = 0x10000000#32 :: ws)

/-- R95, R228: a step that takes a command word adds exactly one answer, sent or still owed by the pull; any other step
adds none; responses already sent stay, in order. -/
def Obligations.OneAnswerPerCommand : Prop :=
  ∀ s t : State, step s = .next t →
    (∃ new, t.responses = s.responses ++ new) ∧
    (t.cmdPort = s.cmdPort ∧ t.answers = s.answers ∨
      ∃ w, s.cmdPort = w :: t.cmdPort ∧ t.answers = s.answers + 1)

/-- R96 and the layout of R95: the two words of a response, and the code of every status. -/
def Obligations.ResponseWords : Prop :=
  (∀ r : Response, ∃ w, r.words = [w, r.value] ∧ bits w 31 24 = r.op.toNat ∧ bits w 23 16 = r.status.code ∧
    bits w 15 0 = 0) ∧
  ∀ st : Status, (st, st.code) ∈ [(Status.ok, 0x00), (.none, 0x01), (.retry, 0x02), (.terminated, 0x03),
    (.streamError, 0x04), (.readHeld, 0x05), (.noRead, 0x06), (.badState, 0x07), (.badConfig, 0x08), (.badSlot, 0x09),
    (.busy, 0x0A), (.illegal, 0x0B), (.fatal, 0x0C)]

/-- R43, R62, R77: a HOST read of an output byte admits the byte's value when no write of its slot is pending, no value
where nothing was written, and any value when a write of the slot is pending: a pull into the slot, or a PULL_FRAME,
CONVERT or BRIGHTEN word for it still on the command port (log 13). -/
def Obligations.HostReadsOutput : Prop :=
  ∀ (s : State) (a : Nat) (v : Byte), a < s.outSize →
    let pending := ∃ slot : BitVec 8, slot.toNat = a / s.slotBytes ∧
      (s.pull = .wait slot ∨ s.pull = .convert slot ∨ ∃ w ∈ s.cmdPort, ∃ i, decodeCommand w = .ok i ∧
        (i = .pullFrame slot ∨ i = .convert slot ∨ i = .brighten slot))
    (pending → (s.hostRead a).admits v = true) ∧
    (¬pending → ((s.hostRead a).admits v = true ↔ s.outRead a = some v))

/-! ## Fairness -/

/-- R299: in every run without end, whatever the HOST does between the steps, a move that stays enabled is made, and a
pull whose step is enabled is answered: it stays pending up to a step that ends it and sends, first of that step's
responses, one with its opcode 0x20. The order of moves is the model's schedule (log 3). -/
def Obligations.RunsAreWeaklyFair : Prop :=
  ∀ (s : Nat → State) (host : Nat → List HostAction), IsRun s host →
    WeaklyFair s host ∧
    ∀ n, (hostActs (s n) (host n)).enabled .pull = true →
      ∃ k, n ≤ k ∧ (∀ j, n ≤ j → j ≤ k → (hostActs (s j) (host j)).pull ≠ .noPull) ∧ (s (k + 1)).pull = .noPull ∧
        ∃ r more, r.op = 0x20 ∧ (s (k + 1)).responses = (hostActs (s k) (host k)).responses ++ r :: more
end

