-- ==== Sys2Proof/Laws/Memory.lean ====
section
/-!
SUPPORT. What the byte memory operations do: a read after a write, everything else unchanged, the canonical form kept.
-/
namespace Sys2Proof.Machine

@[simp] theorem Mem.read_nil (a : Nat) : Mem.read [] a = none := rfl

theorem Mem.read_cons (c : Host.Cell) (m : Mem) (a : Nat) :
    Mem.read (c :: m) a = if a = c.1 then some c.2 else Mem.read m a := rfl

@[simp] theorem Mem.read_write_same (m : Mem) (a : Nat) (v : Byte) : Mem.read (Mem.write m a v) a = some v := by
  induction m with
  | nil => simp [Mem.write, Mem.read]
  | cons c m ih =>
    simp only [Mem.write]
    split
    · simp [Mem.read]
    · split
      · simp [Mem.read]
      · next h => simp [Mem.read, h, ih]

theorem Mem.read_write_other (m : Mem) (a b : Nat) (v : Byte) (h : b ≠ a) :
    Mem.read (Mem.write m a v) b = Mem.read m b := by
  induction m with
  | nil => simp [Mem.write, Mem.read, h]
  | cons c m ih =>
    simp only [Mem.write]
    split
    · simp [Mem.read, h]
    · split
      · next hac => simp [Mem.read, h, ← hac]
      · simp [Mem.read, ih]

theorem Mem.read_write (m : Mem) (a b : Nat) (v : Byte) :
    Mem.read (Mem.write m a v) b = if b = a then some v else Mem.read m b := by
  split
  · next h => rw [h, Mem.read_write_same]
  · next h => exact Mem.read_write_other m a b v h

theorem Mem.read_writeList (m : Mem) (a : Nat) (bs : List Byte) (k : Nat) :
    Mem.read (Mem.writeList m a bs) k = if a ≤ k ∧ k < a + bs.length then bs[k - a]? else Mem.read m k := by
  induction bs generalizing m a with
  | nil => simp [Mem.writeList]
  | cons v bs ih =>
    simp only [Mem.writeList, ih, List.length_cons]
    by_cases h1 : a + 1 ≤ k ∧ k < a + 1 + bs.length
    · have h2 : a ≤ k ∧ k < a + (bs.length + 1) := by omega
      rw [if_pos h1, if_pos h2]
      have : k - a = (k - (a + 1)) + 1 := by omega
      rw [this, List.getElem?_cons_succ]
    · rw [if_neg h1, Mem.read_write]
      by_cases h3 : k = a
      · subst h3
        simp
      · rw [if_neg h3, if_neg (by omega)]

/-- A byte outside the stored bytes keeps its value, or its having none. -/
theorem Mem.read_writeList_outside (m : Mem) (a : Nat) (bs : List Byte) (k : Nat)
    (h : k < a ∨ a + bs.length ≤ k) : Mem.read (Mem.writeList m a bs) k = Mem.read m k := by
  rw [Mem.read_writeList, if_neg (by omega)]

/-- A stored byte reads as the byte stored. -/
theorem Mem.read_writeList_inside (m : Mem) (a : Nat) (bs : List Byte) (k : Nat) (h : k < bs.length) :
    Mem.read (Mem.writeList m a bs) (a + k) = some bs[k] := by
  rw [Mem.read_writeList, if_pos (by omega)]
  simp [h]

theorem Mem.read_mapBytes (m : Mem) (f : Nat → Byte → Byte) (a : Nat) :
    Mem.read (Mem.mapBytes m f) a = (Mem.read m a).map (f a) := by
  induction m with
  | nil => simp [Mem.mapBytes]
  | cons c m ih =>
    have ih' : Mem.read (List.map (fun c => (c.1, f c.1 c.2)) m) a = (Mem.read m a).map (f a) := ih
    simp only [Mem.mapBytes, List.map_cons, Mem.read_cons, ih']
    split
    · next h => simp [h]
    · rfl

/-! ## Which cells a memory lists -/

theorem Mem.mem_write (m : Mem) (a : Nat) (v : Byte) (c : Host.Cell) (h : c ∈ Mem.write m a v) :
    c.1 = a ∨ c ∈ m := by
  induction m with
  | nil =>
    left
    simp only [Mem.write, List.mem_singleton] at h
    rw [h]
  | cons d m ih =>
    simp only [Mem.write] at h
    split at h
    · rcases List.mem_cons.1 h with h | h
      · left; rw [h]
      · exact .inr h
    · split at h
      · rcases List.mem_cons.1 h with h | h
        · left; rw [h]
        · exact .inr (List.mem_cons_of_mem _ h)
      · rcases List.mem_cons.1 h with h | h
        · right; rw [h]; exact List.mem_cons_self
        · rcases ih h with h | h
          · exact .inl h
          · exact .inr (List.mem_cons_of_mem _ h)

theorem Mem.mem_writeList (m : Mem) (a : Nat) (bs : List Byte) (c : Host.Cell) (h : c ∈ Mem.writeList m a bs) :
    (a ≤ c.1 ∧ c.1 < a + bs.length) ∨ c ∈ m := by
  induction bs generalizing m a with
  | nil => exact .inr h
  | cons v bs ih =>
    simp only [List.length_cons]
    rcases ih (Mem.write m a v) (a + 1) h with h | h
    · left; omega
    · rcases Mem.mem_write m a v c h with h | h
      · left; omega
      · exact .inr h

theorem Mem.mem_mapBytes (m : Mem) (f : Nat → Byte → Byte) (c : Host.Cell) (h : c ∈ Mem.mapBytes m f) :
    ∃ d ∈ m, d.1 = c.1 := by
  obtain ⟨d, hd, rfl⟩ := List.mem_map.1 h
  exact ⟨d, hd, rfl⟩

/-! ## The canonical form -/

theorem Mem.wf_iff_pairwise (m : Mem) : Mem.wf m = true ↔ m.Pairwise (fun c d => c.1 < d.1) := by
  induction m with
  | nil => simp [Mem.wf]
  | cons c m ih =>
    cases m with
    | nil => simp [Mem.wf]
    | cons d m =>
      simp only [Mem.wf, Bool.and_eq_true, decide_eq_true_eq, ih, List.pairwise_cons]
      constructor
      · rintro ⟨hcd, hd, hm⟩
        refine ⟨?_, hd, hm⟩
        intro e he
        rcases List.mem_cons.1 he with rfl | he
        · exact hcd
        · exact Nat.lt_trans hcd (hd e he)
      · rintro ⟨hc, hd, hm⟩
        exact ⟨hc d List.mem_cons_self, hd, hm⟩

@[simp] theorem Mem.wf_nil : Mem.wf [] = true := rfl

theorem Mem.wf_write (m : Mem) (a : Nat) (v : Byte) (h : Mem.wf m = true) : Mem.wf (Mem.write m a v) = true := by
  rw [Mem.wf_iff_pairwise] at h ⊢
  induction m with
  | nil => simp [Mem.write]
  | cons c m ih =>
    obtain ⟨hc, hm⟩ := List.pairwise_cons.1 h
    simp only [Mem.write]
    split
    · next hlt =>
      refine List.pairwise_cons.2 ⟨?_, h⟩
      intro e he
      rcases List.mem_cons.1 he with rfl | he
      · exact hlt
      · exact Nat.lt_trans hlt (hc e he)
    · split
      · next heq => exact List.pairwise_cons.2 ⟨by intro e he; simpa [heq] using hc e he, hm⟩
      · refine List.pairwise_cons.2 ⟨?_, ih hm⟩
        intro e he
        rcases Mem.mem_write m a v e he with he | he
        · show c.1 < e.1
          omega
        · exact hc e he

theorem Mem.wf_writeList (m : Mem) (a : Nat) (bs : List Byte) (h : Mem.wf m = true) :
    Mem.wf (Mem.writeList m a bs) = true := by
  induction bs generalizing m a with
  | nil => exact h
  | cons v bs ih => exact ih (Mem.write m a v) (a + 1) (Mem.wf_write m a v h)

theorem Mem.wf_mapBytes (m : Mem) (f : Nat → Byte → Byte) (h : Mem.wf m = true) :
    Mem.wf (Mem.mapBytes m f) = true := by
  rw [Mem.wf_iff_pairwise] at h ⊢
  exact List.pairwise_map.2 h

/-- Writing keeps every byte that has a value valued. -/
theorem Mem.read_isSome_writeList (m : Mem) (a : Nat) (bs : List Byte) (k : Nat)
    (h : (Mem.read m k).isSome = true) : (Mem.read (Mem.writeList m a bs) k).isSome = true := by
  rw [Mem.read_writeList]
  split
  · next hk => simp; omega
  · exact h

end Sys2Proof.Machine
end

