-- ==== Sys2Proof/Laws/State.lean ====
section
/-!
SUPPORT. One lemma per field per update of the state, so that no proof unfolds a record update.
-/
namespace Sys2Proof.Machine

/-! ### respond -/

@[simp] theorem State.respond_params (s : State) (op : BitVec 8) (st : Status) (v : Word) : (s.respond op st v).params = s.params := rfl
@[simp] theorem State.respond_run (s : State) (op : BitVec 8) (st : Status) (v : Word) : (s.respond op st v).run = s.run := rfl
@[simp] theorem State.respond_mode (s : State) (op : BitVec 8) (st : Status) (v : Word) : (s.respond op st v).mode = s.mode := rfl
@[simp] theorem State.respond_bright (s : State) (op : BitVec 8) (st : Status) (v : Word) : (s.respond op st v).bright = s.bright := rfl
@[simp] theorem State.respond_viewX (s : State) (op : BitVec 8) (st : Status) (v : Word) : (s.respond op st v).viewX = s.viewX := rfl
@[simp] theorem State.respond_viewY (s : State) (op : BitVec 8) (st : Status) (v : Word) : (s.respond op st v).viewY = s.viewY := rfl
@[simp] theorem State.respond_isocErrors (s : State) (op : BitVec 8) (st : Status) (v : Word) : (s.respond op st v).isocErrors = s.isocErrors := rfl
@[simp] theorem State.respond_dropped (s : State) (op : BitVec 8) (st : Status) (v : Word) : (s.respond op st v).dropped = s.dropped := rfl
@[simp] theorem State.respond_dumped (s : State) (op : BitVec 8) (st : Status) (v : Word) : (s.respond op st v).dumped = s.dumped := rfl
@[simp] theorem State.respond_streamError (s : State) (op : BitVec 8) (st : Status) (v : Word) : (s.respond op st v).streamError = s.streamError := rfl
@[simp] theorem State.respond_fatal (s : State) (op : BitVec 8) (st : Status) (v : Word) : (s.respond op st v).fatal = s.fatal := rfl
@[simp] theorem State.respond_pull (s : State) (op : BitVec 8) (st : Status) (v : Word) : (s.respond op st v).pull = s.pull := rfl
@[simp] theorem State.respond_raw (s : State) (op : BitVec 8) (st : Status) (v : Word) : (s.respond op st v).raw = s.raw := rfl
@[simp] theorem State.respond_out (s : State) (op : BitVec 8) (st : Status) (v : Word) : (s.respond op st v).out = s.out := rfl
@[simp] theorem State.respond_cmdPort (s : State) (op : BitVec 8) (st : Status) (v : Word) : (s.respond op st v).cmdPort = s.cmdPort := rfl
@[simp] theorem State.respond_ingestPort (s : State) (op : BitVec 8) (st : Status) (v : Word) : (s.respond op st v).ingestPort = s.ingestPort := rfl
@[simp] theorem State.respond_xferRest (s : State) (op : BitVec 8) (st : Status) (v : Word) : (s.respond op st v).xferRest = s.xferRest := rfl
@[simp] theorem State.respond_responses (s : State) (op : BitVec 8) (st : Status) (v : Word) : (s.respond op st v).responses = s.responses ++ [{ op := op, status := st, value := v }] := rfl
@[simp] theorem State.respond_faultRecord (s : State) (op : BitVec 8) (st : Status) (v : Word) : (s.respond op st v).faultRecord = s.faultRecord := rfl
@[simp] theorem State.respond_schedule (s : State) (op : BitVec 8) (st : Status) (v : Word) : (s.respond op st v).schedule = s.schedule := rfl
@[simp] theorem State.respond_tick (s : State) (op : BitVec 8) (st : Status) (v : Word) : (s.respond op st v).tick = s.tick := rfl

/-! ### setRun -/

@[simp] theorem State.setRun_params (s : State) (x : Run) : (s.setRun x).params = s.params := rfl
@[simp] theorem State.setRun_run (s : State) (x : Run) : (s.setRun x).run = x := rfl
@[simp] theorem State.setRun_mode (s : State) (x : Run) : (s.setRun x).mode = s.mode := rfl
@[simp] theorem State.setRun_bright (s : State) (x : Run) : (s.setRun x).bright = s.bright := rfl
@[simp] theorem State.setRun_viewX (s : State) (x : Run) : (s.setRun x).viewX = s.viewX := rfl
@[simp] theorem State.setRun_viewY (s : State) (x : Run) : (s.setRun x).viewY = s.viewY := rfl
@[simp] theorem State.setRun_isocErrors (s : State) (x : Run) : (s.setRun x).isocErrors = s.isocErrors := rfl
@[simp] theorem State.setRun_dropped (s : State) (x : Run) : (s.setRun x).dropped = s.dropped := rfl
@[simp] theorem State.setRun_dumped (s : State) (x : Run) : (s.setRun x).dumped = s.dumped := rfl
@[simp] theorem State.setRun_streamError (s : State) (x : Run) : (s.setRun x).streamError = s.streamError := rfl
@[simp] theorem State.setRun_fatal (s : State) (x : Run) : (s.setRun x).fatal = s.fatal := rfl
@[simp] theorem State.setRun_pull (s : State) (x : Run) : (s.setRun x).pull = s.pull := rfl
@[simp] theorem State.setRun_raw (s : State) (x : Run) : (s.setRun x).raw = s.raw := rfl
@[simp] theorem State.setRun_out (s : State) (x : Run) : (s.setRun x).out = s.out := rfl
@[simp] theorem State.setRun_cmdPort (s : State) (x : Run) : (s.setRun x).cmdPort = s.cmdPort := rfl
@[simp] theorem State.setRun_ingestPort (s : State) (x : Run) : (s.setRun x).ingestPort = s.ingestPort := rfl
@[simp] theorem State.setRun_xferRest (s : State) (x : Run) : (s.setRun x).xferRest = s.xferRest := rfl
@[simp] theorem State.setRun_responses (s : State) (x : Run) : (s.setRun x).responses = s.responses := rfl
@[simp] theorem State.setRun_faultRecord (s : State) (x : Run) : (s.setRun x).faultRecord = s.faultRecord := rfl
@[simp] theorem State.setRun_schedule (s : State) (x : Run) : (s.setRun x).schedule = s.schedule := rfl
@[simp] theorem State.setRun_tick (s : State) (x : Run) : (s.setRun x).tick = s.tick := rfl

/-! ### setPool -/

@[simp] theorem State.setPool_params (s : State) (x : Pool) : (s.setPool x).params = s.params := rfl
@[simp] theorem State.setPool_run (s : State) (x : Pool) : (s.setPool x).run = .running x := rfl
@[simp] theorem State.setPool_mode (s : State) (x : Pool) : (s.setPool x).mode = s.mode := rfl
@[simp] theorem State.setPool_bright (s : State) (x : Pool) : (s.setPool x).bright = s.bright := rfl
@[simp] theorem State.setPool_viewX (s : State) (x : Pool) : (s.setPool x).viewX = s.viewX := rfl
@[simp] theorem State.setPool_viewY (s : State) (x : Pool) : (s.setPool x).viewY = s.viewY := rfl
@[simp] theorem State.setPool_isocErrors (s : State) (x : Pool) : (s.setPool x).isocErrors = s.isocErrors := rfl
@[simp] theorem State.setPool_dropped (s : State) (x : Pool) : (s.setPool x).dropped = s.dropped := rfl
@[simp] theorem State.setPool_dumped (s : State) (x : Pool) : (s.setPool x).dumped = s.dumped := rfl
@[simp] theorem State.setPool_streamError (s : State) (x : Pool) : (s.setPool x).streamError = s.streamError := rfl
@[simp] theorem State.setPool_fatal (s : State) (x : Pool) : (s.setPool x).fatal = s.fatal := rfl
@[simp] theorem State.setPool_pull (s : State) (x : Pool) : (s.setPool x).pull = s.pull := rfl
@[simp] theorem State.setPool_raw (s : State) (x : Pool) : (s.setPool x).raw = s.raw := rfl
@[simp] theorem State.setPool_out (s : State) (x : Pool) : (s.setPool x).out = s.out := rfl
@[simp] theorem State.setPool_cmdPort (s : State) (x : Pool) : (s.setPool x).cmdPort = s.cmdPort := rfl
@[simp] theorem State.setPool_ingestPort (s : State) (x : Pool) : (s.setPool x).ingestPort = s.ingestPort := rfl
@[simp] theorem State.setPool_xferRest (s : State) (x : Pool) : (s.setPool x).xferRest = s.xferRest := rfl
@[simp] theorem State.setPool_responses (s : State) (x : Pool) : (s.setPool x).responses = s.responses := rfl
@[simp] theorem State.setPool_faultRecord (s : State) (x : Pool) : (s.setPool x).faultRecord = s.faultRecord := rfl
@[simp] theorem State.setPool_schedule (s : State) (x : Pool) : (s.setPool x).schedule = s.schedule := rfl
@[simp] theorem State.setPool_tick (s : State) (x : Pool) : (s.setPool x).tick = s.tick := rfl

/-! ### setPull -/

@[simp] theorem State.setPull_params (s : State) (x : Pull) : (s.setPull x).params = s.params := rfl
@[simp] theorem State.setPull_run (s : State) (x : Pull) : (s.setPull x).run = s.run := rfl
@[simp] theorem State.setPull_mode (s : State) (x : Pull) : (s.setPull x).mode = s.mode := rfl
@[simp] theorem State.setPull_bright (s : State) (x : Pull) : (s.setPull x).bright = s.bright := rfl
@[simp] theorem State.setPull_viewX (s : State) (x : Pull) : (s.setPull x).viewX = s.viewX := rfl
@[simp] theorem State.setPull_viewY (s : State) (x : Pull) : (s.setPull x).viewY = s.viewY := rfl
@[simp] theorem State.setPull_isocErrors (s : State) (x : Pull) : (s.setPull x).isocErrors = s.isocErrors := rfl
@[simp] theorem State.setPull_dropped (s : State) (x : Pull) : (s.setPull x).dropped = s.dropped := rfl
@[simp] theorem State.setPull_dumped (s : State) (x : Pull) : (s.setPull x).dumped = s.dumped := rfl
@[simp] theorem State.setPull_streamError (s : State) (x : Pull) : (s.setPull x).streamError = s.streamError := rfl
@[simp] theorem State.setPull_fatal (s : State) (x : Pull) : (s.setPull x).fatal = s.fatal := rfl
@[simp] theorem State.setPull_pull (s : State) (x : Pull) : (s.setPull x).pull = x := rfl
@[simp] theorem State.setPull_raw (s : State) (x : Pull) : (s.setPull x).raw = s.raw := rfl
@[simp] theorem State.setPull_out (s : State) (x : Pull) : (s.setPull x).out = s.out := rfl
@[simp] theorem State.setPull_cmdPort (s : State) (x : Pull) : (s.setPull x).cmdPort = s.cmdPort := rfl
@[simp] theorem State.setPull_ingestPort (s : State) (x : Pull) : (s.setPull x).ingestPort = s.ingestPort := rfl
@[simp] theorem State.setPull_xferRest (s : State) (x : Pull) : (s.setPull x).xferRest = s.xferRest := rfl
@[simp] theorem State.setPull_responses (s : State) (x : Pull) : (s.setPull x).responses = s.responses := rfl
@[simp] theorem State.setPull_faultRecord (s : State) (x : Pull) : (s.setPull x).faultRecord = s.faultRecord := rfl
@[simp] theorem State.setPull_schedule (s : State) (x : Pull) : (s.setPull x).schedule = s.schedule := rfl
@[simp] theorem State.setPull_tick (s : State) (x : Pull) : (s.setPull x).tick = s.tick := rfl

/-! ### setMode -/

@[simp] theorem State.setMode_params (s : State) (x : Mode) : (s.setMode x).params = s.params := rfl
@[simp] theorem State.setMode_run (s : State) (x : Mode) : (s.setMode x).run = s.run := rfl
@[simp] theorem State.setMode_mode (s : State) (x : Mode) : (s.setMode x).mode = x := rfl
@[simp] theorem State.setMode_bright (s : State) (x : Mode) : (s.setMode x).bright = s.bright := rfl
@[simp] theorem State.setMode_viewX (s : State) (x : Mode) : (s.setMode x).viewX = s.viewX := rfl
@[simp] theorem State.setMode_viewY (s : State) (x : Mode) : (s.setMode x).viewY = s.viewY := rfl
@[simp] theorem State.setMode_isocErrors (s : State) (x : Mode) : (s.setMode x).isocErrors = s.isocErrors := rfl
@[simp] theorem State.setMode_dropped (s : State) (x : Mode) : (s.setMode x).dropped = s.dropped := rfl
@[simp] theorem State.setMode_dumped (s : State) (x : Mode) : (s.setMode x).dumped = s.dumped := rfl
@[simp] theorem State.setMode_streamError (s : State) (x : Mode) : (s.setMode x).streamError = s.streamError := rfl
@[simp] theorem State.setMode_fatal (s : State) (x : Mode) : (s.setMode x).fatal = s.fatal := rfl
@[simp] theorem State.setMode_pull (s : State) (x : Mode) : (s.setMode x).pull = s.pull := rfl
@[simp] theorem State.setMode_raw (s : State) (x : Mode) : (s.setMode x).raw = s.raw := rfl
@[simp] theorem State.setMode_out (s : State) (x : Mode) : (s.setMode x).out = s.out := rfl
@[simp] theorem State.setMode_cmdPort (s : State) (x : Mode) : (s.setMode x).cmdPort = s.cmdPort := rfl
@[simp] theorem State.setMode_ingestPort (s : State) (x : Mode) : (s.setMode x).ingestPort = s.ingestPort := rfl
@[simp] theorem State.setMode_xferRest (s : State) (x : Mode) : (s.setMode x).xferRest = s.xferRest := rfl
@[simp] theorem State.setMode_responses (s : State) (x : Mode) : (s.setMode x).responses = s.responses := rfl
@[simp] theorem State.setMode_faultRecord (s : State) (x : Mode) : (s.setMode x).faultRecord = s.faultRecord := rfl
@[simp] theorem State.setMode_schedule (s : State) (x : Mode) : (s.setMode x).schedule = s.schedule := rfl
@[simp] theorem State.setMode_tick (s : State) (x : Mode) : (s.setMode x).tick = s.tick := rfl

/-! ### setBright -/

@[simp] theorem State.setBright_params (s : State) (x : BitVec 16) : (s.setBright x).params = s.params := rfl
@[simp] theorem State.setBright_run (s : State) (x : BitVec 16) : (s.setBright x).run = s.run := rfl
@[simp] theorem State.setBright_mode (s : State) (x : BitVec 16) : (s.setBright x).mode = s.mode := rfl
@[simp] theorem State.setBright_bright (s : State) (x : BitVec 16) : (s.setBright x).bright = x := rfl
@[simp] theorem State.setBright_viewX (s : State) (x : BitVec 16) : (s.setBright x).viewX = s.viewX := rfl
@[simp] theorem State.setBright_viewY (s : State) (x : BitVec 16) : (s.setBright x).viewY = s.viewY := rfl
@[simp] theorem State.setBright_isocErrors (s : State) (x : BitVec 16) : (s.setBright x).isocErrors = s.isocErrors := rfl
@[simp] theorem State.setBright_dropped (s : State) (x : BitVec 16) : (s.setBright x).dropped = s.dropped := rfl
@[simp] theorem State.setBright_dumped (s : State) (x : BitVec 16) : (s.setBright x).dumped = s.dumped := rfl
@[simp] theorem State.setBright_streamError (s : State) (x : BitVec 16) : (s.setBright x).streamError = s.streamError := rfl
@[simp] theorem State.setBright_fatal (s : State) (x : BitVec 16) : (s.setBright x).fatal = s.fatal := rfl
@[simp] theorem State.setBright_pull (s : State) (x : BitVec 16) : (s.setBright x).pull = s.pull := rfl
@[simp] theorem State.setBright_raw (s : State) (x : BitVec 16) : (s.setBright x).raw = s.raw := rfl
@[simp] theorem State.setBright_out (s : State) (x : BitVec 16) : (s.setBright x).out = s.out := rfl
@[simp] theorem State.setBright_cmdPort (s : State) (x : BitVec 16) : (s.setBright x).cmdPort = s.cmdPort := rfl
@[simp] theorem State.setBright_ingestPort (s : State) (x : BitVec 16) : (s.setBright x).ingestPort = s.ingestPort := rfl
@[simp] theorem State.setBright_xferRest (s : State) (x : BitVec 16) : (s.setBright x).xferRest = s.xferRest := rfl
@[simp] theorem State.setBright_responses (s : State) (x : BitVec 16) : (s.setBright x).responses = s.responses := rfl
@[simp] theorem State.setBright_faultRecord (s : State) (x : BitVec 16) : (s.setBright x).faultRecord = s.faultRecord := rfl
@[simp] theorem State.setBright_schedule (s : State) (x : BitVec 16) : (s.setBright x).schedule = s.schedule := rfl
@[simp] theorem State.setBright_tick (s : State) (x : BitVec 16) : (s.setBright x).tick = s.tick := rfl

/-! ### setView -/

@[simp] theorem State.setView_params (s : State) (x y : BitVec 12) : (s.setView x y).params = s.params := rfl
@[simp] theorem State.setView_run (s : State) (x y : BitVec 12) : (s.setView x y).run = s.run := rfl
@[simp] theorem State.setView_mode (s : State) (x y : BitVec 12) : (s.setView x y).mode = s.mode := rfl
@[simp] theorem State.setView_bright (s : State) (x y : BitVec 12) : (s.setView x y).bright = s.bright := rfl
@[simp] theorem State.setView_viewX (s : State) (x y : BitVec 12) : (s.setView x y).viewX = x := rfl
@[simp] theorem State.setView_viewY (s : State) (x y : BitVec 12) : (s.setView x y).viewY = y := rfl
@[simp] theorem State.setView_isocErrors (s : State) (x y : BitVec 12) : (s.setView x y).isocErrors = s.isocErrors := rfl
@[simp] theorem State.setView_dropped (s : State) (x y : BitVec 12) : (s.setView x y).dropped = s.dropped := rfl
@[simp] theorem State.setView_dumped (s : State) (x y : BitVec 12) : (s.setView x y).dumped = s.dumped := rfl
@[simp] theorem State.setView_streamError (s : State) (x y : BitVec 12) : (s.setView x y).streamError = s.streamError := rfl
@[simp] theorem State.setView_fatal (s : State) (x y : BitVec 12) : (s.setView x y).fatal = s.fatal := rfl
@[simp] theorem State.setView_pull (s : State) (x y : BitVec 12) : (s.setView x y).pull = s.pull := rfl
@[simp] theorem State.setView_raw (s : State) (x y : BitVec 12) : (s.setView x y).raw = s.raw := rfl
@[simp] theorem State.setView_out (s : State) (x y : BitVec 12) : (s.setView x y).out = s.out := rfl
@[simp] theorem State.setView_cmdPort (s : State) (x y : BitVec 12) : (s.setView x y).cmdPort = s.cmdPort := rfl
@[simp] theorem State.setView_ingestPort (s : State) (x y : BitVec 12) : (s.setView x y).ingestPort = s.ingestPort := rfl
@[simp] theorem State.setView_xferRest (s : State) (x y : BitVec 12) : (s.setView x y).xferRest = s.xferRest := rfl
@[simp] theorem State.setView_responses (s : State) (x y : BitVec 12) : (s.setView x y).responses = s.responses := rfl
@[simp] theorem State.setView_faultRecord (s : State) (x y : BitVec 12) : (s.setView x y).faultRecord = s.faultRecord := rfl
@[simp] theorem State.setView_schedule (s : State) (x y : BitVec 12) : (s.setView x y).schedule = s.schedule := rfl
@[simp] theorem State.setView_tick (s : State) (x y : BitVec 12) : (s.setView x y).tick = s.tick := rfl

/-! ### setRaw -/

@[simp] theorem State.setRaw_params (s : State) (x : Mem) : (s.setRaw x).params = s.params := rfl
@[simp] theorem State.setRaw_run (s : State) (x : Mem) : (s.setRaw x).run = s.run := rfl
@[simp] theorem State.setRaw_mode (s : State) (x : Mem) : (s.setRaw x).mode = s.mode := rfl
@[simp] theorem State.setRaw_bright (s : State) (x : Mem) : (s.setRaw x).bright = s.bright := rfl
@[simp] theorem State.setRaw_viewX (s : State) (x : Mem) : (s.setRaw x).viewX = s.viewX := rfl
@[simp] theorem State.setRaw_viewY (s : State) (x : Mem) : (s.setRaw x).viewY = s.viewY := rfl
@[simp] theorem State.setRaw_isocErrors (s : State) (x : Mem) : (s.setRaw x).isocErrors = s.isocErrors := rfl
@[simp] theorem State.setRaw_dropped (s : State) (x : Mem) : (s.setRaw x).dropped = s.dropped := rfl
@[simp] theorem State.setRaw_dumped (s : State) (x : Mem) : (s.setRaw x).dumped = s.dumped := rfl
@[simp] theorem State.setRaw_streamError (s : State) (x : Mem) : (s.setRaw x).streamError = s.streamError := rfl
@[simp] theorem State.setRaw_fatal (s : State) (x : Mem) : (s.setRaw x).fatal = s.fatal := rfl
@[simp] theorem State.setRaw_pull (s : State) (x : Mem) : (s.setRaw x).pull = s.pull := rfl
@[simp] theorem State.setRaw_raw (s : State) (x : Mem) : (s.setRaw x).raw = x := rfl
@[simp] theorem State.setRaw_out (s : State) (x : Mem) : (s.setRaw x).out = s.out := rfl
@[simp] theorem State.setRaw_cmdPort (s : State) (x : Mem) : (s.setRaw x).cmdPort = s.cmdPort := rfl
@[simp] theorem State.setRaw_ingestPort (s : State) (x : Mem) : (s.setRaw x).ingestPort = s.ingestPort := rfl
@[simp] theorem State.setRaw_xferRest (s : State) (x : Mem) : (s.setRaw x).xferRest = s.xferRest := rfl
@[simp] theorem State.setRaw_responses (s : State) (x : Mem) : (s.setRaw x).responses = s.responses := rfl
@[simp] theorem State.setRaw_faultRecord (s : State) (x : Mem) : (s.setRaw x).faultRecord = s.faultRecord := rfl
@[simp] theorem State.setRaw_schedule (s : State) (x : Mem) : (s.setRaw x).schedule = s.schedule := rfl
@[simp] theorem State.setRaw_tick (s : State) (x : Mem) : (s.setRaw x).tick = s.tick := rfl

/-! ### setOut -/

@[simp] theorem State.setOut_params (s : State) (x : Mem) : (s.setOut x).params = s.params := rfl
@[simp] theorem State.setOut_run (s : State) (x : Mem) : (s.setOut x).run = s.run := rfl
@[simp] theorem State.setOut_mode (s : State) (x : Mem) : (s.setOut x).mode = s.mode := rfl
@[simp] theorem State.setOut_bright (s : State) (x : Mem) : (s.setOut x).bright = s.bright := rfl
@[simp] theorem State.setOut_viewX (s : State) (x : Mem) : (s.setOut x).viewX = s.viewX := rfl
@[simp] theorem State.setOut_viewY (s : State) (x : Mem) : (s.setOut x).viewY = s.viewY := rfl
@[simp] theorem State.setOut_isocErrors (s : State) (x : Mem) : (s.setOut x).isocErrors = s.isocErrors := rfl
@[simp] theorem State.setOut_dropped (s : State) (x : Mem) : (s.setOut x).dropped = s.dropped := rfl
@[simp] theorem State.setOut_dumped (s : State) (x : Mem) : (s.setOut x).dumped = s.dumped := rfl
@[simp] theorem State.setOut_streamError (s : State) (x : Mem) : (s.setOut x).streamError = s.streamError := rfl
@[simp] theorem State.setOut_fatal (s : State) (x : Mem) : (s.setOut x).fatal = s.fatal := rfl
@[simp] theorem State.setOut_pull (s : State) (x : Mem) : (s.setOut x).pull = s.pull := rfl
@[simp] theorem State.setOut_raw (s : State) (x : Mem) : (s.setOut x).raw = s.raw := rfl
@[simp] theorem State.setOut_out (s : State) (x : Mem) : (s.setOut x).out = x := rfl
@[simp] theorem State.setOut_cmdPort (s : State) (x : Mem) : (s.setOut x).cmdPort = s.cmdPort := rfl
@[simp] theorem State.setOut_ingestPort (s : State) (x : Mem) : (s.setOut x).ingestPort = s.ingestPort := rfl
@[simp] theorem State.setOut_xferRest (s : State) (x : Mem) : (s.setOut x).xferRest = s.xferRest := rfl
@[simp] theorem State.setOut_responses (s : State) (x : Mem) : (s.setOut x).responses = s.responses := rfl
@[simp] theorem State.setOut_faultRecord (s : State) (x : Mem) : (s.setOut x).faultRecord = s.faultRecord := rfl
@[simp] theorem State.setOut_schedule (s : State) (x : Mem) : (s.setOut x).schedule = s.schedule := rfl
@[simp] theorem State.setOut_tick (s : State) (x : Mem) : (s.setOut x).tick = s.tick := rfl

/-! ### setRest -/

@[simp] theorem State.setRest_params (s : State) (x : List Packet) : (s.setRest x).params = s.params := rfl
@[simp] theorem State.setRest_run (s : State) (x : List Packet) : (s.setRest x).run = s.run := rfl
@[simp] theorem State.setRest_mode (s : State) (x : List Packet) : (s.setRest x).mode = s.mode := rfl
@[simp] theorem State.setRest_bright (s : State) (x : List Packet) : (s.setRest x).bright = s.bright := rfl
@[simp] theorem State.setRest_viewX (s : State) (x : List Packet) : (s.setRest x).viewX = s.viewX := rfl
@[simp] theorem State.setRest_viewY (s : State) (x : List Packet) : (s.setRest x).viewY = s.viewY := rfl
@[simp] theorem State.setRest_isocErrors (s : State) (x : List Packet) : (s.setRest x).isocErrors = s.isocErrors := rfl
@[simp] theorem State.setRest_dropped (s : State) (x : List Packet) : (s.setRest x).dropped = s.dropped := rfl
@[simp] theorem State.setRest_dumped (s : State) (x : List Packet) : (s.setRest x).dumped = s.dumped := rfl
@[simp] theorem State.setRest_streamError (s : State) (x : List Packet) : (s.setRest x).streamError = s.streamError := rfl
@[simp] theorem State.setRest_fatal (s : State) (x : List Packet) : (s.setRest x).fatal = s.fatal := rfl
@[simp] theorem State.setRest_pull (s : State) (x : List Packet) : (s.setRest x).pull = s.pull := rfl
@[simp] theorem State.setRest_raw (s : State) (x : List Packet) : (s.setRest x).raw = s.raw := rfl
@[simp] theorem State.setRest_out (s : State) (x : List Packet) : (s.setRest x).out = s.out := rfl
@[simp] theorem State.setRest_cmdPort (s : State) (x : List Packet) : (s.setRest x).cmdPort = s.cmdPort := rfl
@[simp] theorem State.setRest_ingestPort (s : State) (x : List Packet) : (s.setRest x).ingestPort = s.ingestPort := rfl
@[simp] theorem State.setRest_xferRest (s : State) (x : List Packet) : (s.setRest x).xferRest = x := rfl
@[simp] theorem State.setRest_responses (s : State) (x : List Packet) : (s.setRest x).responses = s.responses := rfl
@[simp] theorem State.setRest_faultRecord (s : State) (x : List Packet) : (s.setRest x).faultRecord = s.faultRecord := rfl
@[simp] theorem State.setRest_schedule (s : State) (x : List Packet) : (s.setRest x).schedule = s.schedule := rfl
@[simp] theorem State.setRest_tick (s : State) (x : List Packet) : (s.setRest x).tick = s.tick := rfl

/-! ### countIsoc -/

@[simp] theorem State.countIsoc_params (s : State) : s.countIsoc.params = s.params := rfl
@[simp] theorem State.countIsoc_run (s : State) : s.countIsoc.run = s.run := rfl
@[simp] theorem State.countIsoc_mode (s : State) : s.countIsoc.mode = s.mode := rfl
@[simp] theorem State.countIsoc_bright (s : State) : s.countIsoc.bright = s.bright := rfl
@[simp] theorem State.countIsoc_viewX (s : State) : s.countIsoc.viewX = s.viewX := rfl
@[simp] theorem State.countIsoc_viewY (s : State) : s.countIsoc.viewY = s.viewY := rfl
@[simp] theorem State.countIsoc_isocErrors (s : State) : s.countIsoc.isocErrors = s.isocErrors + 1 := rfl
@[simp] theorem State.countIsoc_dropped (s : State) : s.countIsoc.dropped = s.dropped := rfl
@[simp] theorem State.countIsoc_dumped (s : State) : s.countIsoc.dumped = s.dumped := rfl
@[simp] theorem State.countIsoc_streamError (s : State) : s.countIsoc.streamError = s.streamError := rfl
@[simp] theorem State.countIsoc_fatal (s : State) : s.countIsoc.fatal = s.fatal := rfl
@[simp] theorem State.countIsoc_pull (s : State) : s.countIsoc.pull = s.pull := rfl
@[simp] theorem State.countIsoc_raw (s : State) : s.countIsoc.raw = s.raw := rfl
@[simp] theorem State.countIsoc_out (s : State) : s.countIsoc.out = s.out := rfl
@[simp] theorem State.countIsoc_cmdPort (s : State) : s.countIsoc.cmdPort = s.cmdPort := rfl
@[simp] theorem State.countIsoc_ingestPort (s : State) : s.countIsoc.ingestPort = s.ingestPort := rfl
@[simp] theorem State.countIsoc_xferRest (s : State) : s.countIsoc.xferRest = s.xferRest := rfl
@[simp] theorem State.countIsoc_responses (s : State) : s.countIsoc.responses = s.responses := rfl
@[simp] theorem State.countIsoc_faultRecord (s : State) : s.countIsoc.faultRecord = s.faultRecord := rfl
@[simp] theorem State.countIsoc_schedule (s : State) : s.countIsoc.schedule = s.schedule := rfl
@[simp] theorem State.countIsoc_tick (s : State) : s.countIsoc.tick = s.tick := rfl

/-! ### countDropped -/

@[simp] theorem State.countDropped_params (s : State) : s.countDropped.params = s.params := rfl
@[simp] theorem State.countDropped_run (s : State) : s.countDropped.run = s.run := rfl
@[simp] theorem State.countDropped_mode (s : State) : s.countDropped.mode = s.mode := rfl
@[simp] theorem State.countDropped_bright (s : State) : s.countDropped.bright = s.bright := rfl
@[simp] theorem State.countDropped_viewX (s : State) : s.countDropped.viewX = s.viewX := rfl
@[simp] theorem State.countDropped_viewY (s : State) : s.countDropped.viewY = s.viewY := rfl
@[simp] theorem State.countDropped_isocErrors (s : State) : s.countDropped.isocErrors = s.isocErrors := rfl
@[simp] theorem State.countDropped_dropped (s : State) : s.countDropped.dropped = s.dropped + 1 := rfl
@[simp] theorem State.countDropped_dumped (s : State) : s.countDropped.dumped = s.dumped := rfl
@[simp] theorem State.countDropped_streamError (s : State) : s.countDropped.streamError = s.streamError := rfl
@[simp] theorem State.countDropped_fatal (s : State) : s.countDropped.fatal = s.fatal := rfl
@[simp] theorem State.countDropped_pull (s : State) : s.countDropped.pull = s.pull := rfl
@[simp] theorem State.countDropped_raw (s : State) : s.countDropped.raw = s.raw := rfl
@[simp] theorem State.countDropped_out (s : State) : s.countDropped.out = s.out := rfl
@[simp] theorem State.countDropped_cmdPort (s : State) : s.countDropped.cmdPort = s.cmdPort := rfl
@[simp] theorem State.countDropped_ingestPort (s : State) : s.countDropped.ingestPort = s.ingestPort := rfl
@[simp] theorem State.countDropped_xferRest (s : State) : s.countDropped.xferRest = s.xferRest := rfl
@[simp] theorem State.countDropped_responses (s : State) : s.countDropped.responses = s.responses := rfl
@[simp] theorem State.countDropped_faultRecord (s : State) : s.countDropped.faultRecord = s.faultRecord := rfl
@[simp] theorem State.countDropped_schedule (s : State) : s.countDropped.schedule = s.schedule := rfl
@[simp] theorem State.countDropped_tick (s : State) : s.countDropped.tick = s.tick := rfl

/-! ### countDumped -/

@[simp] theorem State.countDumped_params (s : State) : s.countDumped.params = s.params := rfl
@[simp] theorem State.countDumped_run (s : State) : s.countDumped.run = s.run := rfl
@[simp] theorem State.countDumped_mode (s : State) : s.countDumped.mode = s.mode := rfl
@[simp] theorem State.countDumped_bright (s : State) : s.countDumped.bright = s.bright := rfl
@[simp] theorem State.countDumped_viewX (s : State) : s.countDumped.viewX = s.viewX := rfl
@[simp] theorem State.countDumped_viewY (s : State) : s.countDumped.viewY = s.viewY := rfl
@[simp] theorem State.countDumped_isocErrors (s : State) : s.countDumped.isocErrors = s.isocErrors := rfl
@[simp] theorem State.countDumped_dropped (s : State) : s.countDumped.dropped = s.dropped := rfl
@[simp] theorem State.countDumped_dumped (s : State) : s.countDumped.dumped = s.dumped + 1 := rfl
@[simp] theorem State.countDumped_streamError (s : State) : s.countDumped.streamError = s.streamError := rfl
@[simp] theorem State.countDumped_fatal (s : State) : s.countDumped.fatal = s.fatal := rfl
@[simp] theorem State.countDumped_pull (s : State) : s.countDumped.pull = s.pull := rfl
@[simp] theorem State.countDumped_raw (s : State) : s.countDumped.raw = s.raw := rfl
@[simp] theorem State.countDumped_out (s : State) : s.countDumped.out = s.out := rfl
@[simp] theorem State.countDumped_cmdPort (s : State) : s.countDumped.cmdPort = s.cmdPort := rfl
@[simp] theorem State.countDumped_ingestPort (s : State) : s.countDumped.ingestPort = s.ingestPort := rfl
@[simp] theorem State.countDumped_xferRest (s : State) : s.countDumped.xferRest = s.xferRest := rfl
@[simp] theorem State.countDumped_responses (s : State) : s.countDumped.responses = s.responses := rfl
@[simp] theorem State.countDumped_faultRecord (s : State) : s.countDumped.faultRecord = s.faultRecord := rfl
@[simp] theorem State.countDumped_schedule (s : State) : s.countDumped.schedule = s.schedule := rfl
@[simp] theorem State.countDumped_tick (s : State) : s.countDumped.tick = s.tick := rfl

/-! ### setStreamError -/

@[simp] theorem State.setStreamError_params (s : State) : s.setStreamError.params = s.params := rfl
@[simp] theorem State.setStreamError_run (s : State) : s.setStreamError.run = s.run := rfl
@[simp] theorem State.setStreamError_mode (s : State) : s.setStreamError.mode = s.mode := rfl
@[simp] theorem State.setStreamError_bright (s : State) : s.setStreamError.bright = s.bright := rfl
@[simp] theorem State.setStreamError_viewX (s : State) : s.setStreamError.viewX = s.viewX := rfl
@[simp] theorem State.setStreamError_viewY (s : State) : s.setStreamError.viewY = s.viewY := rfl
@[simp] theorem State.setStreamError_isocErrors (s : State) : s.setStreamError.isocErrors = s.isocErrors := rfl
@[simp] theorem State.setStreamError_dropped (s : State) : s.setStreamError.dropped = s.dropped := rfl
@[simp] theorem State.setStreamError_dumped (s : State) : s.setStreamError.dumped = s.dumped := rfl
@[simp] theorem State.setStreamError_streamError (s : State) : s.setStreamError.streamError = true := rfl
@[simp] theorem State.setStreamError_fatal (s : State) : s.setStreamError.fatal = s.fatal := rfl
@[simp] theorem State.setStreamError_pull (s : State) : s.setStreamError.pull = s.pull := rfl
@[simp] theorem State.setStreamError_raw (s : State) : s.setStreamError.raw = s.raw := rfl
@[simp] theorem State.setStreamError_out (s : State) : s.setStreamError.out = s.out := rfl
@[simp] theorem State.setStreamError_cmdPort (s : State) : s.setStreamError.cmdPort = s.cmdPort := rfl
@[simp] theorem State.setStreamError_ingestPort (s : State) : s.setStreamError.ingestPort = s.ingestPort := rfl
@[simp] theorem State.setStreamError_xferRest (s : State) : s.setStreamError.xferRest = s.xferRest := rfl
@[simp] theorem State.setStreamError_responses (s : State) : s.setStreamError.responses = s.responses := rfl
@[simp] theorem State.setStreamError_faultRecord (s : State) : s.setStreamError.faultRecord = s.faultRecord := rfl
@[simp] theorem State.setStreamError_schedule (s : State) : s.setStreamError.schedule = s.schedule := rfl
@[simp] theorem State.setStreamError_tick (s : State) : s.setStreamError.tick = s.tick := rfl

/-! ### clearStream -/

@[simp] theorem State.clearStream_params (s : State) : s.clearStream.params = s.params := rfl
@[simp] theorem State.clearStream_run (s : State) : s.clearStream.run = s.run := rfl
@[simp] theorem State.clearStream_mode (s : State) : s.clearStream.mode = s.mode := rfl
@[simp] theorem State.clearStream_bright (s : State) : s.clearStream.bright = s.bright := rfl
@[simp] theorem State.clearStream_viewX (s : State) : s.clearStream.viewX = s.viewX := rfl
@[simp] theorem State.clearStream_viewY (s : State) : s.clearStream.viewY = s.viewY := rfl
@[simp] theorem State.clearStream_isocErrors (s : State) : s.clearStream.isocErrors = 0 := rfl
@[simp] theorem State.clearStream_dropped (s : State) : s.clearStream.dropped = 0 := rfl
@[simp] theorem State.clearStream_dumped (s : State) : s.clearStream.dumped = 0 := rfl
@[simp] theorem State.clearStream_streamError (s : State) : s.clearStream.streamError = false := rfl
@[simp] theorem State.clearStream_fatal (s : State) : s.clearStream.fatal = false := rfl
@[simp] theorem State.clearStream_pull (s : State) : s.clearStream.pull = s.pull := rfl
@[simp] theorem State.clearStream_raw (s : State) : s.clearStream.raw = s.raw := rfl
@[simp] theorem State.clearStream_out (s : State) : s.clearStream.out = s.out := rfl
@[simp] theorem State.clearStream_cmdPort (s : State) : s.clearStream.cmdPort = s.cmdPort := rfl
@[simp] theorem State.clearStream_ingestPort (s : State) : s.clearStream.ingestPort = s.ingestPort := rfl
@[simp] theorem State.clearStream_xferRest (s : State) : s.clearStream.xferRest = s.xferRest := rfl
@[simp] theorem State.clearStream_responses (s : State) : s.clearStream.responses = s.responses := rfl
@[simp] theorem State.clearStream_faultRecord (s : State) : s.clearStream.faultRecord = s.faultRecord := rfl
@[simp] theorem State.clearStream_schedule (s : State) : s.clearStream.schedule = s.schedule := rfl
@[simp] theorem State.clearStream_tick (s : State) : s.clearStream.tick = s.tick := rfl

/-! ### raiseFatal -/

@[simp] theorem State.raiseFatal_params (s : State) (x : FatalInfo) : (s.raiseFatal x).params = s.params := rfl
@[simp] theorem State.raiseFatal_run (s : State) (x : FatalInfo) : (s.raiseFatal x).run = s.run := rfl
@[simp] theorem State.raiseFatal_mode (s : State) (x : FatalInfo) : (s.raiseFatal x).mode = s.mode := rfl
@[simp] theorem State.raiseFatal_bright (s : State) (x : FatalInfo) : (s.raiseFatal x).bright = s.bright := rfl
@[simp] theorem State.raiseFatal_viewX (s : State) (x : FatalInfo) : (s.raiseFatal x).viewX = s.viewX := rfl
@[simp] theorem State.raiseFatal_viewY (s : State) (x : FatalInfo) : (s.raiseFatal x).viewY = s.viewY := rfl
@[simp] theorem State.raiseFatal_isocErrors (s : State) (x : FatalInfo) : (s.raiseFatal x).isocErrors = s.isocErrors := rfl
@[simp] theorem State.raiseFatal_dropped (s : State) (x : FatalInfo) : (s.raiseFatal x).dropped = s.dropped := rfl
@[simp] theorem State.raiseFatal_dumped (s : State) (x : FatalInfo) : (s.raiseFatal x).dumped = s.dumped := rfl
@[simp] theorem State.raiseFatal_streamError (s : State) (x : FatalInfo) : (s.raiseFatal x).streamError = s.streamError := rfl
@[simp] theorem State.raiseFatal_fatal (s : State) (x : FatalInfo) : (s.raiseFatal x).fatal = true := rfl
@[simp] theorem State.raiseFatal_pull (s : State) (x : FatalInfo) : (s.raiseFatal x).pull = s.pull := rfl
@[simp] theorem State.raiseFatal_raw (s : State) (x : FatalInfo) : (s.raiseFatal x).raw = s.raw := rfl
@[simp] theorem State.raiseFatal_out (s : State) (x : FatalInfo) : (s.raiseFatal x).out = s.out := rfl
@[simp] theorem State.raiseFatal_cmdPort (s : State) (x : FatalInfo) : (s.raiseFatal x).cmdPort = s.cmdPort := rfl
@[simp] theorem State.raiseFatal_ingestPort (s : State) (x : FatalInfo) : (s.raiseFatal x).ingestPort = s.ingestPort := rfl
@[simp] theorem State.raiseFatal_xferRest (s : State) (x : FatalInfo) : (s.raiseFatal x).xferRest = s.xferRest := rfl
@[simp] theorem State.raiseFatal_responses (s : State) (x : FatalInfo) : (s.raiseFatal x).responses = s.responses := rfl
@[simp] theorem State.raiseFatal_faultRecord (s : State) (x : FatalInfo) : (s.raiseFatal x).faultRecord = s.faultRecord ++ [x] := rfl
@[simp] theorem State.raiseFatal_schedule (s : State) (x : FatalInfo) : (s.raiseFatal x).schedule = s.schedule := rfl
@[simp] theorem State.raiseFatal_tick (s : State) (x : FatalInfo) : (s.raiseFatal x).tick = s.tick := rfl

/-! ### setCmdPort -/

@[simp] theorem State.setCmdPort_params (s : State) (x : List Word) : (s.setCmdPort x).params = s.params := rfl
@[simp] theorem State.setCmdPort_run (s : State) (x : List Word) : (s.setCmdPort x).run = s.run := rfl
@[simp] theorem State.setCmdPort_mode (s : State) (x : List Word) : (s.setCmdPort x).mode = s.mode := rfl
@[simp] theorem State.setCmdPort_bright (s : State) (x : List Word) : (s.setCmdPort x).bright = s.bright := rfl
@[simp] theorem State.setCmdPort_viewX (s : State) (x : List Word) : (s.setCmdPort x).viewX = s.viewX := rfl
@[simp] theorem State.setCmdPort_viewY (s : State) (x : List Word) : (s.setCmdPort x).viewY = s.viewY := rfl
@[simp] theorem State.setCmdPort_isocErrors (s : State) (x : List Word) : (s.setCmdPort x).isocErrors = s.isocErrors := rfl
@[simp] theorem State.setCmdPort_dropped (s : State) (x : List Word) : (s.setCmdPort x).dropped = s.dropped := rfl
@[simp] theorem State.setCmdPort_dumped (s : State) (x : List Word) : (s.setCmdPort x).dumped = s.dumped := rfl
@[simp] theorem State.setCmdPort_streamError (s : State) (x : List Word) : (s.setCmdPort x).streamError = s.streamError := rfl
@[simp] theorem State.setCmdPort_fatal (s : State) (x : List Word) : (s.setCmdPort x).fatal = s.fatal := rfl
@[simp] theorem State.setCmdPort_pull (s : State) (x : List Word) : (s.setCmdPort x).pull = s.pull := rfl
@[simp] theorem State.setCmdPort_raw (s : State) (x : List Word) : (s.setCmdPort x).raw = s.raw := rfl
@[simp] theorem State.setCmdPort_out (s : State) (x : List Word) : (s.setCmdPort x).out = s.out := rfl
@[simp] theorem State.setCmdPort_cmdPort (s : State) (x : List Word) : (s.setCmdPort x).cmdPort = x := rfl
@[simp] theorem State.setCmdPort_ingestPort (s : State) (x : List Word) : (s.setCmdPort x).ingestPort = s.ingestPort := rfl
@[simp] theorem State.setCmdPort_xferRest (s : State) (x : List Word) : (s.setCmdPort x).xferRest = s.xferRest := rfl
@[simp] theorem State.setCmdPort_responses (s : State) (x : List Word) : (s.setCmdPort x).responses = s.responses := rfl
@[simp] theorem State.setCmdPort_faultRecord (s : State) (x : List Word) : (s.setCmdPort x).faultRecord = s.faultRecord := rfl
@[simp] theorem State.setCmdPort_schedule (s : State) (x : List Word) : (s.setCmdPort x).schedule = s.schedule := rfl
@[simp] theorem State.setCmdPort_tick (s : State) (x : List Word) : (s.setCmdPort x).tick = s.tick := rfl

/-! ### setIngestPort -/

@[simp] theorem State.setIngestPort_params (s : State) (x : List Word) : (s.setIngestPort x).params = s.params := rfl
@[simp] theorem State.setIngestPort_run (s : State) (x : List Word) : (s.setIngestPort x).run = s.run := rfl
@[simp] theorem State.setIngestPort_mode (s : State) (x : List Word) : (s.setIngestPort x).mode = s.mode := rfl
@[simp] theorem State.setIngestPort_bright (s : State) (x : List Word) : (s.setIngestPort x).bright = s.bright := rfl
@[simp] theorem State.setIngestPort_viewX (s : State) (x : List Word) : (s.setIngestPort x).viewX = s.viewX := rfl
@[simp] theorem State.setIngestPort_viewY (s : State) (x : List Word) : (s.setIngestPort x).viewY = s.viewY := rfl
@[simp] theorem State.setIngestPort_isocErrors (s : State) (x : List Word) : (s.setIngestPort x).isocErrors = s.isocErrors := rfl
@[simp] theorem State.setIngestPort_dropped (s : State) (x : List Word) : (s.setIngestPort x).dropped = s.dropped := rfl
@[simp] theorem State.setIngestPort_dumped (s : State) (x : List Word) : (s.setIngestPort x).dumped = s.dumped := rfl
@[simp] theorem State.setIngestPort_streamError (s : State) (x : List Word) : (s.setIngestPort x).streamError = s.streamError := rfl
@[simp] theorem State.setIngestPort_fatal (s : State) (x : List Word) : (s.setIngestPort x).fatal = s.fatal := rfl
@[simp] theorem State.setIngestPort_pull (s : State) (x : List Word) : (s.setIngestPort x).pull = s.pull := rfl
@[simp] theorem State.setIngestPort_raw (s : State) (x : List Word) : (s.setIngestPort x).raw = s.raw := rfl
@[simp] theorem State.setIngestPort_out (s : State) (x : List Word) : (s.setIngestPort x).out = s.out := rfl
@[simp] theorem State.setIngestPort_cmdPort (s : State) (x : List Word) : (s.setIngestPort x).cmdPort = s.cmdPort := rfl
@[simp] theorem State.setIngestPort_ingestPort (s : State) (x : List Word) : (s.setIngestPort x).ingestPort = x := rfl
@[simp] theorem State.setIngestPort_xferRest (s : State) (x : List Word) : (s.setIngestPort x).xferRest = s.xferRest := rfl
@[simp] theorem State.setIngestPort_responses (s : State) (x : List Word) : (s.setIngestPort x).responses = s.responses := rfl
@[simp] theorem State.setIngestPort_faultRecord (s : State) (x : List Word) : (s.setIngestPort x).faultRecord = s.faultRecord := rfl
@[simp] theorem State.setIngestPort_schedule (s : State) (x : List Word) : (s.setIngestPort x).schedule = s.schedule := rfl
@[simp] theorem State.setIngestPort_tick (s : State) (x : List Word) : (s.setIngestPort x).tick = s.tick := rfl

/-! ### setSchedule -/

@[simp] theorem State.setSchedule_params (s : State) (x : List Move) : (s.setSchedule x).params = s.params := rfl
@[simp] theorem State.setSchedule_run (s : State) (x : List Move) : (s.setSchedule x).run = s.run := rfl
@[simp] theorem State.setSchedule_mode (s : State) (x : List Move) : (s.setSchedule x).mode = s.mode := rfl
@[simp] theorem State.setSchedule_bright (s : State) (x : List Move) : (s.setSchedule x).bright = s.bright := rfl
@[simp] theorem State.setSchedule_viewX (s : State) (x : List Move) : (s.setSchedule x).viewX = s.viewX := rfl
@[simp] theorem State.setSchedule_viewY (s : State) (x : List Move) : (s.setSchedule x).viewY = s.viewY := rfl
@[simp] theorem State.setSchedule_isocErrors (s : State) (x : List Move) : (s.setSchedule x).isocErrors = s.isocErrors := rfl
@[simp] theorem State.setSchedule_dropped (s : State) (x : List Move) : (s.setSchedule x).dropped = s.dropped := rfl
@[simp] theorem State.setSchedule_dumped (s : State) (x : List Move) : (s.setSchedule x).dumped = s.dumped := rfl
@[simp] theorem State.setSchedule_streamError (s : State) (x : List Move) : (s.setSchedule x).streamError = s.streamError := rfl
@[simp] theorem State.setSchedule_fatal (s : State) (x : List Move) : (s.setSchedule x).fatal = s.fatal := rfl
@[simp] theorem State.setSchedule_pull (s : State) (x : List Move) : (s.setSchedule x).pull = s.pull := rfl
@[simp] theorem State.setSchedule_raw (s : State) (x : List Move) : (s.setSchedule x).raw = s.raw := rfl
@[simp] theorem State.setSchedule_out (s : State) (x : List Move) : (s.setSchedule x).out = s.out := rfl
@[simp] theorem State.setSchedule_cmdPort (s : State) (x : List Move) : (s.setSchedule x).cmdPort = s.cmdPort := rfl
@[simp] theorem State.setSchedule_ingestPort (s : State) (x : List Move) : (s.setSchedule x).ingestPort = s.ingestPort := rfl
@[simp] theorem State.setSchedule_xferRest (s : State) (x : List Move) : (s.setSchedule x).xferRest = s.xferRest := rfl
@[simp] theorem State.setSchedule_responses (s : State) (x : List Move) : (s.setSchedule x).responses = s.responses := rfl
@[simp] theorem State.setSchedule_faultRecord (s : State) (x : List Move) : (s.setSchedule x).faultRecord = s.faultRecord := rfl
@[simp] theorem State.setSchedule_schedule (s : State) (x : List Move) : (s.setSchedule x).schedule = x := rfl
@[simp] theorem State.setSchedule_tick (s : State) (x : List Move) : (s.setSchedule x).tick = s.tick := rfl

/-! ### nextTick -/

@[simp] theorem State.nextTick_params (s : State) : s.nextTick.params = s.params := rfl
@[simp] theorem State.nextTick_run (s : State) : s.nextTick.run = s.run := rfl
@[simp] theorem State.nextTick_mode (s : State) : s.nextTick.mode = s.mode := rfl
@[simp] theorem State.nextTick_bright (s : State) : s.nextTick.bright = s.bright := rfl
@[simp] theorem State.nextTick_viewX (s : State) : s.nextTick.viewX = s.viewX := rfl
@[simp] theorem State.nextTick_viewY (s : State) : s.nextTick.viewY = s.viewY := rfl
@[simp] theorem State.nextTick_isocErrors (s : State) : s.nextTick.isocErrors = s.isocErrors := rfl
@[simp] theorem State.nextTick_dropped (s : State) : s.nextTick.dropped = s.dropped := rfl
@[simp] theorem State.nextTick_dumped (s : State) : s.nextTick.dumped = s.dumped := rfl
@[simp] theorem State.nextTick_streamError (s : State) : s.nextTick.streamError = s.streamError := rfl
@[simp] theorem State.nextTick_fatal (s : State) : s.nextTick.fatal = s.fatal := rfl
@[simp] theorem State.nextTick_pull (s : State) : s.nextTick.pull = s.pull := rfl
@[simp] theorem State.nextTick_raw (s : State) : s.nextTick.raw = s.raw := rfl
@[simp] theorem State.nextTick_out (s : State) : s.nextTick.out = s.out := rfl
@[simp] theorem State.nextTick_cmdPort (s : State) : s.nextTick.cmdPort = s.cmdPort := rfl
@[simp] theorem State.nextTick_ingestPort (s : State) : s.nextTick.ingestPort = s.ingestPort := rfl
@[simp] theorem State.nextTick_xferRest (s : State) : s.nextTick.xferRest = s.xferRest := rfl
@[simp] theorem State.nextTick_responses (s : State) : s.nextTick.responses = s.responses := rfl
@[simp] theorem State.nextTick_faultRecord (s : State) : s.nextTick.faultRecord = s.faultRecord := rfl
@[simp] theorem State.nextTick_schedule (s : State) : s.nextTick.schedule = s.schedule := rfl
@[simp] theorem State.nextTick_tick (s : State) : s.nextTick.tick = s.tick + 1 := rfl

/-! ### Derived values an update does not touch -/

@[simp] theorem State.respond_poolSize (s : State) (op : BitVec 8) (st : Status) (v : Word) : (s.respond op st v).poolSize = s.poolSize := rfl
@[simp] theorem State.respond_cap (s : State) (op : BitVec 8) (st : Status) (v : Word) : (s.respond op st v).cap = s.cap := rfl
@[simp] theorem State.respond_nslots (s : State) (op : BitVec 8) (st : Status) (v : Word) : (s.respond op st v).nslots = s.nslots := rfl
@[simp] theorem State.respond_slotBytes (s : State) (op : BitVec 8) (st : Status) (v : Word) : (s.respond op st v).slotBytes = s.slotBytes := rfl
@[simp] theorem State.respond_outSize (s : State) (op : BitVec 8) (st : Status) (v : Word) : (s.respond op st v).outSize = s.outSize := rfl
@[simp] theorem State.respond_resEntry (s : State) (op : BitVec 8) (st : Status) (v : Word) : (s.respond op st v).resEntry = s.resEntry := rfl
@[simp] theorem State.respond_width (s : State) (op : BitVec 8) (st : Status) (v : Word) : (s.respond op st v).width = s.width := rfl
@[simp] theorem State.respond_height (s : State) (op : BitVec 8) (st : Status) (v : Word) : (s.respond op st v).height = s.height := rfl
@[simp] theorem State.respond_factor (s : State) (op : BitVec 8) (st : Status) (v : Word) : (s.respond op st v).factor = s.factor := rfl
@[simp] theorem State.respond_nwidth (s : State) (op : BitVec 8) (st : Status) (v : Word) : (s.respond op st v).nwidth = s.nwidth := rfl
@[simp] theorem State.respond_nheight (s : State) (op : BitVec 8) (st : Status) (v : Word) : (s.respond op st v).nheight = s.nheight := rfl
@[simp] theorem State.respond_vx (s : State) (op : BitVec 8) (st : Status) (v : Word) : (s.respond op st v).vx = s.vx := rfl
@[simp] theorem State.respond_vy (s : State) (op : BitVec 8) (st : Status) (v : Word) : (s.respond op st v).vy = s.vy := rfl
@[simp] theorem State.respond_bpp (s : State) (op : BitVec 8) (st : Status) (v : Word) : (s.respond op st v).bpp = s.bpp := rfl
@[simp] theorem State.respond_expectedBytes (s : State) (op : BitVec 8) (st : Status) (v : Word) : (s.respond op st v).expectedBytes = s.expectedBytes := rfl
@[simp] theorem State.respond_outBytes (s : State) (op : BitVec 8) (st : Status) (v : Word) : (s.respond op st v).outBytes = s.outBytes := rfl
@[simp] theorem State.respond_ox (s : State) (op : BitVec 8) (st : Status) (v : Word) : (s.respond op st v).ox = s.ox := rfl
@[simp] theorem State.respond_oy (s : State) (op : BitVec 8) (st : Status) (v : Word) : (s.respond op st v).oy = s.oy := rfl
@[simp] theorem State.respond_viewFits (s : State) (op : BitVec 8) (st : Status) (v : Word) : (s.respond op st v).viewFits = s.viewFits := rfl
@[simp] theorem State.respond_running (s : State) (op : BitVec 8) (st : Status) (v : Word) : (s.respond op st v).running = s.running := rfl
@[simp] theorem State.respond_pullPending (s : State) (op : BitVec 8) (st : Status) (v : Word) : (s.respond op st v).pullPending = s.pullPending := rfl
@[simp] theorem State.respond_fullList (s : State) (op : BitVec 8) (st : Status) (v : Word) : (s.respond op st v).fullList = s.fullList := rfl
@[simp] theorem State.respond_readRole (s : State) (op : BitVec 8) (st : Status) (v : Word) : (s.respond op st v).readRole = s.readRole := rfl

@[simp] theorem State.setRun_poolSize (s : State) (x : Run) : (s.setRun x).poolSize = s.poolSize := rfl
@[simp] theorem State.setRun_cap (s : State) (x : Run) : (s.setRun x).cap = s.cap := rfl
@[simp] theorem State.setRun_nslots (s : State) (x : Run) : (s.setRun x).nslots = s.nslots := rfl
@[simp] theorem State.setRun_slotBytes (s : State) (x : Run) : (s.setRun x).slotBytes = s.slotBytes := rfl
@[simp] theorem State.setRun_outSize (s : State) (x : Run) : (s.setRun x).outSize = s.outSize := rfl
@[simp] theorem State.setRun_resEntry (s : State) (x : Run) : (s.setRun x).resEntry = s.resEntry := rfl
@[simp] theorem State.setRun_width (s : State) (x : Run) : (s.setRun x).width = s.width := rfl
@[simp] theorem State.setRun_height (s : State) (x : Run) : (s.setRun x).height = s.height := rfl
@[simp] theorem State.setRun_factor (s : State) (x : Run) : (s.setRun x).factor = s.factor := rfl
@[simp] theorem State.setRun_nwidth (s : State) (x : Run) : (s.setRun x).nwidth = s.nwidth := rfl
@[simp] theorem State.setRun_nheight (s : State) (x : Run) : (s.setRun x).nheight = s.nheight := rfl
@[simp] theorem State.setRun_vx (s : State) (x : Run) : (s.setRun x).vx = s.vx := rfl
@[simp] theorem State.setRun_vy (s : State) (x : Run) : (s.setRun x).vy = s.vy := rfl
@[simp] theorem State.setRun_bpp (s : State) (x : Run) : (s.setRun x).bpp = s.bpp := rfl
@[simp] theorem State.setRun_expectedBytes (s : State) (x : Run) : (s.setRun x).expectedBytes = s.expectedBytes := rfl
@[simp] theorem State.setRun_outBytes (s : State) (x : Run) : (s.setRun x).outBytes = s.outBytes := rfl
@[simp] theorem State.setRun_ox (s : State) (x : Run) : (s.setRun x).ox = s.ox := rfl
@[simp] theorem State.setRun_oy (s : State) (x : Run) : (s.setRun x).oy = s.oy := rfl
@[simp] theorem State.setRun_viewFits (s : State) (x : Run) : (s.setRun x).viewFits = s.viewFits := rfl
@[simp] theorem State.setRun_pullPending (s : State) (x : Run) : (s.setRun x).pullPending = s.pullPending := rfl

@[simp] theorem State.setPool_poolSize (s : State) (x : Pool) : (s.setPool x).poolSize = s.poolSize := rfl
@[simp] theorem State.setPool_cap (s : State) (x : Pool) : (s.setPool x).cap = s.cap := rfl
@[simp] theorem State.setPool_nslots (s : State) (x : Pool) : (s.setPool x).nslots = s.nslots := rfl
@[simp] theorem State.setPool_slotBytes (s : State) (x : Pool) : (s.setPool x).slotBytes = s.slotBytes := rfl
@[simp] theorem State.setPool_outSize (s : State) (x : Pool) : (s.setPool x).outSize = s.outSize := rfl
@[simp] theorem State.setPool_resEntry (s : State) (x : Pool) : (s.setPool x).resEntry = s.resEntry := rfl
@[simp] theorem State.setPool_width (s : State) (x : Pool) : (s.setPool x).width = s.width := rfl
@[simp] theorem State.setPool_height (s : State) (x : Pool) : (s.setPool x).height = s.height := rfl
@[simp] theorem State.setPool_factor (s : State) (x : Pool) : (s.setPool x).factor = s.factor := rfl
@[simp] theorem State.setPool_nwidth (s : State) (x : Pool) : (s.setPool x).nwidth = s.nwidth := rfl
@[simp] theorem State.setPool_nheight (s : State) (x : Pool) : (s.setPool x).nheight = s.nheight := rfl
@[simp] theorem State.setPool_vx (s : State) (x : Pool) : (s.setPool x).vx = s.vx := rfl
@[simp] theorem State.setPool_vy (s : State) (x : Pool) : (s.setPool x).vy = s.vy := rfl
@[simp] theorem State.setPool_bpp (s : State) (x : Pool) : (s.setPool x).bpp = s.bpp := rfl
@[simp] theorem State.setPool_expectedBytes (s : State) (x : Pool) : (s.setPool x).expectedBytes = s.expectedBytes := rfl
@[simp] theorem State.setPool_outBytes (s : State) (x : Pool) : (s.setPool x).outBytes = s.outBytes := rfl
@[simp] theorem State.setPool_ox (s : State) (x : Pool) : (s.setPool x).ox = s.ox := rfl
@[simp] theorem State.setPool_oy (s : State) (x : Pool) : (s.setPool x).oy = s.oy := rfl
@[simp] theorem State.setPool_viewFits (s : State) (x : Pool) : (s.setPool x).viewFits = s.viewFits := rfl
@[simp] theorem State.setPool_pullPending (s : State) (x : Pool) : (s.setPool x).pullPending = s.pullPending := rfl

@[simp] theorem State.setPull_poolSize (s : State) (x : Pull) : (s.setPull x).poolSize = s.poolSize := rfl
@[simp] theorem State.setPull_cap (s : State) (x : Pull) : (s.setPull x).cap = s.cap := rfl
@[simp] theorem State.setPull_nslots (s : State) (x : Pull) : (s.setPull x).nslots = s.nslots := rfl
@[simp] theorem State.setPull_slotBytes (s : State) (x : Pull) : (s.setPull x).slotBytes = s.slotBytes := rfl
@[simp] theorem State.setPull_outSize (s : State) (x : Pull) : (s.setPull x).outSize = s.outSize := rfl
@[simp] theorem State.setPull_resEntry (s : State) (x : Pull) : (s.setPull x).resEntry = s.resEntry := rfl
@[simp] theorem State.setPull_width (s : State) (x : Pull) : (s.setPull x).width = s.width := rfl
@[simp] theorem State.setPull_height (s : State) (x : Pull) : (s.setPull x).height = s.height := rfl
@[simp] theorem State.setPull_factor (s : State) (x : Pull) : (s.setPull x).factor = s.factor := rfl
@[simp] theorem State.setPull_nwidth (s : State) (x : Pull) : (s.setPull x).nwidth = s.nwidth := rfl
@[simp] theorem State.setPull_nheight (s : State) (x : Pull) : (s.setPull x).nheight = s.nheight := rfl
@[simp] theorem State.setPull_vx (s : State) (x : Pull) : (s.setPull x).vx = s.vx := rfl
@[simp] theorem State.setPull_vy (s : State) (x : Pull) : (s.setPull x).vy = s.vy := rfl
@[simp] theorem State.setPull_bpp (s : State) (x : Pull) : (s.setPull x).bpp = s.bpp := rfl
@[simp] theorem State.setPull_expectedBytes (s : State) (x : Pull) : (s.setPull x).expectedBytes = s.expectedBytes := rfl
@[simp] theorem State.setPull_outBytes (s : State) (x : Pull) : (s.setPull x).outBytes = s.outBytes := rfl
@[simp] theorem State.setPull_ox (s : State) (x : Pull) : (s.setPull x).ox = s.ox := rfl
@[simp] theorem State.setPull_oy (s : State) (x : Pull) : (s.setPull x).oy = s.oy := rfl
@[simp] theorem State.setPull_viewFits (s : State) (x : Pull) : (s.setPull x).viewFits = s.viewFits := rfl
@[simp] theorem State.setPull_running (s : State) (x : Pull) : (s.setPull x).running = s.running := rfl
@[simp] theorem State.setPull_fullList (s : State) (x : Pull) : (s.setPull x).fullList = s.fullList := rfl
@[simp] theorem State.setPull_readRole (s : State) (x : Pull) : (s.setPull x).readRole = s.readRole := rfl

@[simp] theorem State.setMode_poolSize (s : State) (x : Mode) : (s.setMode x).poolSize = s.poolSize := rfl
@[simp] theorem State.setMode_cap (s : State) (x : Mode) : (s.setMode x).cap = s.cap := rfl
@[simp] theorem State.setMode_nslots (s : State) (x : Mode) : (s.setMode x).nslots = s.nslots := rfl
@[simp] theorem State.setMode_slotBytes (s : State) (x : Mode) : (s.setMode x).slotBytes = s.slotBytes := rfl
@[simp] theorem State.setMode_outSize (s : State) (x : Mode) : (s.setMode x).outSize = s.outSize := rfl
@[simp] theorem State.setMode_running (s : State) (x : Mode) : (s.setMode x).running = s.running := rfl
@[simp] theorem State.setMode_pullPending (s : State) (x : Mode) : (s.setMode x).pullPending = s.pullPending := rfl
@[simp] theorem State.setMode_fullList (s : State) (x : Mode) : (s.setMode x).fullList = s.fullList := rfl
@[simp] theorem State.setMode_readRole (s : State) (x : Mode) : (s.setMode x).readRole = s.readRole := rfl

@[simp] theorem State.setBright_poolSize (s : State) (x : BitVec 16) : (s.setBright x).poolSize = s.poolSize := rfl
@[simp] theorem State.setBright_cap (s : State) (x : BitVec 16) : (s.setBright x).cap = s.cap := rfl
@[simp] theorem State.setBright_nslots (s : State) (x : BitVec 16) : (s.setBright x).nslots = s.nslots := rfl
@[simp] theorem State.setBright_slotBytes (s : State) (x : BitVec 16) : (s.setBright x).slotBytes = s.slotBytes := rfl
@[simp] theorem State.setBright_outSize (s : State) (x : BitVec 16) : (s.setBright x).outSize = s.outSize := rfl
@[simp] theorem State.setBright_resEntry (s : State) (x : BitVec 16) : (s.setBright x).resEntry = s.resEntry := rfl
@[simp] theorem State.setBright_width (s : State) (x : BitVec 16) : (s.setBright x).width = s.width := rfl
@[simp] theorem State.setBright_height (s : State) (x : BitVec 16) : (s.setBright x).height = s.height := rfl
@[simp] theorem State.setBright_factor (s : State) (x : BitVec 16) : (s.setBright x).factor = s.factor := rfl
@[simp] theorem State.setBright_nwidth (s : State) (x : BitVec 16) : (s.setBright x).nwidth = s.nwidth := rfl
@[simp] theorem State.setBright_nheight (s : State) (x : BitVec 16) : (s.setBright x).nheight = s.nheight := rfl
@[simp] theorem State.setBright_vx (s : State) (x : BitVec 16) : (s.setBright x).vx = s.vx := rfl
@[simp] theorem State.setBright_vy (s : State) (x : BitVec 16) : (s.setBright x).vy = s.vy := rfl
@[simp] theorem State.setBright_bpp (s : State) (x : BitVec 16) : (s.setBright x).bpp = s.bpp := rfl
@[simp] theorem State.setBright_expectedBytes (s : State) (x : BitVec 16) : (s.setBright x).expectedBytes = s.expectedBytes := rfl
@[simp] theorem State.setBright_outBytes (s : State) (x : BitVec 16) : (s.setBright x).outBytes = s.outBytes := rfl
@[simp] theorem State.setBright_ox (s : State) (x : BitVec 16) : (s.setBright x).ox = s.ox := rfl
@[simp] theorem State.setBright_oy (s : State) (x : BitVec 16) : (s.setBright x).oy = s.oy := rfl
@[simp] theorem State.setBright_viewFits (s : State) (x : BitVec 16) : (s.setBright x).viewFits = s.viewFits := rfl
@[simp] theorem State.setBright_running (s : State) (x : BitVec 16) : (s.setBright x).running = s.running := rfl
@[simp] theorem State.setBright_pullPending (s : State) (x : BitVec 16) : (s.setBright x).pullPending = s.pullPending := rfl
@[simp] theorem State.setBright_fullList (s : State) (x : BitVec 16) : (s.setBright x).fullList = s.fullList := rfl
@[simp] theorem State.setBright_readRole (s : State) (x : BitVec 16) : (s.setBright x).readRole = s.readRole := rfl

@[simp] theorem State.setView_poolSize (s : State) (x y : BitVec 12) : (s.setView x y).poolSize = s.poolSize := rfl
@[simp] theorem State.setView_cap (s : State) (x y : BitVec 12) : (s.setView x y).cap = s.cap := rfl
@[simp] theorem State.setView_nslots (s : State) (x y : BitVec 12) : (s.setView x y).nslots = s.nslots := rfl
@[simp] theorem State.setView_slotBytes (s : State) (x y : BitVec 12) : (s.setView x y).slotBytes = s.slotBytes := rfl
@[simp] theorem State.setView_outSize (s : State) (x y : BitVec 12) : (s.setView x y).outSize = s.outSize := rfl
@[simp] theorem State.setView_resEntry (s : State) (x y : BitVec 12) : (s.setView x y).resEntry = s.resEntry := rfl
@[simp] theorem State.setView_width (s : State) (x y : BitVec 12) : (s.setView x y).width = s.width := rfl
@[simp] theorem State.setView_height (s : State) (x y : BitVec 12) : (s.setView x y).height = s.height := rfl
@[simp] theorem State.setView_factor (s : State) (x y : BitVec 12) : (s.setView x y).factor = s.factor := rfl
@[simp] theorem State.setView_nwidth (s : State) (x y : BitVec 12) : (s.setView x y).nwidth = s.nwidth := rfl
@[simp] theorem State.setView_nheight (s : State) (x y : BitVec 12) : (s.setView x y).nheight = s.nheight := rfl
@[simp] theorem State.setView_bpp (s : State) (x y : BitVec 12) : (s.setView x y).bpp = s.bpp := rfl
@[simp] theorem State.setView_expectedBytes (s : State) (x y : BitVec 12) : (s.setView x y).expectedBytes = s.expectedBytes := rfl
@[simp] theorem State.setView_running (s : State) (x y : BitVec 12) : (s.setView x y).running = s.running := rfl
@[simp] theorem State.setView_pullPending (s : State) (x y : BitVec 12) : (s.setView x y).pullPending = s.pullPending := rfl
@[simp] theorem State.setView_fullList (s : State) (x y : BitVec 12) : (s.setView x y).fullList = s.fullList := rfl
@[simp] theorem State.setView_readRole (s : State) (x y : BitVec 12) : (s.setView x y).readRole = s.readRole := rfl

@[simp] theorem State.setRaw_poolSize (s : State) (x : Mem) : (s.setRaw x).poolSize = s.poolSize := rfl
@[simp] theorem State.setRaw_cap (s : State) (x : Mem) : (s.setRaw x).cap = s.cap := rfl
@[simp] theorem State.setRaw_nslots (s : State) (x : Mem) : (s.setRaw x).nslots = s.nslots := rfl
@[simp] theorem State.setRaw_slotBytes (s : State) (x : Mem) : (s.setRaw x).slotBytes = s.slotBytes := rfl
@[simp] theorem State.setRaw_outSize (s : State) (x : Mem) : (s.setRaw x).outSize = s.outSize := rfl
@[simp] theorem State.setRaw_resEntry (s : State) (x : Mem) : (s.setRaw x).resEntry = s.resEntry := rfl
@[simp] theorem State.setRaw_width (s : State) (x : Mem) : (s.setRaw x).width = s.width := rfl
@[simp] theorem State.setRaw_height (s : State) (x : Mem) : (s.setRaw x).height = s.height := rfl
@[simp] theorem State.setRaw_factor (s : State) (x : Mem) : (s.setRaw x).factor = s.factor := rfl
@[simp] theorem State.setRaw_nwidth (s : State) (x : Mem) : (s.setRaw x).nwidth = s.nwidth := rfl
@[simp] theorem State.setRaw_nheight (s : State) (x : Mem) : (s.setRaw x).nheight = s.nheight := rfl
@[simp] theorem State.setRaw_vx (s : State) (x : Mem) : (s.setRaw x).vx = s.vx := rfl
@[simp] theorem State.setRaw_vy (s : State) (x : Mem) : (s.setRaw x).vy = s.vy := rfl
@[simp] theorem State.setRaw_bpp (s : State) (x : Mem) : (s.setRaw x).bpp = s.bpp := rfl
@[simp] theorem State.setRaw_expectedBytes (s : State) (x : Mem) : (s.setRaw x).expectedBytes = s.expectedBytes := rfl
@[simp] theorem State.setRaw_outBytes (s : State) (x : Mem) : (s.setRaw x).outBytes = s.outBytes := rfl
@[simp] theorem State.setRaw_ox (s : State) (x : Mem) : (s.setRaw x).ox = s.ox := rfl
@[simp] theorem State.setRaw_oy (s : State) (x : Mem) : (s.setRaw x).oy = s.oy := rfl
@[simp] theorem State.setRaw_viewFits (s : State) (x : Mem) : (s.setRaw x).viewFits = s.viewFits := rfl
@[simp] theorem State.setRaw_running (s : State) (x : Mem) : (s.setRaw x).running = s.running := rfl
@[simp] theorem State.setRaw_pullPending (s : State) (x : Mem) : (s.setRaw x).pullPending = s.pullPending := rfl
@[simp] theorem State.setRaw_fullList (s : State) (x : Mem) : (s.setRaw x).fullList = s.fullList := rfl
@[simp] theorem State.setRaw_readRole (s : State) (x : Mem) : (s.setRaw x).readRole = s.readRole := rfl

@[simp] theorem State.setOut_poolSize (s : State) (x : Mem) : (s.setOut x).poolSize = s.poolSize := rfl
@[simp] theorem State.setOut_cap (s : State) (x : Mem) : (s.setOut x).cap = s.cap := rfl
@[simp] theorem State.setOut_nslots (s : State) (x : Mem) : (s.setOut x).nslots = s.nslots := rfl
@[simp] theorem State.setOut_slotBytes (s : State) (x : Mem) : (s.setOut x).slotBytes = s.slotBytes := rfl
@[simp] theorem State.setOut_outSize (s : State) (x : Mem) : (s.setOut x).outSize = s.outSize := rfl
@[simp] theorem State.setOut_resEntry (s : State) (x : Mem) : (s.setOut x).resEntry = s.resEntry := rfl
@[simp] theorem State.setOut_width (s : State) (x : Mem) : (s.setOut x).width = s.width := rfl
@[simp] theorem State.setOut_height (s : State) (x : Mem) : (s.setOut x).height = s.height := rfl
@[simp] theorem State.setOut_factor (s : State) (x : Mem) : (s.setOut x).factor = s.factor := rfl
@[simp] theorem State.setOut_nwidth (s : State) (x : Mem) : (s.setOut x).nwidth = s.nwidth := rfl
@[simp] theorem State.setOut_nheight (s : State) (x : Mem) : (s.setOut x).nheight = s.nheight := rfl
@[simp] theorem State.setOut_vx (s : State) (x : Mem) : (s.setOut x).vx = s.vx := rfl
@[simp] theorem State.setOut_vy (s : State) (x : Mem) : (s.setOut x).vy = s.vy := rfl
@[simp] theorem State.setOut_bpp (s : State) (x : Mem) : (s.setOut x).bpp = s.bpp := rfl
@[simp] theorem State.setOut_expectedBytes (s : State) (x : Mem) : (s.setOut x).expectedBytes = s.expectedBytes := rfl
@[simp] theorem State.setOut_outBytes (s : State) (x : Mem) : (s.setOut x).outBytes = s.outBytes := rfl
@[simp] theorem State.setOut_ox (s : State) (x : Mem) : (s.setOut x).ox = s.ox := rfl
@[simp] theorem State.setOut_oy (s : State) (x : Mem) : (s.setOut x).oy = s.oy := rfl
@[simp] theorem State.setOut_viewFits (s : State) (x : Mem) : (s.setOut x).viewFits = s.viewFits := rfl
@[simp] theorem State.setOut_running (s : State) (x : Mem) : (s.setOut x).running = s.running := rfl
@[simp] theorem State.setOut_pullPending (s : State) (x : Mem) : (s.setOut x).pullPending = s.pullPending := rfl
@[simp] theorem State.setOut_fullList (s : State) (x : Mem) : (s.setOut x).fullList = s.fullList := rfl
@[simp] theorem State.setOut_readRole (s : State) (x : Mem) : (s.setOut x).readRole = s.readRole := rfl

@[simp] theorem State.setRest_poolSize (s : State) (x : List Packet) : (s.setRest x).poolSize = s.poolSize := rfl
@[simp] theorem State.setRest_cap (s : State) (x : List Packet) : (s.setRest x).cap = s.cap := rfl
@[simp] theorem State.setRest_nslots (s : State) (x : List Packet) : (s.setRest x).nslots = s.nslots := rfl
@[simp] theorem State.setRest_slotBytes (s : State) (x : List Packet) : (s.setRest x).slotBytes = s.slotBytes := rfl
@[simp] theorem State.setRest_outSize (s : State) (x : List Packet) : (s.setRest x).outSize = s.outSize := rfl
@[simp] theorem State.setRest_resEntry (s : State) (x : List Packet) : (s.setRest x).resEntry = s.resEntry := rfl
@[simp] theorem State.setRest_width (s : State) (x : List Packet) : (s.setRest x).width = s.width := rfl
@[simp] theorem State.setRest_height (s : State) (x : List Packet) : (s.setRest x).height = s.height := rfl
@[simp] theorem State.setRest_factor (s : State) (x : List Packet) : (s.setRest x).factor = s.factor := rfl
@[simp] theorem State.setRest_nwidth (s : State) (x : List Packet) : (s.setRest x).nwidth = s.nwidth := rfl
@[simp] theorem State.setRest_nheight (s : State) (x : List Packet) : (s.setRest x).nheight = s.nheight := rfl
@[simp] theorem State.setRest_vx (s : State) (x : List Packet) : (s.setRest x).vx = s.vx := rfl
@[simp] theorem State.setRest_vy (s : State) (x : List Packet) : (s.setRest x).vy = s.vy := rfl
@[simp] theorem State.setRest_bpp (s : State) (x : List Packet) : (s.setRest x).bpp = s.bpp := rfl
@[simp] theorem State.setRest_expectedBytes (s : State) (x : List Packet) : (s.setRest x).expectedBytes = s.expectedBytes := rfl
@[simp] theorem State.setRest_outBytes (s : State) (x : List Packet) : (s.setRest x).outBytes = s.outBytes := rfl
@[simp] theorem State.setRest_ox (s : State) (x : List Packet) : (s.setRest x).ox = s.ox := rfl
@[simp] theorem State.setRest_oy (s : State) (x : List Packet) : (s.setRest x).oy = s.oy := rfl
@[simp] theorem State.setRest_viewFits (s : State) (x : List Packet) : (s.setRest x).viewFits = s.viewFits := rfl
@[simp] theorem State.setRest_running (s : State) (x : List Packet) : (s.setRest x).running = s.running := rfl
@[simp] theorem State.setRest_pullPending (s : State) (x : List Packet) : (s.setRest x).pullPending = s.pullPending := rfl
@[simp] theorem State.setRest_fullList (s : State) (x : List Packet) : (s.setRest x).fullList = s.fullList := rfl
@[simp] theorem State.setRest_readRole (s : State) (x : List Packet) : (s.setRest x).readRole = s.readRole := rfl

@[simp] theorem State.countIsoc_poolSize (s : State) : s.countIsoc.poolSize = s.poolSize := rfl
@[simp] theorem State.countIsoc_cap (s : State) : s.countIsoc.cap = s.cap := rfl
@[simp] theorem State.countIsoc_nslots (s : State) : s.countIsoc.nslots = s.nslots := rfl
@[simp] theorem State.countIsoc_slotBytes (s : State) : s.countIsoc.slotBytes = s.slotBytes := rfl
@[simp] theorem State.countIsoc_outSize (s : State) : s.countIsoc.outSize = s.outSize := rfl
@[simp] theorem State.countIsoc_resEntry (s : State) : s.countIsoc.resEntry = s.resEntry := rfl
@[simp] theorem State.countIsoc_width (s : State) : s.countIsoc.width = s.width := rfl
@[simp] theorem State.countIsoc_height (s : State) : s.countIsoc.height = s.height := rfl
@[simp] theorem State.countIsoc_factor (s : State) : s.countIsoc.factor = s.factor := rfl
@[simp] theorem State.countIsoc_nwidth (s : State) : s.countIsoc.nwidth = s.nwidth := rfl
@[simp] theorem State.countIsoc_nheight (s : State) : s.countIsoc.nheight = s.nheight := rfl
@[simp] theorem State.countIsoc_vx (s : State) : s.countIsoc.vx = s.vx := rfl
@[simp] theorem State.countIsoc_vy (s : State) : s.countIsoc.vy = s.vy := rfl
@[simp] theorem State.countIsoc_bpp (s : State) : s.countIsoc.bpp = s.bpp := rfl
@[simp] theorem State.countIsoc_expectedBytes (s : State) : s.countIsoc.expectedBytes = s.expectedBytes := rfl
@[simp] theorem State.countIsoc_outBytes (s : State) : s.countIsoc.outBytes = s.outBytes := rfl
@[simp] theorem State.countIsoc_ox (s : State) : s.countIsoc.ox = s.ox := rfl
@[simp] theorem State.countIsoc_oy (s : State) : s.countIsoc.oy = s.oy := rfl
@[simp] theorem State.countIsoc_viewFits (s : State) : s.countIsoc.viewFits = s.viewFits := rfl
@[simp] theorem State.countIsoc_running (s : State) : s.countIsoc.running = s.running := rfl
@[simp] theorem State.countIsoc_pullPending (s : State) : s.countIsoc.pullPending = s.pullPending := rfl
@[simp] theorem State.countIsoc_fullList (s : State) : s.countIsoc.fullList = s.fullList := rfl
@[simp] theorem State.countIsoc_readRole (s : State) : s.countIsoc.readRole = s.readRole := rfl

@[simp] theorem State.countDropped_poolSize (s : State) : s.countDropped.poolSize = s.poolSize := rfl
@[simp] theorem State.countDropped_cap (s : State) : s.countDropped.cap = s.cap := rfl
@[simp] theorem State.countDropped_nslots (s : State) : s.countDropped.nslots = s.nslots := rfl
@[simp] theorem State.countDropped_slotBytes (s : State) : s.countDropped.slotBytes = s.slotBytes := rfl
@[simp] theorem State.countDropped_outSize (s : State) : s.countDropped.outSize = s.outSize := rfl
@[simp] theorem State.countDropped_resEntry (s : State) : s.countDropped.resEntry = s.resEntry := rfl
@[simp] theorem State.countDropped_width (s : State) : s.countDropped.width = s.width := rfl
@[simp] theorem State.countDropped_height (s : State) : s.countDropped.height = s.height := rfl
@[simp] theorem State.countDropped_factor (s : State) : s.countDropped.factor = s.factor := rfl
@[simp] theorem State.countDropped_nwidth (s : State) : s.countDropped.nwidth = s.nwidth := rfl
@[simp] theorem State.countDropped_nheight (s : State) : s.countDropped.nheight = s.nheight := rfl
@[simp] theorem State.countDropped_vx (s : State) : s.countDropped.vx = s.vx := rfl
@[simp] theorem State.countDropped_vy (s : State) : s.countDropped.vy = s.vy := rfl
@[simp] theorem State.countDropped_bpp (s : State) : s.countDropped.bpp = s.bpp := rfl
@[simp] theorem State.countDropped_expectedBytes (s : State) : s.countDropped.expectedBytes = s.expectedBytes := rfl
@[simp] theorem State.countDropped_outBytes (s : State) : s.countDropped.outBytes = s.outBytes := rfl
@[simp] theorem State.countDropped_ox (s : State) : s.countDropped.ox = s.ox := rfl
@[simp] theorem State.countDropped_oy (s : State) : s.countDropped.oy = s.oy := rfl
@[simp] theorem State.countDropped_viewFits (s : State) : s.countDropped.viewFits = s.viewFits := rfl
@[simp] theorem State.countDropped_running (s : State) : s.countDropped.running = s.running := rfl
@[simp] theorem State.countDropped_pullPending (s : State) : s.countDropped.pullPending = s.pullPending := rfl
@[simp] theorem State.countDropped_fullList (s : State) : s.countDropped.fullList = s.fullList := rfl
@[simp] theorem State.countDropped_readRole (s : State) : s.countDropped.readRole = s.readRole := rfl

@[simp] theorem State.countDumped_poolSize (s : State) : s.countDumped.poolSize = s.poolSize := rfl
@[simp] theorem State.countDumped_cap (s : State) : s.countDumped.cap = s.cap := rfl
@[simp] theorem State.countDumped_nslots (s : State) : s.countDumped.nslots = s.nslots := rfl
@[simp] theorem State.countDumped_slotBytes (s : State) : s.countDumped.slotBytes = s.slotBytes := rfl
@[simp] theorem State.countDumped_outSize (s : State) : s.countDumped.outSize = s.outSize := rfl
@[simp] theorem State.countDumped_resEntry (s : State) : s.countDumped.resEntry = s.resEntry := rfl
@[simp] theorem State.countDumped_width (s : State) : s.countDumped.width = s.width := rfl
@[simp] theorem State.countDumped_height (s : State) : s.countDumped.height = s.height := rfl
@[simp] theorem State.countDumped_factor (s : State) : s.countDumped.factor = s.factor := rfl
@[simp] theorem State.countDumped_nwidth (s : State) : s.countDumped.nwidth = s.nwidth := rfl
@[simp] theorem State.countDumped_nheight (s : State) : s.countDumped.nheight = s.nheight := rfl
@[simp] theorem State.countDumped_vx (s : State) : s.countDumped.vx = s.vx := rfl
@[simp] theorem State.countDumped_vy (s : State) : s.countDumped.vy = s.vy := rfl
@[simp] theorem State.countDumped_bpp (s : State) : s.countDumped.bpp = s.bpp := rfl
@[simp] theorem State.countDumped_expectedBytes (s : State) : s.countDumped.expectedBytes = s.expectedBytes := rfl
@[simp] theorem State.countDumped_outBytes (s : State) : s.countDumped.outBytes = s.outBytes := rfl
@[simp] theorem State.countDumped_ox (s : State) : s.countDumped.ox = s.ox := rfl
@[simp] theorem State.countDumped_oy (s : State) : s.countDumped.oy = s.oy := rfl
@[simp] theorem State.countDumped_viewFits (s : State) : s.countDumped.viewFits = s.viewFits := rfl
@[simp] theorem State.countDumped_running (s : State) : s.countDumped.running = s.running := rfl
@[simp] theorem State.countDumped_pullPending (s : State) : s.countDumped.pullPending = s.pullPending := rfl
@[simp] theorem State.countDumped_fullList (s : State) : s.countDumped.fullList = s.fullList := rfl
@[simp] theorem State.countDumped_readRole (s : State) : s.countDumped.readRole = s.readRole := rfl

@[simp] theorem State.setStreamError_poolSize (s : State) : s.setStreamError.poolSize = s.poolSize := rfl
@[simp] theorem State.setStreamError_cap (s : State) : s.setStreamError.cap = s.cap := rfl
@[simp] theorem State.setStreamError_nslots (s : State) : s.setStreamError.nslots = s.nslots := rfl
@[simp] theorem State.setStreamError_slotBytes (s : State) : s.setStreamError.slotBytes = s.slotBytes := rfl
@[simp] theorem State.setStreamError_outSize (s : State) : s.setStreamError.outSize = s.outSize := rfl
@[simp] theorem State.setStreamError_resEntry (s : State) : s.setStreamError.resEntry = s.resEntry := rfl
@[simp] theorem State.setStreamError_width (s : State) : s.setStreamError.width = s.width := rfl
@[simp] theorem State.setStreamError_height (s : State) : s.setStreamError.height = s.height := rfl
@[simp] theorem State.setStreamError_factor (s : State) : s.setStreamError.factor = s.factor := rfl
@[simp] theorem State.setStreamError_nwidth (s : State) : s.setStreamError.nwidth = s.nwidth := rfl
@[simp] theorem State.setStreamError_nheight (s : State) : s.setStreamError.nheight = s.nheight := rfl
@[simp] theorem State.setStreamError_vx (s : State) : s.setStreamError.vx = s.vx := rfl
@[simp] theorem State.setStreamError_vy (s : State) : s.setStreamError.vy = s.vy := rfl
@[simp] theorem State.setStreamError_bpp (s : State) : s.setStreamError.bpp = s.bpp := rfl
@[simp] theorem State.setStreamError_expectedBytes (s : State) : s.setStreamError.expectedBytes = s.expectedBytes := rfl
@[simp] theorem State.setStreamError_outBytes (s : State) : s.setStreamError.outBytes = s.outBytes := rfl
@[simp] theorem State.setStreamError_ox (s : State) : s.setStreamError.ox = s.ox := rfl
@[simp] theorem State.setStreamError_oy (s : State) : s.setStreamError.oy = s.oy := rfl
@[simp] theorem State.setStreamError_viewFits (s : State) : s.setStreamError.viewFits = s.viewFits := rfl
@[simp] theorem State.setStreamError_running (s : State) : s.setStreamError.running = s.running := rfl
@[simp] theorem State.setStreamError_pullPending (s : State) : s.setStreamError.pullPending = s.pullPending := rfl
@[simp] theorem State.setStreamError_fullList (s : State) : s.setStreamError.fullList = s.fullList := rfl
@[simp] theorem State.setStreamError_readRole (s : State) : s.setStreamError.readRole = s.readRole := rfl

@[simp] theorem State.clearStream_poolSize (s : State) : s.clearStream.poolSize = s.poolSize := rfl
@[simp] theorem State.clearStream_cap (s : State) : s.clearStream.cap = s.cap := rfl
@[simp] theorem State.clearStream_nslots (s : State) : s.clearStream.nslots = s.nslots := rfl
@[simp] theorem State.clearStream_slotBytes (s : State) : s.clearStream.slotBytes = s.slotBytes := rfl
@[simp] theorem State.clearStream_outSize (s : State) : s.clearStream.outSize = s.outSize := rfl
@[simp] theorem State.clearStream_resEntry (s : State) : s.clearStream.resEntry = s.resEntry := rfl
@[simp] theorem State.clearStream_width (s : State) : s.clearStream.width = s.width := rfl
@[simp] theorem State.clearStream_height (s : State) : s.clearStream.height = s.height := rfl
@[simp] theorem State.clearStream_factor (s : State) : s.clearStream.factor = s.factor := rfl
@[simp] theorem State.clearStream_nwidth (s : State) : s.clearStream.nwidth = s.nwidth := rfl
@[simp] theorem State.clearStream_nheight (s : State) : s.clearStream.nheight = s.nheight := rfl
@[simp] theorem State.clearStream_vx (s : State) : s.clearStream.vx = s.vx := rfl
@[simp] theorem State.clearStream_vy (s : State) : s.clearStream.vy = s.vy := rfl
@[simp] theorem State.clearStream_bpp (s : State) : s.clearStream.bpp = s.bpp := rfl
@[simp] theorem State.clearStream_expectedBytes (s : State) : s.clearStream.expectedBytes = s.expectedBytes := rfl
@[simp] theorem State.clearStream_outBytes (s : State) : s.clearStream.outBytes = s.outBytes := rfl
@[simp] theorem State.clearStream_ox (s : State) : s.clearStream.ox = s.ox := rfl
@[simp] theorem State.clearStream_oy (s : State) : s.clearStream.oy = s.oy := rfl
@[simp] theorem State.clearStream_viewFits (s : State) : s.clearStream.viewFits = s.viewFits := rfl
@[simp] theorem State.clearStream_running (s : State) : s.clearStream.running = s.running := rfl
@[simp] theorem State.clearStream_pullPending (s : State) : s.clearStream.pullPending = s.pullPending := rfl
@[simp] theorem State.clearStream_fullList (s : State) : s.clearStream.fullList = s.fullList := rfl
@[simp] theorem State.clearStream_readRole (s : State) : s.clearStream.readRole = s.readRole := rfl

@[simp] theorem State.raiseFatal_poolSize (s : State) (x : FatalInfo) : (s.raiseFatal x).poolSize = s.poolSize := rfl
@[simp] theorem State.raiseFatal_cap (s : State) (x : FatalInfo) : (s.raiseFatal x).cap = s.cap := rfl
@[simp] theorem State.raiseFatal_nslots (s : State) (x : FatalInfo) : (s.raiseFatal x).nslots = s.nslots := rfl
@[simp] theorem State.raiseFatal_slotBytes (s : State) (x : FatalInfo) : (s.raiseFatal x).slotBytes = s.slotBytes := rfl
@[simp] theorem State.raiseFatal_outSize (s : State) (x : FatalInfo) : (s.raiseFatal x).outSize = s.outSize := rfl
@[simp] theorem State.raiseFatal_resEntry (s : State) (x : FatalInfo) : (s.raiseFatal x).resEntry = s.resEntry := rfl
@[simp] theorem State.raiseFatal_width (s : State) (x : FatalInfo) : (s.raiseFatal x).width = s.width := rfl
@[simp] theorem State.raiseFatal_height (s : State) (x : FatalInfo) : (s.raiseFatal x).height = s.height := rfl
@[simp] theorem State.raiseFatal_factor (s : State) (x : FatalInfo) : (s.raiseFatal x).factor = s.factor := rfl
@[simp] theorem State.raiseFatal_nwidth (s : State) (x : FatalInfo) : (s.raiseFatal x).nwidth = s.nwidth := rfl
@[simp] theorem State.raiseFatal_nheight (s : State) (x : FatalInfo) : (s.raiseFatal x).nheight = s.nheight := rfl
@[simp] theorem State.raiseFatal_vx (s : State) (x : FatalInfo) : (s.raiseFatal x).vx = s.vx := rfl
@[simp] theorem State.raiseFatal_vy (s : State) (x : FatalInfo) : (s.raiseFatal x).vy = s.vy := rfl
@[simp] theorem State.raiseFatal_bpp (s : State) (x : FatalInfo) : (s.raiseFatal x).bpp = s.bpp := rfl
@[simp] theorem State.raiseFatal_expectedBytes (s : State) (x : FatalInfo) : (s.raiseFatal x).expectedBytes = s.expectedBytes := rfl
@[simp] theorem State.raiseFatal_outBytes (s : State) (x : FatalInfo) : (s.raiseFatal x).outBytes = s.outBytes := rfl
@[simp] theorem State.raiseFatal_ox (s : State) (x : FatalInfo) : (s.raiseFatal x).ox = s.ox := rfl
@[simp] theorem State.raiseFatal_oy (s : State) (x : FatalInfo) : (s.raiseFatal x).oy = s.oy := rfl
@[simp] theorem State.raiseFatal_viewFits (s : State) (x : FatalInfo) : (s.raiseFatal x).viewFits = s.viewFits := rfl
@[simp] theorem State.raiseFatal_running (s : State) (x : FatalInfo) : (s.raiseFatal x).running = s.running := rfl
@[simp] theorem State.raiseFatal_pullPending (s : State) (x : FatalInfo) : (s.raiseFatal x).pullPending = s.pullPending := rfl
@[simp] theorem State.raiseFatal_fullList (s : State) (x : FatalInfo) : (s.raiseFatal x).fullList = s.fullList := rfl
@[simp] theorem State.raiseFatal_readRole (s : State) (x : FatalInfo) : (s.raiseFatal x).readRole = s.readRole := rfl

@[simp] theorem State.setCmdPort_poolSize (s : State) (x : List Word) : (s.setCmdPort x).poolSize = s.poolSize := rfl
@[simp] theorem State.setCmdPort_cap (s : State) (x : List Word) : (s.setCmdPort x).cap = s.cap := rfl
@[simp] theorem State.setCmdPort_nslots (s : State) (x : List Word) : (s.setCmdPort x).nslots = s.nslots := rfl
@[simp] theorem State.setCmdPort_slotBytes (s : State) (x : List Word) : (s.setCmdPort x).slotBytes = s.slotBytes := rfl
@[simp] theorem State.setCmdPort_outSize (s : State) (x : List Word) : (s.setCmdPort x).outSize = s.outSize := rfl
@[simp] theorem State.setCmdPort_resEntry (s : State) (x : List Word) : (s.setCmdPort x).resEntry = s.resEntry := rfl
@[simp] theorem State.setCmdPort_width (s : State) (x : List Word) : (s.setCmdPort x).width = s.width := rfl
@[simp] theorem State.setCmdPort_height (s : State) (x : List Word) : (s.setCmdPort x).height = s.height := rfl
@[simp] theorem State.setCmdPort_factor (s : State) (x : List Word) : (s.setCmdPort x).factor = s.factor := rfl
@[simp] theorem State.setCmdPort_nwidth (s : State) (x : List Word) : (s.setCmdPort x).nwidth = s.nwidth := rfl
@[simp] theorem State.setCmdPort_nheight (s : State) (x : List Word) : (s.setCmdPort x).nheight = s.nheight := rfl
@[simp] theorem State.setCmdPort_vx (s : State) (x : List Word) : (s.setCmdPort x).vx = s.vx := rfl
@[simp] theorem State.setCmdPort_vy (s : State) (x : List Word) : (s.setCmdPort x).vy = s.vy := rfl
@[simp] theorem State.setCmdPort_bpp (s : State) (x : List Word) : (s.setCmdPort x).bpp = s.bpp := rfl
@[simp] theorem State.setCmdPort_expectedBytes (s : State) (x : List Word) : (s.setCmdPort x).expectedBytes = s.expectedBytes := rfl
@[simp] theorem State.setCmdPort_outBytes (s : State) (x : List Word) : (s.setCmdPort x).outBytes = s.outBytes := rfl
@[simp] theorem State.setCmdPort_ox (s : State) (x : List Word) : (s.setCmdPort x).ox = s.ox := rfl
@[simp] theorem State.setCmdPort_oy (s : State) (x : List Word) : (s.setCmdPort x).oy = s.oy := rfl
@[simp] theorem State.setCmdPort_viewFits (s : State) (x : List Word) : (s.setCmdPort x).viewFits = s.viewFits := rfl
@[simp] theorem State.setCmdPort_running (s : State) (x : List Word) : (s.setCmdPort x).running = s.running := rfl
@[simp] theorem State.setCmdPort_pullPending (s : State) (x : List Word) : (s.setCmdPort x).pullPending = s.pullPending := rfl
@[simp] theorem State.setCmdPort_fullList (s : State) (x : List Word) : (s.setCmdPort x).fullList = s.fullList := rfl
@[simp] theorem State.setCmdPort_readRole (s : State) (x : List Word) : (s.setCmdPort x).readRole = s.readRole := rfl

@[simp] theorem State.setIngestPort_poolSize (s : State) (x : List Word) : (s.setIngestPort x).poolSize = s.poolSize := rfl
@[simp] theorem State.setIngestPort_cap (s : State) (x : List Word) : (s.setIngestPort x).cap = s.cap := rfl
@[simp] theorem State.setIngestPort_nslots (s : State) (x : List Word) : (s.setIngestPort x).nslots = s.nslots := rfl
@[simp] theorem State.setIngestPort_slotBytes (s : State) (x : List Word) : (s.setIngestPort x).slotBytes = s.slotBytes := rfl
@[simp] theorem State.setIngestPort_outSize (s : State) (x : List Word) : (s.setIngestPort x).outSize = s.outSize := rfl
@[simp] theorem State.setIngestPort_resEntry (s : State) (x : List Word) : (s.setIngestPort x).resEntry = s.resEntry := rfl
@[simp] theorem State.setIngestPort_width (s : State) (x : List Word) : (s.setIngestPort x).width = s.width := rfl
@[simp] theorem State.setIngestPort_height (s : State) (x : List Word) : (s.setIngestPort x).height = s.height := rfl
@[simp] theorem State.setIngestPort_factor (s : State) (x : List Word) : (s.setIngestPort x).factor = s.factor := rfl
@[simp] theorem State.setIngestPort_nwidth (s : State) (x : List Word) : (s.setIngestPort x).nwidth = s.nwidth := rfl
@[simp] theorem State.setIngestPort_nheight (s : State) (x : List Word) : (s.setIngestPort x).nheight = s.nheight := rfl
@[simp] theorem State.setIngestPort_vx (s : State) (x : List Word) : (s.setIngestPort x).vx = s.vx := rfl
@[simp] theorem State.setIngestPort_vy (s : State) (x : List Word) : (s.setIngestPort x).vy = s.vy := rfl
@[simp] theorem State.setIngestPort_bpp (s : State) (x : List Word) : (s.setIngestPort x).bpp = s.bpp := rfl
@[simp] theorem State.setIngestPort_expectedBytes (s : State) (x : List Word) : (s.setIngestPort x).expectedBytes = s.expectedBytes := rfl
@[simp] theorem State.setIngestPort_outBytes (s : State) (x : List Word) : (s.setIngestPort x).outBytes = s.outBytes := rfl
@[simp] theorem State.setIngestPort_ox (s : State) (x : List Word) : (s.setIngestPort x).ox = s.ox := rfl
@[simp] theorem State.setIngestPort_oy (s : State) (x : List Word) : (s.setIngestPort x).oy = s.oy := rfl
@[simp] theorem State.setIngestPort_viewFits (s : State) (x : List Word) : (s.setIngestPort x).viewFits = s.viewFits := rfl
@[simp] theorem State.setIngestPort_running (s : State) (x : List Word) : (s.setIngestPort x).running = s.running := rfl
@[simp] theorem State.setIngestPort_pullPending (s : State) (x : List Word) : (s.setIngestPort x).pullPending = s.pullPending := rfl
@[simp] theorem State.setIngestPort_fullList (s : State) (x : List Word) : (s.setIngestPort x).fullList = s.fullList := rfl
@[simp] theorem State.setIngestPort_readRole (s : State) (x : List Word) : (s.setIngestPort x).readRole = s.readRole := rfl

@[simp] theorem State.setSchedule_poolSize (s : State) (x : List Move) : (s.setSchedule x).poolSize = s.poolSize := rfl
@[simp] theorem State.setSchedule_cap (s : State) (x : List Move) : (s.setSchedule x).cap = s.cap := rfl
@[simp] theorem State.setSchedule_nslots (s : State) (x : List Move) : (s.setSchedule x).nslots = s.nslots := rfl
@[simp] theorem State.setSchedule_slotBytes (s : State) (x : List Move) : (s.setSchedule x).slotBytes = s.slotBytes := rfl
@[simp] theorem State.setSchedule_outSize (s : State) (x : List Move) : (s.setSchedule x).outSize = s.outSize := rfl
@[simp] theorem State.setSchedule_resEntry (s : State) (x : List Move) : (s.setSchedule x).resEntry = s.resEntry := rfl
@[simp] theorem State.setSchedule_width (s : State) (x : List Move) : (s.setSchedule x).width = s.width := rfl
@[simp] theorem State.setSchedule_height (s : State) (x : List Move) : (s.setSchedule x).height = s.height := rfl
@[simp] theorem State.setSchedule_factor (s : State) (x : List Move) : (s.setSchedule x).factor = s.factor := rfl
@[simp] theorem State.setSchedule_nwidth (s : State) (x : List Move) : (s.setSchedule x).nwidth = s.nwidth := rfl
@[simp] theorem State.setSchedule_nheight (s : State) (x : List Move) : (s.setSchedule x).nheight = s.nheight := rfl
@[simp] theorem State.setSchedule_vx (s : State) (x : List Move) : (s.setSchedule x).vx = s.vx := rfl
@[simp] theorem State.setSchedule_vy (s : State) (x : List Move) : (s.setSchedule x).vy = s.vy := rfl
@[simp] theorem State.setSchedule_bpp (s : State) (x : List Move) : (s.setSchedule x).bpp = s.bpp := rfl
@[simp] theorem State.setSchedule_expectedBytes (s : State) (x : List Move) : (s.setSchedule x).expectedBytes = s.expectedBytes := rfl
@[simp] theorem State.setSchedule_outBytes (s : State) (x : List Move) : (s.setSchedule x).outBytes = s.outBytes := rfl
@[simp] theorem State.setSchedule_ox (s : State) (x : List Move) : (s.setSchedule x).ox = s.ox := rfl
@[simp] theorem State.setSchedule_oy (s : State) (x : List Move) : (s.setSchedule x).oy = s.oy := rfl
@[simp] theorem State.setSchedule_viewFits (s : State) (x : List Move) : (s.setSchedule x).viewFits = s.viewFits := rfl
@[simp] theorem State.setSchedule_running (s : State) (x : List Move) : (s.setSchedule x).running = s.running := rfl
@[simp] theorem State.setSchedule_pullPending (s : State) (x : List Move) : (s.setSchedule x).pullPending = s.pullPending := rfl
@[simp] theorem State.setSchedule_fullList (s : State) (x : List Move) : (s.setSchedule x).fullList = s.fullList := rfl
@[simp] theorem State.setSchedule_readRole (s : State) (x : List Move) : (s.setSchedule x).readRole = s.readRole := rfl

@[simp] theorem State.nextTick_poolSize (s : State) : s.nextTick.poolSize = s.poolSize := rfl
@[simp] theorem State.nextTick_cap (s : State) : s.nextTick.cap = s.cap := rfl
@[simp] theorem State.nextTick_nslots (s : State) : s.nextTick.nslots = s.nslots := rfl
@[simp] theorem State.nextTick_slotBytes (s : State) : s.nextTick.slotBytes = s.slotBytes := rfl
@[simp] theorem State.nextTick_outSize (s : State) : s.nextTick.outSize = s.outSize := rfl
@[simp] theorem State.nextTick_resEntry (s : State) : s.nextTick.resEntry = s.resEntry := rfl
@[simp] theorem State.nextTick_width (s : State) : s.nextTick.width = s.width := rfl
@[simp] theorem State.nextTick_height (s : State) : s.nextTick.height = s.height := rfl
@[simp] theorem State.nextTick_factor (s : State) : s.nextTick.factor = s.factor := rfl
@[simp] theorem State.nextTick_nwidth (s : State) : s.nextTick.nwidth = s.nwidth := rfl
@[simp] theorem State.nextTick_nheight (s : State) : s.nextTick.nheight = s.nheight := rfl
@[simp] theorem State.nextTick_vx (s : State) : s.nextTick.vx = s.vx := rfl
@[simp] theorem State.nextTick_vy (s : State) : s.nextTick.vy = s.vy := rfl
@[simp] theorem State.nextTick_bpp (s : State) : s.nextTick.bpp = s.bpp := rfl
@[simp] theorem State.nextTick_expectedBytes (s : State) : s.nextTick.expectedBytes = s.expectedBytes := rfl
@[simp] theorem State.nextTick_outBytes (s : State) : s.nextTick.outBytes = s.outBytes := rfl
@[simp] theorem State.nextTick_ox (s : State) : s.nextTick.ox = s.ox := rfl
@[simp] theorem State.nextTick_oy (s : State) : s.nextTick.oy = s.oy := rfl
@[simp] theorem State.nextTick_viewFits (s : State) : s.nextTick.viewFits = s.viewFits := rfl
@[simp] theorem State.nextTick_running (s : State) : s.nextTick.running = s.running := rfl
@[simp] theorem State.nextTick_pullPending (s : State) : s.nextTick.pullPending = s.pullPending := rfl
@[simp] theorem State.nextTick_fullList (s : State) : s.nextTick.fullList = s.fullList := rfl
@[simp] theorem State.nextTick_readRole (s : State) : s.nextTick.readRole = s.readRole := rfl

/-! ### The run state and the pool -/

@[simp] theorem State.setPool_running (s : State) (x : Pool) : (s.setPool x).running = true := rfl
@[simp] theorem State.setPool_fullList (s : State) (x : Pool) : (s.setPool x).fullList = x.full := rfl
@[simp] theorem State.setPool_readRole (s : State) (x : Pool) : (s.setPool x).readRole = x.read := rfl

theorem State.running_iff (s : State) : s.running = true ↔ ∃ pool, s.run = .running pool := by
  unfold State.running
  cases s.run <;> simp

theorem State.running_of_run (s : State) (pool : Pool) (h : s.run = .running pool) : s.running = true := by
  simp [State.running, h]

theorem State.not_running_of_run (s : State) (h : s.run = .stopped) : s.running = false := by
  simp [State.running, h]

theorem State.not_pending_iff (s : State) : s.pullPending = false ↔ s.pull = .noPull := by
  unfold State.pullPending
  cases s.pull <;> simp

theorem State.fullList_of_run (s : State) (pool : Pool) (h : s.run = .running pool) : s.fullList = pool.full := by
  simp [State.fullList, h]

theorem State.readRole_of_run (s : State) (pool : Pool) (h : s.run = .running pool) : s.readRole = pool.read := by
  simp [State.readRole, h]

end Sys2Proof.Machine
end

