-- ==== Sys2Proof/Laws/Ops.lean ====
section
/-!
SUPPORT. One lemma per shared operation that says everything it can do.
-/
namespace Sys2Proof.Machine

/-! ## Acceptance -/

theorem unlessBusy_idle (op : BitVec 8) (s : State) (own : Host.Outcome State Fault Refusal)
    (h : s.pullPending = false) : unlessBusy op s own = own := by
  simp [unlessBusy, h]

theorem unlessBusy_pending (op : BitVec 8) (s : State) (own : Host.Outcome State Fault Refusal)
    (h : s.pullPending = true) : unlessBusy op s own = .next (s.respond op .busy 0) := by
  simp [unlessBusy, h, answer]

/-- A command's next state is the BUSY answer with a pull pending, or its own rule's. -/
theorem unlessBusy_next (op : BitVec 8) (s t : State) (own : Host.Outcome State Fault Refusal)
    (h : unlessBusy op s own = .next t) :
    (s.pullPending = true ∧ t = s.respond op .busy 0) ∨ (s.pullPending = false ∧ own = .next t) := by
  unfold unlessBusy answer at h
  split at h
  · next hp => exact .inl ⟨hp, by cases h; rfl⟩
  · next hp => exact .inr ⟨by simpa using hp, h⟩

theorem answer_next (s t : State) (op : BitVec 8) (st : Status) (v : Word) (h : answer s op st v = .next t) :
    t = s.respond op st v := by
  cases h
  rfl

/-! ## Raw and output memory -/

theorem State.rawRead_ok (s : State) (b a : Nat) (v : Byte) (h : s.rawRead b a = .ok v) :
    b < s.poolSize ∧ a < s.cap ∧ Mem.read s.raw (s.rawKey b a) = some v := by
  unfold State.rawRead at h
  split at h
  · next hr =>
    split at h
    · next hv => cases h; exact ⟨hr.1, hr.2, hv⟩
    · cases h
  · cases h

theorem State.rawRead_of_value (s : State) (b a : Nat) (v : Byte) (hb : b < s.poolSize) (ha : a < s.cap)
    (hv : Mem.read s.raw (s.rawKey b a) = some v) : s.rawRead b a = .ok v := by
  simp [State.rawRead, hb, ha, hv]

theorem State.rawStore_ok (s t : State) (b a : Nat) (bs : List Byte) (h : s.rawStore b a bs = .ok t) :
    b < s.poolSize ∧ a + bs.length ≤ s.cap ∧ t = s.setRaw (Mem.writeList s.raw (s.rawKey b a) bs) := by
  unfold State.rawStore at h
  split at h
  · next hr => cases h; exact ⟨hr.1, hr.2, rfl⟩
  · cases h

theorem State.rawStore_of_fits (s : State) (b a : Nat) (bs : List Byte) (hb : b < s.poolSize)
    (ha : a + bs.length ≤ s.cap) :
    s.rawStore b a bs = .ok (s.setRaw (Mem.writeList s.raw (s.rawKey b a) bs)) := by
  simp [State.rawStore, hb, ha]

theorem State.outStore_ok (s t : State) (a : Nat) (bs : List Byte) (h : s.outStore a bs = .ok t) :
    a + bs.length ≤ s.outSize ∧ t = s.setOut (Mem.writeList s.out a bs) := by
  unfold State.outStore at h
  split at h
  · next hr => cases h; exact ⟨hr, rfl⟩
  · cases h

theorem State.outStore_of_fits (s : State) (a : Nat) (bs : List Byte) (h : a + bs.length ≤ s.outSize) :
    s.outStore a bs = .ok (s.setOut (Mem.writeList s.out a bs)) := by
  simp [State.outStore, h]

/-- A successful conversion stores the view's bytes at the slot's base, and nothing else. -/
theorem State.demosaic_ok (s t : State) (b : Nat) (slot : BitVec 8) (h : s.demosaic b slot = .ok t) :
    ∃ bytes, s.viewBytes b = .ok bytes ∧ s.slotBase slot + bytes.length ≤ s.outSize ∧
      t = s.setOut (Mem.writeList s.out (s.slotBase slot) bytes) := by
  unfold State.demosaic at h
  split at h
  · next bytes hb =>
    obtain ⟨hr, ht⟩ := State.outStore_ok s t _ bytes h
    exact ⟨bytes, hb, hr, ht⟩
  · cases h

/-- A successful correction maps the slot's affected bytes, and nothing else. -/
theorem State.correct_ok (s t : State) (slot : BitVec 8) (h : s.correct slot = .ok t) :
    s.slotBase slot + s.outBytes ≤ s.outSize ∧
      t = s.setOut (Mem.mapBytes s.out fun a v => if s.affectedAddr slot a then brightByte s.bright v else v) := by
  unfold State.correct at h
  split at h
  · next hr => cases h; exact ⟨hr, rfl⟩
  · cases h

theorem State.correct_of_fits (s : State) (slot : BitVec 8) (h : s.slotBase slot + s.outBytes ≤ s.outSize) :
    s.correct slot =
      .ok (s.setOut (Mem.mapBytes s.out fun a v => if s.affectedAddr slot a then brightByte s.bright v else v)) := by
  simp [State.correct, h]

/-- A slot that is accepted holds the output of a view that fits it (R62, R219). -/
theorem State.slot_fits (s : State) (slot : BitVec 8) (h1 : s.slotOk slot = true) (h2 : s.outBytes ≤ s.slotBytes) :
    s.slotBase slot + s.outBytes ≤ s.outSize := by
  have hlt : slot.toNat < s.nslots := of_decide_eq_true h1
  have := Nat.mul_le_mul_right s.slotBytes (show slot.toNat + 1 ≤ s.nslots from hlt)
  rw [Nat.add_mul] at this
  unfold State.slotBase State.outSize
  omega

/-- A write of output memory changes no geometry. -/
theorem State.setOut_geometry (s : State) (m : Mem) (slot : BitVec 8) :
    (s.setOut m).slotBase slot = s.slotBase slot ∧ (s.setOut m).outBytes = s.outBytes ∧
      (s.setOut m).outSize = s.outSize ∧ (s.setOut m).affectedAddr slot = s.affectedAddr slot :=
  ⟨rfl, rfl, rfl, rfl⟩

/-! ## The pool -/

@[simp] theorem Pool.setBuf_fill (p : Pool) (b : Nat) (x : Buf) : (p.setBuf b x).fill = p.fill := rfl
@[simp] theorem Pool.setBuf_read (p : Pool) (b : Nat) (x : Buf) : (p.setBuf b x).read = p.read := rfl
@[simp] theorem Pool.setBuf_empty (p : Pool) (b : Nat) (x : Buf) : (p.setBuf b x).empty = p.empty := rfl
@[simp] theorem Pool.setBuf_full (p : Pool) (b : Nat) (x : Buf) : (p.setBuf b x).full = p.full := rfl
@[simp] theorem Pool.setBuf_ids (p : Pool) (b : Nat) (x : Buf) : (p.setBuf b x).ids = p.ids := rfl
@[simp] theorem Pool.setBuf_bufs (p : Pool) (b : Nat) (x : Buf) : (p.setBuf b x).bufs = p.bufs.set b x := rfl
@[simp] theorem Pool.setOff_ids (p : Pool) (b n : Nat) : (p.setOff b n).ids = p.ids := rfl
@[simp] theorem Pool.setOdd_ids (p : Pool) (b : Nat) (x : Bool) : (p.setOdd b x).ids = p.ids := rfl
@[simp] theorem Pool.countErr_ids (p : Pool) (b : Nat) : (p.countErr b).ids = p.ids := rfl
@[simp] theorem Pool.fillReset_ids (p : Pool) : p.fillReset.ids = p.ids := rfl

/-- The fields of a buffer after one buffer's fields are replaced. -/
theorem Pool.buf_setBuf (p : Pool) (b c : Nat) (x : Buf) (hb : b < p.bufs.length) :
    (p.setBuf b x).buf c = if c = b then x else p.buf c := by
  unfold Pool.buf
  simp only [Pool.setBuf_bufs, List.getD_eq_getElem?_getD, List.getElem?_set]
  by_cases h : b = c
  · subst h
    simp [hb]
  · rw [if_neg h, if_neg (fun h' => h h'.symm)]

/-- PUBLISH either takes the head of Empty, or displaces the head of Full with the buffer appended; it never runs out
of buffers (R140, R142). -/
theorem Pool.publish_cases (p : Pool) (b : Nat) :
    (∃ e es, p.empty = e :: es ∧
      p.publish b = ({ p with full := p.full ++ [b], fill := e, empty := es }, .fresh)) ∨
    (∃ f fs, p.empty = [] ∧ p.full ++ [b] = f :: fs ∧
      p.publish b = ({ p with full := fs, fill := f }, .displaced)) := by
  unfold Pool.publish
  cases he : p.empty with
  | cons e es => exact .inl ⟨e, es, rfl, rfl⟩
  | nil =>
    cases hf : p.full ++ [b] with
    | cons f fs => exact .inr ⟨f, fs, rfl, rfl, rfl⟩
    | nil => simp at hf

theorem Pool.tryAcquire_cases (p : Pool) :
    (∃ f fs, p.read = none ∧ p.full = f :: fs ∧ p.tryAcquire = ({ p with read := some f, full := fs }, some f)) ∨
    ((p.read ≠ none ∨ p.full = []) ∧ p.tryAcquire = (p, none)) := by
  unfold Pool.tryAcquire
  cases hr : p.read <;> cases hf : p.full <;> simp

@[simp] theorem Pool.release_fill (p : Pool) (b : Nat) : (p.release b).fill = p.fill := rfl
@[simp] theorem Pool.release_read (p : Pool) (b : Nat) : (p.release b).read = none := rfl
@[simp] theorem Pool.release_full (p : Pool) (b : Nat) : (p.release b).full = p.full := rfl
@[simp] theorem Pool.release_bufs (p : Pool) (b : Nat) : (p.release b).bufs = p.bufs := rfl

/-! ## The steps of a pull -/

/-- What a WAIT step does (R225). -/
theorem waitStep_next (slot : BitVec 8) (s t : State) (h : waitStep slot s = .next t) :
    (s.fatal = true ∧ t = (s.respond 0x20 .fatal 0).setPull .noPull) ∨
    (s.fatal = false ∧ s.streamError = true ∧ t = (s.respond 0x20 .streamError 0).setPull .noPull) ∨
    (s.fatal = false ∧ s.streamError = false ∧ ∃ pool, s.run = .running pool ∧
      t = (s.setPool pool.tryAcquire.1).setPull (.convert slot)) := by
  unfold waitStep at h
  split at h
  · next hf => cases h; exact .inl ⟨hf, rfl⟩
  · next hf =>
    split at h
    · next he => cases h; exact .inr (.inl ⟨by simpa using hf, he, rfl⟩)
    · next he =>
      split at h
      · cases h
      · next pool hr => cases h; exact .inr (.inr ⟨by simpa using hf, by simpa using he, pool, hr, rfl⟩)

/-- What a CONVERT step of a pull does (R226). -/
theorem convertStep_next (slot : BitVec 8) (s t : State) (h : convertStep slot s = .next t) :
    ∃ pool b bytes, s.run = .running pool ∧ pool.read = some b ∧ s.viewBytes b = .ok bytes ∧
      s.slotBase slot + bytes.length ≤ s.outSize ∧ s.slotBase slot + s.outBytes ≤ s.outSize ∧
      t = (((s.setOut (Mem.mapBytes (Mem.writeList s.out (s.slotBase slot) bytes) fun a v =>
        if s.affectedAddr slot a then brightByte s.bright v else v)).setPool (pool.release b)).setPull
          .noPull).respond 0x20 .ok (countValue s.outBytes) := by
  unfold convertStep at h
  split at h
  · cases h
  · next pool hr =>
    split at h
    · cases h
    · next b hb =>
      split at h
      · cases h
      · next s1 h1 =>
        split at h
        · cases h
        · next s2 h2 =>
          obtain ⟨bytes, hv, hlen, rfl⟩ := State.demosaic_ok s s1 b slot h1
          obtain ⟨hlen2, rfl⟩ := State.correct_ok _ s2 slot h2
          cases h
          exact ⟨pool, b, bytes, hr, hb, hv, hlen, hlen2, rfl⟩

end Sys2Proof.Machine
end

