-- ==== Sys2Proof/Laws/PerInstr.lean ====
section
/-!
SUPPORT. Statements per instruction. OpcodeOfEncoding: the first word of a well-formed instruction's encoding carries
its opcode in bits [31:24] (spec/30_encoding.md R81, R83).
-/
namespace Sys2Proof

/-- The opcode field of a word built from an opcode and a 24-bit operand (R81). -/
theorem bits_opWord (op operand : Nat) (hop : op < 2 ^ 8) (h : operand < 2 ^ 24) :
    bits (opWord op operand) 31 24 = op := by
  simp only [bits, opWord, BitVec.toNat_ofNat]
  omega

theorem flagBit_lt (b : Bool) : flagBit b < 2 := by
  cases b <;> decide

namespace Laws.OpcodeOfEncoding

def Statement (i : Instr) : Prop :=
  i.wf = true → ∃ h ws, encode i = h :: ws ∧ bits h 31 24 = i.opcode

/-- One word with a small operand meets the statement. -/
theorem of_opWord (i : Instr) (ws : List Word) (op operand : Nat) (he : encode i = opWord op operand :: ws)
    (ho : i.opcode = op) (hop : op < 2 ^ 8) (h : operand < 2 ^ 24) : Statement i := by
  intro _
  exact ⟨_, ws, he, by rw [bits_opWord op operand hop h, ho]⟩

theorem cfgMode (res : BitVec 4) (fmt : BitVec 3) (hflip vflip : Bool) : Statement (.cfgMode res fmt hflip vflip) := by
  have h1 := flagBit_lt vflip
  have h2 := flagBit_lt hflip
  have h3 := fmt.isLt
  have h4 := res.isLt
  exact of_opWord _ [] 0x01 _ rfl rfl (by decide) (by omega)

theorem cfgBright (bright : BitVec 16) : Statement (.cfgBright bright) := by
  have h1 := bright.isLt
  exact of_opWord _ [] _ _ rfl rfl (by decide) (by omega)

theorem cfgView (viewX viewY : BitVec 12) : Statement (.cfgView viewX viewY) := by
  have h1 := viewX.isLt
  have h2 := viewY.isLt
  exact of_opWord _ [] 0x03 _ rfl rfl (by decide) (by omega)

theorem startCapture : Statement (.startCapture) := of_opWord _ [] _ _ rfl rfl (by decide) (by decide)

theorem stopCapture : Statement (.stopCapture) := of_opWord _ [] _ _ rfl rfl (by decide) (by decide)

theorem pullFrame (slot : BitVec 8) : Statement (.pullFrame slot) := by
  have h1 := slot.isLt
  exact of_opWord _ [] _ _ rfl rfl (by decide) (by omega)

theorem pollReady : Statement (.pollReady) := of_opWord _ [] _ _ rfl rfl (by decide) (by decide)

theorem cancelPull : Statement (.cancelPull) := of_opWord _ [] _ _ rfl rfl (by decide) (by decide)

theorem readReg (n : BitVec 8) : Statement (.readReg n) := by
  have h1 := n.isLt
  exact of_opWord _ [] _ _ rfl rfl (by decide) (by omega)

theorem acquireRead : Statement (.acquireRead) := of_opWord _ [] _ _ rfl rfl (by decide) (by decide)

theorem releaseRead : Statement (.releaseRead) := of_opWord _ [] _ _ rfl rfl (by decide) (by decide)

theorem convert (slot : BitVec 8) : Statement (.convert slot) := by
  have h1 := slot.isLt
  exact of_opWord _ [] _ _ rfl rfl (by decide) (by omega)

theorem brighten (slot : BitVec 8) : Statement (.brighten slot) := by
  have h1 := slot.isLt
  exact of_opWord _ [] _ _ rfl rfl (by decide) (by omega)

theorem xfer (xferFail : Bool) (packets : List Packet) : Statement (.xfer xferFail packets) := by
  intro hwf
  have h1 := flagBit_lt xferFail
  have h2 : packets.length < 2 ^ 16 := by
    simp only [Instr.wf, packetsWf, Bool.and_eq_true, decide_eq_true_eq] at hwf
    exact hwf.1
  exact of_opWord (.xfer xferFail packets) _ 0x80 _ rfl rfl (by decide) (by omega) hwf

theorem publish : Statement (.publish) := of_opWord _ [] _ _ rfl rfl (by decide) (by decide)

end Laws.OpcodeOfEncoding

end Sys2Proof
end

