-- ==== Sys2Proof/Laws/Decode.lean ====
section
/-!
SUPPORT. What the decoders can answer: the inversion of `decodeCommand`, the words a mask of R101 selects, payload
words and their bytes.
-/
namespace Sys2Proof

/-! ## Command words -/

theorem whenZero_ok (reserved op : Nat) (i j : Instr) : whenZero reserved op i = .ok j ↔ reserved = 0 ∧ i = j := by
  unfold whenZero
  split <;> simp_all

/-- One link of the chain of `decodeCommand`. -/
theorem commandLink {c : Prop} [Decidable c] (a b : Except CommandError Instr) (i : Instr)
    (h : (if c then a else b) = .ok i) : (c ∧ a = .ok i) ∨ b = .ok i := by
  split at h
  · exact .inl ⟨‹_›, h⟩
  · exact .inr h

/-- A link whose reserved bits are checked. -/
theorem commandLinkZero {c : Prop} [Decidable c] (reserved op : Nat) (j i : Instr) (b : Except CommandError Instr)
    (h : (if c then whenZero reserved op j else b) = .ok i) : (c ∧ reserved = 0 ∧ i = j) ∨ b = .ok i := by
  rcases commandLink _ _ _ h with ⟨hc, h⟩ | h
  · obtain ⟨hr, hi⟩ := (whenZero_ok _ _ _ _).1 h
    exact .inl ⟨hc, hr, hi.symm⟩
  · exact .inr h

/-- Everything `decodeCommand` can answer: a row, its opcode, its reserved bits 0 and its operands (R84 to R88). -/
theorem decodeCommand_cases (w : Word) (i : Instr) (h : decodeCommand w = .ok i) :
    (bits w 31 24 = 0x01 ∧ bits w 23 9 = 0 ∧ i = .cfgMode (BitVec.ofNat 4 (bits w 3 0)) (BitVec.ofNat 3 (bits w 6 4))
      (flagOf (bits w 7 7)) (flagOf (bits w 8 8))) ∨
    (bits w 31 24 = 0x02 ∧ bits w 23 16 = 0 ∧ i = .cfgBright (BitVec.ofNat 16 (bits w 15 0))) ∨
    (bits w 31 24 = 0x03 ∧ i = .cfgView (BitVec.ofNat 12 (bits w 11 0)) (BitVec.ofNat 12 (bits w 23 12))) ∨
    (bits w 31 24 = 0x10 ∧ bits w 23 0 = 0 ∧ i = .startCapture) ∨
    (bits w 31 24 = 0x11 ∧ bits w 23 0 = 0 ∧ i = .stopCapture) ∨
    (bits w 31 24 = 0x20 ∧ bits w 23 8 = 0 ∧ i = .pullFrame (BitVec.ofNat 8 (bits w 7 0))) ∨
    (bits w 31 24 = 0x21 ∧ bits w 23 0 = 0 ∧ i = .pollReady) ∨
    (bits w 31 24 = 0x22 ∧ bits w 23 0 = 0 ∧ i = .cancelPull) ∨
    (bits w 31 24 = 0x30 ∧ bits w 23 8 = 0 ∧ i = .readReg (BitVec.ofNat 8 (bits w 7 0))) ∨
    (bits w 31 24 = 0x40 ∧ bits w 23 0 = 0 ∧ i = .acquireRead) ∨
    (bits w 31 24 = 0x41 ∧ bits w 23 0 = 0 ∧ i = .releaseRead) ∨
    (bits w 31 24 = 0x42 ∧ bits w 23 8 = 0 ∧ i = .convert (BitVec.ofNat 8 (bits w 7 0))) ∨
    (bits w 31 24 = 0x43 ∧ bits w 23 8 = 0 ∧ i = .brighten (BitVec.ofNat 8 (bits w 7 0))) := by
  unfold decodeCommand at h
  rcases commandLinkZero _ _ _ _ _ h with h | h
  · exact .inl h
  rcases commandLinkZero _ _ _ _ _ h with h | h
  · exact .inr (.inl h)
  rcases commandLink _ _ _ h with ⟨hc, h⟩ | h
  · cases h
    exact .inr (.inr (.inl ⟨hc, rfl⟩))
  iterate 3 apply Or.inr
  rcases commandLinkZero _ _ _ _ _ h with h | h
  · exact .inl h
  rcases commandLinkZero _ _ _ _ _ h with h | h
  · exact .inr (.inl h)
  iterate 2 apply Or.inr
  rcases commandLinkZero _ _ _ _ _ h with h | h
  · exact .inl h
  rcases commandLinkZero _ _ _ _ _ h with h | h
  · exact .inr (.inl h)
  iterate 2 apply Or.inr
  rcases commandLinkZero _ _ _ _ _ h with h | h
  · exact .inl h
  rcases commandLinkZero _ _ _ _ _ h with h | h
  · exact .inr (.inl h)
  iterate 2 apply Or.inr
  rcases commandLinkZero _ _ _ _ _ h with h | h
  · exact .inl h
  rcases commandLinkZero _ _ _ _ _ h with h | h
  · exact .inr (.inl h)
  iterate 2 apply Or.inr
  rcases commandLinkZero _ _ _ _ _ h with h | h
  · exact .inl h
  rcases commandLinkZero _ _ _ _ _ h with h | h
  · exact .inr h
  · cases h

/-- What `decodeCommand` answers carries the word's opcode and belongs to the command port. -/
theorem decodeCommand_opcode (w : Word) (i : Instr) (h : decodeCommand w = .ok i) :
    bits w 31 24 = i.opcode ∧ i.space = .command := by
  rcases decodeCommand_cases w i h with ⟨ho, _, rfl⟩ | ⟨ho, _, rfl⟩ | ⟨ho, rfl⟩ | ⟨ho, _, rfl⟩ |
    ⟨ho, _, rfl⟩ | ⟨ho, _, rfl⟩ | ⟨ho, _, rfl⟩ | ⟨ho, _, rfl⟩ | ⟨ho, _, rfl⟩ |
    ⟨ho, _, rfl⟩ | ⟨ho, _, rfl⟩ | ⟨ho, _, rfl⟩ | ⟨ho, _, rfl⟩ <;>
    exact ⟨ho, rfl⟩

/-- A mask of all bits from `k` up selects a match exactly when the bits from `k` up agree. -/
theorem and_highMask (w m : Word) (k : Nat) (hm : m.toNat % 2 ^ k = 0) :
    (w &&& (BitVec.allOnes 32 <<< k) = m) ↔ w.toNat / 2 ^ k = m.toNat / 2 ^ k := by
  have e : w &&& (BitVec.allOnes 32 <<< k) = (w >>> k) <<< k := by
    ext i hi
    simp only [BitVec.getElem_and, BitVec.getElem_shiftLeft, BitVec.getElem_ushiftRight, BitVec.getElem_allOnes]
    by_cases h : i < k
    · simp [h]
    · simp [h, show k + (i - k) = i by omega, hi]
  have hpos : 0 < 2 ^ k := Nat.two_pow_pos k
  have hlt : w.toNat / 2 ^ k * 2 ^ k < 2 ^ 32 := lt_of_le_of_lt (Nat.div_mul_le_self _ _) w.isLt
  rw [e, ← BitVec.toNat_inj]
  simp only [BitVec.toNat_shiftLeft, BitVec.toNat_ushiftRight, Nat.shiftLeft_eq, Nat.shiftRight_eq_div_pow]
  rw [Nat.mod_eq_of_lt hlt]
  constructor
  · intro h
    rw [← h, Nat.mul_div_cancel _ hpos]
  · intro h
    rw [h]
    exact Nat.div_mul_cancel (Nat.dvd_of_mod_eq_zero hm)

/-! ## Payload words -/

/-- The number of words payload bytes are packed into (R91). -/
theorem packWords_length (bs : List Byte) : (packWords bs).length = payloadWords bs.length := by
  fun_induction packWords bs with
  | case1 => rfl
  | case2 => simp [payloadWords]
  | case3 => simp [payloadWords]
  | case4 => simp [payloadWords]
  | case5 a b c d rest ih =>
    simp only [List.length_cons, ih, payloadWords]
    omega

/-- The bytes of one payload word (R92). -/
theorem wordBytes_four (a b c d : Byte) :
    wordBytes (BitVec.ofNat 32 (a.toNat + b.toNat * 2 ^ 8 + c.toNat * 2 ^ 16 + d.toNat * 2 ^ 24)) = [a, b, c, d] := by
  have ha := a.isLt
  have hb := b.isLt
  have hc := c.isLt
  have hd := d.isLt
  simp only [wordBytes, bits, BitVec.toNat_ofNat, List.cons.injEq, and_true]
  refine ⟨?_, ?_, ?_, ?_⟩ <;> apply BitVec.eq_of_toNat_eq <;> simp only [BitVec.toNat_ofNat] <;> omega

/-- The bytes of packed payload words: the payload, then zeros up to the word (R91, R92). -/
theorem flatMap_wordBytes_packWords (bs : List Byte) :
    (packWords bs).flatMap wordBytes = bs ++ List.replicate (4 * payloadWords bs.length - bs.length) 0 := by
  fun_induction packWords bs with
  | case1 => rfl
  | case2 a => simpa [payloadWords, List.replicate] using wordBytes_four a 0 0 0
  | case3 a b => simpa [payloadWords, List.replicate] using wordBytes_four a b 0 0
  | case4 a b c => simpa [payloadWords, List.replicate] using wordBytes_four a b c 0
  | case5 a b c d rest ih =>
    rw [List.flatMap_cons, wordBytes_four, ih]
    simp only [List.cons_append, List.nil_append, List.length_cons, payloadWords]
    congr 6
    omega

end Sys2Proof
end

