-- ==== Sys2Proof/Laws/Pool.lean ====
section
/-!
SUPPORT. What the pool operations do to the four roles and to the fields of the buffers.
-/
namespace Sys2Proof.Machine

/-! ## The roles -/

theorem Pool.publish_bufs (p : Pool) (b : Nat) : (p.publish b).1.bufs = p.bufs := by
  rcases p.publish_cases b with ⟨_, _, _, h⟩ | ⟨_, _, _, _, h⟩ <;> rw [h]

theorem Pool.publish_read (p : Pool) (b : Nat) : (p.publish b).1.read = p.read := by
  rcases p.publish_cases b with ⟨_, _, _, h⟩ | ⟨_, _, _, _, h⟩ <;> rw [h]

/-- PUBLISH of the Fill buffer moves ids between roles and loses none. -/
theorem Pool.publish_ids_perm (p : Pool) : (p.publish p.fill).1.ids.Perm p.ids := by
  rcases p.publish_cases p.fill with ⟨e, es, he, h⟩ | ⟨f, fs, he, hf, h⟩
  · rw [h, List.perm_iff_count]
    intro c
    simp only [Pool.ids, he, List.count_cons, List.count_append, List.count_nil]
    omega
  · have hc : ∀ c, (p.full ++ [p.fill]).count c = (f :: fs).count c := fun c => by rw [hf]
    rw [h, List.perm_iff_count]
    intro c
    have := hc c
    simp only [List.count_append, List.count_cons, List.count_nil] at this
    simp only [Pool.ids, he, List.count_cons, List.count_append, List.count_nil]
    omega

theorem Pool.tryAcquire_ids_perm (p : Pool) : p.tryAcquire.1.ids.Perm p.ids := by
  rcases p.tryAcquire_cases with ⟨f, fs, hr, hf, h⟩ | ⟨_, h⟩
  · rw [h, List.perm_iff_count]
    intro c
    simp only [Pool.ids, hr, hf, Option.toList, List.count_cons, List.count_append, List.count_nil]
    omega
  · rw [h]

theorem Pool.release_ids_perm (p : Pool) (b : Nat) (hr : p.read = some b) : (p.release b).ids.Perm p.ids := by
  rw [List.perm_iff_count]
  intro c
  simp only [Pool.ids, Pool.release, hr, Option.toList, List.count_cons, List.count_append, List.count_nil]
  omega

theorem freshPool_ids (n : Nat) (h : 1 ≤ n) : (freshPool n).ids = List.range n := by
  obtain ⟨m, rfl⟩ : ∃ m, n = m + 1 := ⟨n - 1, by omega⟩
  simp [Pool.ids, freshPool, List.range_succ_eq_map]

/-! ## The fields of the buffers -/

theorem Pool.buf_of_bufs (p q : Pool) (h : p.bufs = q.bufs) (b : Nat) : p.buf b = q.buf b := by
  simp only [Pool.buf, h]

@[simp] theorem Pool.setBuf_bufs_length (p : Pool) (b : Nat) (x : Buf) : (p.setBuf b x).bufs.length = p.bufs.length := by
  simp

/-- Two updates of one buffer's fields leave the second. -/
theorem Pool.setBuf_setBuf (p : Pool) (b : Nat) (x y : Buf) : (p.setBuf b x).setBuf b y = p.setBuf b y := by
  simp [Pool.setBuf, List.set_set]

theorem freshPool_buf (n b : Nat) : (freshPool n).buf b = { off := 0, err := 0, odd := false } := by
  unfold Pool.buf freshPool
  simp only [List.getD_eq_getElem?_getD, List.getElem?_replicate]
  split <;> rfl

/-- A saturating increment is never 0 (R12). -/
theorem satInc32_ne_zero (v : BitVec 32) : satInc32 v ≠ 0 := by
  unfold satInc32
  split
  · next h => rw [h]; decide
  · next h => bv_omega

theorem satInc32_toNat (v : BitVec 32) : (satInc32 v).toNat = min (2 ^ 32 - 1) (v.toNat + 1) := by
  unfold satInc32
  split
  · next h => rw [h]; decide
  · next h => bv_omega

end Sys2Proof.Machine
end

