-- ==== Sys2Proof/Laws/Steps.lean ====
section
/-!
SUPPORT. What a step can be: the agents' steps and the choice between them taken apart, once.
-/
namespace Sys2Proof.Machine

/-! ## The choice -/

theorem mem_enabledMoves (s : State) (m : Move) : m ∈ s.enabledMoves ↔ s.enabled m = true := by
  unfold State.enabledMoves
  rw [List.mem_filter]
  constructor
  · exact fun h => h.2
  · intro h
    refine ⟨?_, h⟩
    cases m <;> decide

theorem firstEnabled_some (s : State) (l rest : List Move) (m : Move) (h : firstEnabled s l = some (m, rest)) :
    s.enabled m = true := by
  induction l with
  | nil => cases h
  | cons a l ih =>
    simp only [firstEnabled] at h
    split at h
    · cases h
      assumption
    · exact ih h

/-- A list with an enabled move has a first one, at or before it. -/
theorem firstEnabled_of_mem (s : State) (m : Move) (l : List Move) (hl : m ∈ l) (hm : s.enabled m = true) :
    ∃ m' rest, firstEnabled s l = some (m', rest) ∧ (m' = m ∨ m ∈ rest) ∧ rest.length < l.length := by
  induction l with
  | nil => cases hl
  | cons a l ih =>
    simp only [firstEnabled]
    split
    · refine ⟨a, l, rfl, ?_, by simp⟩
      rcases List.mem_cons.1 hl with h | h
      · exact .inl h.symm
      · exact .inr h
    · next ha =>
      rcases List.mem_cons.1 hl with rfl | h
      · exact absurd hm ha
      · obtain ⟨m', rest, h1, h2, h3⟩ := ih h
        exact ⟨m', rest, h1, h2, by simp only [List.length_cons]; omega⟩

/-- What follows the first enabled entry is shorter than the list. -/
theorem firstEnabled_length (s : State) (l rest : List Move) (m : Move) (h : firstEnabled s l = some (m, rest)) :
    rest.length < l.length := by
  induction l with
  | nil => cases h
  | cons a l ih =>
    simp only [firstEnabled] at h
    split at h
    · cases h
      exact Nat.lt_succ_self _
    · exact Nat.lt_succ_of_lt (ih h)

/-- Every move stands in every round (R299). -/
theorem mem_fairRound (ms : List Move) (m : Move) : m ∈ fairRound ms := by
  unfold fairRound
  by_cases h : m ∈ ms
  · exact List.mem_append_left _ h
  · refine List.mem_append_right _ (List.mem_filter.2 ⟨by cases m <;> decide, ?_⟩)
    simpa using h

/-- A move is chosen exactly when one is enabled (R295). -/
theorem State.chooseMove_none (s : State) : s.chooseMove = none ↔ s.enabledMoves = [] := by
  unfold State.chooseMove
  split
  · next he => exact ⟨fun _ => he, fun _ => rfl⟩
  · next m ms he =>
    refine ⟨fun h => ?_, fun h => by rw [he] at h; cases h⟩
    have hm : s.enabled m = true := (mem_enabledMoves s m).1 (by rw [he]; exact List.mem_cons_self)
    obtain ⟨m', rest, hf, _⟩ := firstEnabled_of_mem s m _ (mem_fairRound (Config.freeRound s.tick) m) hm
    split at h
    · cases h
    · split at h
      · cases h
      · rw [hf] at h
        cases h

/-- The chosen move is enabled, and choosing changes nothing but the model's own fields (log 3). -/
theorem State.chooseMove_some (s s' : State) (m : Move) (h : s.chooseMove = some (m, s')) :
    s.enabled m = true ∧ ∃ sched n, s' = { s with schedule := sched, tick := n } := by
  unfold State.chooseMove at h
  split at h
  · cases h
  · next a ms he =>
    have ha : s.enabled a = true := (mem_enabledMoves s a).1 (by rw [he]; exact List.mem_cons_self)
    split at h
    · next m' rest hf => cases h; exact ⟨firstEnabled_some s _ _ _ hf, rest, s.tick, rfl⟩
    · split at h
      · cases h; exact ⟨ha, [], s.tick, rfl⟩
      · obtain ⟨⟨m', rest⟩, hf, hr⟩ := Option.map_eq_some_iff.1 h
        cases hr
        exact ⟨firstEnabled_some s _ _ _ hf, rest, s.tick + 1, rfl⟩

/-- An enabled move that stands in the schedule is made, or stands in what is left of it, which is shorter. -/
theorem State.chooseMove_scheduled (s : State) (m : Move) (hm : s.enabled m = true) (hs : m ∈ s.schedule) :
    ∃ m' s', s.chooseMove = some (m', s') ∧
      (m' = m ∨ m ∈ s'.schedule ∧ s'.schedule.length < s.schedule.length) := by
  obtain ⟨m', rest, hf, h1, h2⟩ := firstEnabled_of_mem s m s.schedule hs hm
  refine ⟨m', s.setSchedule rest, ?_, ?_⟩
  · unfold State.chooseMove
    split
    · next he => exact absurd ((mem_enabledMoves s m).2 hm) (by rw [he]; exact List.not_mem_nil)
    · rw [hf]
  · rcases h1 with h1 | h1
    · exact .inl h1
    · exact .inr ⟨h1, h2⟩

/-- An enabled move is made, or stands in the schedule that is left, or that schedule is shorter. -/
theorem State.chooseMove_enabled (s : State) (m : Move) (hm : s.enabled m = true) :
    ∃ m' s', s.chooseMove = some (m', s') ∧
      (m' = m ∨ m ∈ s'.schedule ∨ s'.schedule.length < s.schedule.length) := by
  have hmem : m ∈ s.enabledMoves := (mem_enabledMoves s m).2 hm
  unfold State.chooseMove
  split
  · next he => rw [he] at hmem; cases hmem
  · next a ms he =>
    split
    · next m' rest hf => exact ⟨m', _, rfl, .inr (.inr (firstEnabled_length s _ _ _ hf))⟩
    · split
      · rw [he] at hmem
        exact ⟨a, _, rfl, .inl (List.mem_singleton.1 hmem).symm⟩
      · obtain ⟨m', rest, hf, h1, _⟩ := firstEnabled_of_mem s m _ (mem_fairRound (Config.freeRound s.tick) m) hm
        refine ⟨m', (s.setSchedule rest).nextTick, by rw [hf]; rfl, ?_⟩
        rcases h1 with h1 | h1
        · exact .inl h1
        · exact .inr (.inl h1)

/-- A block step is the idle step or the step of a chosen move. -/
theorem step_eq (s : State) :
    (s.chooseMove = none ∧ step s = .next s) ∨ ∃ m s', s.chooseMove = some (m, s') ∧ step s = runMove m s' := by
  unfold step blockStep
  cases h : s.chooseMove with
  | none => exact .inl ⟨rfl, rfl⟩
  | some r => exact .inr ⟨r.1, r.2, rfl, rfl⟩

/-! ## The agents -/

/-- What taking a command word gives (R215). -/
theorem takeCommand_cases (s : State) :
    (s.cmdPort = [] ∧ takeCommand s = .next s) ∨
    (∃ w ws i, s.cmdPort = w :: ws ∧ decodeCommand w = .ok i ∧ takeCommand s = exec i (s.setCmdPort ws)) ∨
    (∃ w ws e, s.cmdPort = w :: ws ∧ decodeCommand w = .error e ∧
      takeCommand s = .next ((s.setCmdPort ws).respond (BitVec.ofNat 8 (bits w 31 24)) .illegal 0)) := by
  unfold takeCommand
  cases hc : s.cmdPort with
  | nil => exact .inl ⟨rfl, rfl⟩
  | cons w ws =>
    cases hd : decodeCommand w with
    | ok i => exact .inr (.inl ⟨w, ws, i, rfl, hd, by simp [hd]⟩)
    | error e => exact .inr (.inr ⟨w, ws, e, rfl, hd, by simp [hd, answer]⟩)

/-- A record decodes to an XFER. -/
theorem decodeRecord_xfer (ws rest : List Word) (i : Instr) (h : decodeRecord ws = .ok (i, rest)) :
    ∃ xferFail packets, i = .xfer xferFail packets := by
  unfold decodeRecord at h
  split at h
  · cases h
  · split at h
    · cases h
    · split at h
      · cases h
      · split at h
        · cases h
          exact ⟨_, _, rfl⟩
        · cases h

/-- What a PRODUCER step gives (R113, R94). -/
theorem producerStep_cases (s : State) :
    (∃ p rest, s.xferRest = p :: rest ∧ producerStep s = exec (.xfer false (p :: rest)) s) ∨
    (s.xferRest = [] ∧ s.ingestPort = [] ∧ producerStep s = .next s) ∨
    (∃ xferFail packets after, s.xferRest = [] ∧ decodeRecord s.ingestPort = .ok (.xfer xferFail packets, after) ∧
      producerStep s = exec (.xfer xferFail packets) (s.setIngestPort after)) ∨
    (∃ e, s.xferRest = [] ∧ decodeRecord s.ingestPort = .error e ∧
      producerStep s = .refused (.malformedRecord e)) := by
  unfold producerStep
  cases hx : s.xferRest with
  | cons p rest => exact .inl ⟨p, rest, rfl, rfl⟩
  | nil =>
    cases hi : s.ingestPort with
    | nil => exact .inr (.inl ⟨rfl, rfl, rfl⟩)
    | cons w ws =>
      cases hd : decodeRecord (w :: ws) with
      | error e => exact .inr (.inr (.inr ⟨e, rfl, rfl, by simp [hd]⟩))
      | ok r =>
        obtain ⟨i, after⟩ := r
        obtain ⟨f, ps, rfl⟩ := decodeRecord_xfer _ _ _ hd
        exact .inr (.inr (.inl ⟨f, ps, after, rfl, rfl, by simp [hd]⟩))

/-! ## A packet -/

/-- The pool after the parity flag is recorded (R117). -/
def recordOdd (p : Packet) (first : Byte) (pool : Pool) : Pool :=
  if p.payload.length = 8 then pool.setOdd pool.fill (first.getLsbD 6) else pool

theorem recordOdd_ids (p : Packet) (first : Byte) (pool : Pool) : (recordOdd p first pool).ids = pool.ids := by
  unfold recordOdd
  split <;> rfl

theorem recordOdd_fill (p : Packet) (first : Byte) (pool : Pool) : (recordOdd p first pool).fill = pool.fill := by
  unfold recordOdd
  split <;> rfl

/-- What a packet step gives: nothing but a count, nothing at all, an append, a boundary, or a parity flag (R114 to
R122, R127). -/
theorem packetStep_cases (p : Packet) (pool : Pool) (s : State) :
    (p.err = true ∧ packetStep p pool s = .next s.countIsoc) ∨
    (p.err = false ∧ p.payload = [] ∧ packetStep p pool s = .next s) ∨
    (∃ first more, p.err = false ∧ p.payload = first :: more ∧ headerLength first < p.payload.length ∧
      packetStep p pool s = appendData (recordOdd p first pool) (p.payload.drop (headerLength first))
        (s.setPool (recordOdd p first pool))) ∨
    (∃ first more, p.err = false ∧ p.payload = first :: more ∧ p.payload.length = headerLength first ∧
      packetStep p pool s = .next (boundary (recordOdd p first pool) (s.setPool (recordOdd p first pool)))) ∨
    (∃ first more, p.err = false ∧ p.payload = first :: more ∧ p.payload.length < headerLength first ∧
      packetStep p pool s = .next (s.setPool (recordOdd p first pool))) := by
  unfold packetStep
  split
  · next h => exact .inl ⟨h, rfl⟩
  · next h =>
    have he : p.err = false := by simpa using h
    split
    · next hp => exact .inr (.inl ⟨he, hp, rfl⟩)
    · next first more hp =>
      dsimp only
      split
      · next hl => exact .inr (.inr (.inl ⟨first, more, he, hp, hl, rfl⟩))
      · split
        · next hl => exact .inr (.inr (.inr (.inl ⟨first, more, he, hp, hl, rfl⟩)))
        · exact .inr (.inr (.inr (.inr ⟨first, more, he, hp, by omega, rfl⟩)))

end Sys2Proof.Machine
end

