-- ==== Sys2Proof/Laws/Exec.lean ====
section
/-!
SUPPORT. Everything an instruction's next state can be, said once for the commands and once for XFER.
-/
namespace Sys2Proof.Machine

theorem pull_of_not_pending (s : State) (h : s.pullPending = false) : s.pull = .noPull := by
  unfold State.pullPending at h
  split at h
  · assumption
  · cases h
  · cases h

theorem run_of_not_running (s : State) (h : ¬s.running = true) : s.run = .stopped := by
  unfold State.running at h
  split at h
  · assumption
  · exact absurd rfl h

/-- The next states of a command (R215 to R232, R144, R145, R160, R200). -/
inductive CommandNext (s : State) : Instr → State → Prop where
  /-- One response and nothing else. -/
  | answered (i : Instr) (op : BitVec 8) (status : Status) (value : Word) :
    CommandNext s i (s.respond op status value)
  /-- CFG_MODE, CFG_BRIGHT, CFG_VIEW accepted. -/
  | configured (i : Instr) (mode : Mode) (bright : BitVec 16) (viewX viewY : BitVec 12) (op : BitVec 8)
    (hp : s.pull = .noPull) (hr : s.run = .stopped) :
    CommandNext s i ((((s.setMode mode).setBright bright).setView viewX viewY).respond op .ok 0)
  /-- START_CAPTURE accepted. -/
  | started (hp : s.pull = .noPull) (hr : s.run = .stopped) (hv : s.viewFits = true) :
    CommandNext s .startCapture (s.startStream.respond 0x10 .ok 0)
  /-- STOP_CAPTURE. -/
  | stopped : CommandNext s .stopCapture ((s.terminatePull.setRun .stopped).respond 0x11 .ok 0)
  /-- PULL_FRAME accepted. -/
  | waits (slot : BitVec 8) (pool : Pool) (hp : s.pull = .noPull) (hr : s.run = .running pool)
    (hs : s.slotOk slot = true) (hf : s.fatal = false) (hrd : pool.read = none) :
    CommandNext s (.pullFrame slot) (s.setPull (.wait slot))
  /-- CANCEL_PULL of a waiting pull. -/
  | cancelled (slot : BitVec 8) (hp : s.pull = .wait slot) :
    CommandNext s .cancelPull (((s.respond 0x20 .retry 0).setPull .noPull).respond 0x22 .ok 1)
  /-- ACQUIRE_READ accepted. -/
  | acquired (pool : Pool) (b : Nat) (rest : List Nat) (hp : s.pull = .noPull) (hr : s.run = .running pool)
    (hf : s.fatal = false) (hrd : pool.read = none) (hfull : pool.full = b :: rest) :
    CommandNext s .acquireRead
      ((s.setPool { pool with read := some b, full := rest }).respond 0x40 .ok (BitVec.ofNat 32 b))
  /-- RELEASE_READ accepted. -/
  | released (pool : Pool) (b : Nat) (hp : s.pull = .noPull) (hr : s.run = .running pool) (hf : s.fatal = false)
    (hrd : pool.read = some b) :
    CommandNext s .releaseRead ((s.setPool (pool.release b)).respond 0x41 .ok (BitVec.ofNat 32 b))
  /-- CONVERT accepted. -/
  | converted (slot : BitVec 8) (pool : Pool) (b : Nat) (bytes : List Byte) (hp : s.pull = .noPull)
    (hr : s.run = .running pool) (hrd : pool.read = some b) (hs : s.slotOk slot = true)
    (hv : s.viewBytes b = .ok bytes) (hfit : s.slotBase slot + bytes.length ≤ s.outSize) :
    CommandNext s (.convert slot)
      ((s.setOut (Mem.writeList s.out (s.slotBase slot) bytes)).respond 0x42 .ok (countValue s.outBytes))
  /-- BRIGHTEN accepted. -/
  | brightened (slot : BitVec 8) (hp : s.pull = .noPull) (hr : s.running = true) (hs : s.slotOk slot = true)
    (hfit : s.slotBase slot + s.outBytes ≤ s.outSize) :
    CommandNext s (.brighten slot)
      ((s.setOut (Mem.mapBytes s.out fun a v => if s.affectedAddr slot a then brightByte s.bright v else v)).respond
        0x43 .ok (countValue s.outBytes))

/-- Everything a command's next state can be. -/
theorem exec_command_next (i : Instr) (s t : State) (hi : i.space = .command) (h : exec i s = .next t) :
    CommandNext s i t := by
  cases i with
  | cfgMode res fmt hflip vflip =>
    rcases unlessBusy_next _ _ _ _ h with ⟨_, rfl⟩ | ⟨hp, h⟩
    · exact .answered _ _ _ _
    · split at h
      · cases h; exact .answered _ _ _ _
      · next hr =>
        split at h <;> cases h
        · exact CommandNext.configured (.cfgMode res fmt hflip vflip) { res := _, fmt := _, hflip := hflip, vflip := vflip }
            s.bright s.viewX s.viewY 0x01 (pull_of_not_pending s hp) (run_of_not_running s hr)
        · exact .answered _ _ _ _
        · exact .answered _ _ _ _
  | cfgBright bright =>
    rcases unlessBusy_next _ _ _ _ h with ⟨_, rfl⟩ | ⟨hp, h⟩
    · exact .answered _ _ _ _
    · split at h <;> cases h
      · exact .answered _ _ _ _
      · next hr =>
        exact CommandNext.configured (.cfgBright bright) s.mode bright s.viewX s.viewY 0x02 (pull_of_not_pending s hp)
          (run_of_not_running s hr)
  | cfgView viewX viewY =>
    rcases unlessBusy_next _ _ _ _ h with ⟨_, rfl⟩ | ⟨hp, h⟩
    · exact .answered _ _ _ _
    · split at h <;> cases h
      · exact .answered _ _ _ _
      · next hr =>
        exact CommandNext.configured (.cfgView viewX viewY) s.mode s.bright viewX viewY 0x03 (pull_of_not_pending s hp)
          (run_of_not_running s hr)
  | startCapture =>
    rcases unlessBusy_next _ _ _ _ h with ⟨_, rfl⟩ | ⟨hp, h⟩
    · exact .answered _ _ _ _
    · split at h
      · cases h; exact .answered _ _ _ _
      · next hr =>
        cases h
        split
        · next hv => exact .started (pull_of_not_pending s hp) (run_of_not_running s hr) hv
        · exact .answered _ _ _ _
  | stopCapture => cases h; exact .stopped
  | pullFrame slot =>
    rcases unlessBusy_next _ _ _ _ h with ⟨_, rfl⟩ | ⟨hp, h⟩
    · exact .answered _ _ _ _
    · split at h
      · cases h; exact .answered _ _ _ _
      · next pool hr =>
        split at h
        · next hs =>
          split at h
          · cases h; exact .answered _ _ _ _
          · next hf =>
            split at h <;> cases h
            · exact .answered _ _ _ _
            · next hrd =>
              exact .waits slot pool (pull_of_not_pending s hp) hr hs (by simpa using hf) (by simpa using hrd)
        · cases h; exact .answered _ _ _ _
  | pollReady => cases h; exact .answered _ _ _ _
  | cancelPull =>
    simp only [exec, execCancelPull] at h
    split at h <;> cases h
    · exact .answered _ _ _ _
    · next slot hp => exact .cancelled slot hp
    · exact .answered _ _ _ _
  | readReg n =>
    simp only [exec, execReadReg] at h
    split at h <;> cases h <;> exact .answered _ _ _ _
  | acquireRead =>
    rcases unlessBusy_next _ _ _ _ h with ⟨_, rfl⟩ | ⟨hp, h⟩
    · exact .answered _ _ _ _
    · split at h
      · cases h; exact .answered _ _ _ _
      · next pool hr =>
        split at h
        · cases h; exact .answered _ _ _ _
        · next hf =>
          split at h
          · cases h; exact .answered _ _ _ _
          · rcases pool.tryAcquire_cases with ⟨b, rest, hrd, hfull, e⟩ | ⟨_, e⟩ <;> rw [e] at h <;> cases h
            · exact .acquired pool b rest (pull_of_not_pending s hp) hr (by simpa using hf) hrd hfull
            · exact .answered _ _ _ _
  | releaseRead =>
    rcases unlessBusy_next _ _ _ _ h with ⟨_, rfl⟩ | ⟨hp, h⟩
    · exact .answered _ _ _ _
    · split at h
      · cases h; exact .answered _ _ _ _
      · next pool hr =>
        split at h
        · cases h; exact .answered _ _ _ _
        · next hf =>
          split at h <;> cases h
          · exact .answered _ _ _ _
          · next b hrd => exact .released pool b (pull_of_not_pending s hp) hr (by simpa using hf) hrd
  | convert slot =>
    rcases unlessBusy_next _ _ _ _ h with ⟨_, rfl⟩ | ⟨hp, h⟩
    · exact .answered _ _ _ _
    · split at h
      · cases h; exact .answered _ _ _ _
      · next pool hr =>
        split at h
        · cases h; exact .answered _ _ _ _
        · split at h
          · next hs =>
            split at h
            · cases h; exact .answered _ _ _ _
            · next b hrd =>
              split at h
              · next s' hd =>
                obtain ⟨bytes, hv, hfit, rfl⟩ := State.demosaic_ok _ _ _ _ hd
                cases h
                exact .converted slot pool b bytes (pull_of_not_pending s hp) hr hrd hs hv hfit
              · cases h
          · cases h; exact .answered _ _ _ _
  | brighten slot =>
    rcases unlessBusy_next _ _ _ _ h with ⟨_, rfl⟩ | ⟨hp, h⟩
    · exact .answered _ _ _ _
    · split at h
      · next hr =>
        split at h
        · next hs =>
          split at h
          · next s' hd =>
            obtain ⟨hfit, rfl⟩ := State.correct_ok _ _ _ hd
            cases h
            exact .brightened slot (pull_of_not_pending s hp) hr hs hfit
          · cases h
        · cases h; exact .answered _ _ _ _
      · cases h; exact .answered _ _ _ _
  | xfer xferFail packets => cases hi
  | publish => cases hi

/-- The next states of an XFER step while running with `pool` (R112 to R127). -/
inductive PacketNext (s : State) (pool : Pool) : State → Prop where
  /-- Nothing but the record going on, or a parity flag recorded: an empty packet, a runt, a spurious marker. -/
  | quiet (rest : List Packet) (pool' : Pool) (hp : pool' = pool ∨ ∃ odd, pool' = pool.setOdd pool.fill odd) :
    PacketNext s pool ((s.setRest rest).setPool pool')
  /-- An error packet. -/
  | counted (rest : List Packet) : PacketNext s pool (s.setRest rest).countIsoc
  /-- A failed transfer. -/
  | failed : PacketNext s pool (s.setRest []).countIsoc.setStreamError
  /-- A data packet that does not fit. -/
  | overflowed (rest : List Packet) (pool' : Pool) (hp : pool' = pool ∨ ∃ odd, pool' = pool.setOdd pool.fill odd) :
    PacketNext s pool ((s.setRest rest).setPool (pool'.countErr pool.fill))
  /-- A data packet that fits. -/
  | appended (rest : List Packet) (pool' : Pool) (bytes : List Byte)
    (hp : pool' = pool ∨ ∃ odd, pool' = pool.setOdd pool.fill odd) (hf : pool.fill < s.poolSize)
    (hc : (pool'.buf pool.fill).off.toNat + bytes.length ≤ s.cap) :
    PacketNext s pool (((s.setRest rest).setRaw
      (Mem.writeList s.raw (s.rawKey pool.fill (pool'.buf pool.fill).off.toNat) bytes)).setPool
        (pool'.setOff pool.fill ((pool'.buf pool.fill).off.toNat + bytes.length)))
  /-- A frame boundary. -/
  | bounded (rest : List Packet) (pool' : Pool) (hp : pool' = pool ∨ ∃ odd, pool' = pool.setOdd pool.fill odd) :
    PacketNext s pool (boundary pool' ((s.setRest rest).setPool pool'))

theorem recordOdd_eq (p : Packet) (first : Byte) (pool : Pool) :
    recordOdd p first pool = pool ∨ ∃ odd, recordOdd p first pool = pool.setOdd pool.fill odd := by
  unfold recordOdd
  split
  · exact .inr ⟨_, rfl⟩
  · exact .inl rfl

theorem setPool_self (s : State) (pool : Pool) (h : s.run = .running pool) : s.setPool pool = s := by
  cases s
  simp only at h
  simp [State.setPool, h]

/-- Everything an XFER step's next state can be. -/
theorem exec_xfer_next (xferFail : Bool) (packets : List Packet) (s t : State)
    (h : exec (.xfer xferFail packets) s = .next t) :
    (s.run = .stopped ∧ t = s.setRest []) ∨ ∃ pool, s.run = .running pool ∧ PacketNext s pool t := by
  simp only [exec, execXfer] at h
  split at h
  · next hr => cases h; exact .inl ⟨hr, rfl⟩
  · next pool hr =>
    refine .inr ⟨pool, hr, ?_⟩
    have quiet : ∀ rest, PacketNext s pool (s.setRest rest) := fun rest => by
      have := PacketNext.quiet (s := s) rest pool (.inl rfl)
      rwa [setPool_self (s.setRest rest) pool hr] at this
    split at h
    · cases h; exact .failed
    · split at h
      · cases h; exact quiet []
      · next p rest =>
        rcases packetStep_cases p pool (s.setRest rest) with ⟨_, e⟩ | ⟨_, _, e⟩ | ⟨first, more, _, _, _, e⟩ |
          ⟨first, more, _, _, _, e⟩ | ⟨first, more, _, _, _, e⟩ <;> rw [e] at h
        · cases h; exact .counted rest
        · cases h; exact quiet rest
        · have hp := recordOdd_eq p first pool
          have hfill := recordOdd_fill p first pool
          generalize recordOdd p first pool = pool' at h hp hfill
          simp only [appendData, hfill] at h
          split at h
          · cases h; exact .overflowed rest pool' hp
          · split at h
            · next s' hs' =>
              obtain ⟨h1, h2, rfl⟩ := State.rawStore_ok _ _ _ _ _ hs'
              cases h
              exact .appended rest pool' _ hp h1 h2
            · cases h
        · cases h; exact .bounded rest _ (recordOdd_eq p first pool)
        · cases h; exact .quiet rest _ (recordOdd_eq p first pool)

/-- What a frame boundary gives (R121 to R124): nothing, a publish, or a drop. -/
theorem boundary_cases (pool : Pool) (s : State) :
    ((pool.buf pool.fill).off = 0 ∧ boundary pool s = s) ∨
    (∃ q, (q = pool ∨ q = pool.countErr pool.fill) ∧ (q.buf q.fill).err = 0 ∧
      ((pool.buf pool.fill).off.toNat < s.expectedBytes → q = pool.countErr pool.fill) ∧
      (boundary pool s = s.setPool (q.publish q.fill).1.fillReset ∨
        boundary pool s = (s.setPool (q.publish q.fill).1.fillReset).countDumped)) ∨
    (∃ q, (q = pool ∨ q = pool.countErr pool.fill) ∧ boundary pool s = (s.setPool q.fillReset).countDropped) := by
  unfold boundary
  split
  · next h => exact .inl ⟨h, rfl⟩
  · have hq : shortCheck pool s = pool ∨ shortCheck pool s = pool.countErr pool.fill := by
      unfold shortCheck
      split
      · exact .inr rfl
      · exact .inl rfl
    have hshort : (pool.buf pool.fill).off.toNat < s.expectedBytes → shortCheck pool s = pool.countErr pool.fill :=
      fun h => by simp [shortCheck, h]
    dsimp only
    generalize shortCheck pool s = q at hq hshort
    split
    · next he =>
      refine .inr (.inl ⟨q, hq, he, hshort, ?_⟩)
      unfold publishFrame State.afterPublish
      rcases q.publish_cases q.fill with ⟨_, _, _, e⟩ | ⟨_, _, _, _, e⟩ <;> rw [e]
      · exact .inl rfl
      · exact .inr rfl
    · exact .inr (.inr ⟨q, hq, rfl⟩)

/-! ## The model's own fields -/

theorem boundary_schedule (pool : Pool) (s : State) :
    (boundary pool s).schedule = s.schedule ∧ (boundary pool s).pull = s.pull := by
  rcases boundary_cases pool s with ⟨_, e⟩ | ⟨q, _, _, _, e | e⟩ | ⟨q, _, e⟩ <;> rw [e] <;> exact ⟨rfl, rfl⟩

theorem terminatePull_schedule (s : State) : s.terminatePull.schedule = s.schedule := by
  unfold State.terminatePull
  split <;> rfl

/-- No instruction changes the schedule (log 3). -/
theorem exec_schedule (i : Instr) (s t : State) (h : exec i s = .next t) : t.schedule = s.schedule := by
  cases hi : i.space with
  | command =>
    cases exec_command_next i s t hi h with
    | stopped => exact terminatePull_schedule s
    | _ => rfl
  | ingest =>
    cases i with
    | xfer xferFail packets =>
      rcases exec_xfer_next _ _ _ _ h with ⟨_, rfl⟩ | ⟨pool, _, hn⟩
      · rfl
      · cases hn with
        | bounded rest pool' _ => exact (boundary_schedule _ _).1
        | _ => rfl
    | _ => cases hi
  | internal =>
    cases i with
    | publish =>
      simp only [exec, execPublish] at h
      split at h <;> cases h
      unfold State.afterPublish
      split <;> rfl
    | _ => cases hi

/-- No agent's step changes the schedule (log 3). -/
theorem runMove_schedule (m : Move) (s t : State) (h : runMove m s = .next t) : t.schedule = s.schedule := by
  cases m with
  | produce =>
    rcases producerStep_cases s with ⟨p, rest, _, e⟩ | ⟨_, _, e⟩ | ⟨f, ps, after, _, _, e⟩ | ⟨_, _, _, e⟩ <;>
      rw [runMove, e] at h
    · exact exec_schedule _ _ _ h
    · cases h; rfl
    · exact exec_schedule _ (s.setIngestPort after) _ h
    · cases h
  | command =>
    rcases takeCommand_cases s with ⟨_, e⟩ | ⟨w, ws, i, _, _, e⟩ | ⟨w, ws, er, _, _, e⟩ <;> rw [runMove, e] at h
    · cases h; rfl
    · exact exec_schedule _ (s.setCmdPort ws) _ h
    · cases h; rfl
  | pull =>
    simp only [runMove, pullStep] at h
    split at h
    · cases h; rfl
    · rcases waitStep_next _ _ _ h with ⟨_, rfl⟩ | ⟨_, _, rfl⟩ | ⟨_, _, _, _, rfl⟩ <;> rfl
    · obtain ⟨_, _, _, _, _, _, _, _, rfl⟩ := convertStep_next _ _ _ h
      rfl

end Sys2Proof.Machine
end

