-- ==== Sys2Proof/Laws/Geometry.lean ====
section
/-!
SUPPORT. What the constraints of R8 say of a state's parameters and geometry.
-/
namespace Sys2Proof.Machine

theorem resEntryOk_spec (e : ResEntry) (h : resEntryOk e = true) : 1 ≤ e.width ∧ 1 ≤ e.height ∧ 1 ≤ e.factor := by
  simp only [resEntryOk, factorOk, Bool.and_eq_true, decide_eq_true_eq, List.contains_iff_mem, List.mem_cons,
    List.not_mem_nil, or_false] at h
  omega

/-- R8 for the parameters of a state and the resolution its MODE names. -/
theorem State.params_spec (s : State) :
    2 ≤ s.poolSize ∧ s.poolSize ≤ 15 ∧ 2 ≤ s.nslots ∧ s.nslots ≤ 256 ∧ 1 ≤ s.slotBytes ∧ s.cap < 2 ^ 32 ∧
      1 ≤ s.width ∧ 1 ≤ s.height ∧ 1 ≤ s.factor ∧ s.width * s.height ≤ s.cap := by
  have hp := s.params.property
  have hmem : s.params.val.resTable[s.mode.res] ∈ s.params.val.resTable.toList := by simp
  simp only [paramsOk, Option.isNone_iff_eq_none, paramError] at hp
  split_ifs at hp with h1 h2 h3 h4 h5 h6 h7
  simp only [Bool.not_eq_false, List.all_eq_true] at h4 h5
  obtain ⟨hw, hh, hf⟩ := resEntryOk_spec _ (h4 _ hmem)
  have hc := of_decide_eq_true (h5 _ hmem)
  exact ⟨by unfold State.poolSize; omega, by unfold State.poolSize; omega, by unfold State.nslots; omega,
    by unfold State.nslots; omega, by unfold State.slotBytes; omega, by unfold State.cap; omega, hw, hh, hf, hc⟩

theorem foldl_max_spec (l : List Nat) (m : Nat) :
    m ≤ l.foldl max m ∧ (∀ n ∈ l, n ≤ l.foldl max m) ∧ (l.foldl max m = m ∨ l.foldl max m ∈ l) := by
  induction l generalizing m with
  | nil => simp
  | cons a l ih =>
    obtain ⟨h1, h2, h3⟩ := ih (max m a)
    simp only [List.foldl_cons, List.mem_cons, forall_eq_or_imp]
    refine ⟨by omega, ⟨by omega, h2⟩, ?_⟩
    rcases h3 with h3 | h3
    · rw [h3]
      omega
    · exact .inr (.inr h3)

/-- `largest` is a size of some entry, and no entry's size exceeds it. -/
theorem largest_spec (size : ResEntry → Nat) (t : ResTable) :
    (∀ e ∈ t.toList, size e ≤ largest size t) ∧ ∃ e ∈ t.toList, largest size t = size e := by
  obtain ⟨_, h2, h3⟩ := foldl_max_spec (t.toList.map size) 0
  refine ⟨fun e he => h2 _ (List.mem_map_of_mem he), ?_⟩
  rcases h3 with h3 | h3
  · refine ⟨t[0], by simp, ?_⟩
    have := h2 _ (List.mem_map_of_mem (f := size) (a := t[0]) (by simp))
    unfold largest
    omega
  · obtain ⟨e, he, h⟩ := List.mem_map.1 h3
    exact ⟨e, he, h.symm⟩

/-- The image fits the native frame (R26). -/
theorem State.nwidth_mul_factor_le (s : State) : s.nwidth * s.factor ≤ s.width :=
  Nat.div_mul_le_self _ _

theorem State.nheight_mul_factor_le (s : State) : s.nheight * s.factor ≤ s.height :=
  Nat.div_mul_le_self _ _

end Sys2Proof.Machine
end

