-- ==== Sys2Proof/Laws/Runs.lean ====
section
/-!
SUPPORT. What the HOST leaves alone between two steps, and what a step of a run without end is.
-/
namespace Sys2Proof.Machine

theorem hostAct_frame (s : State) (a : HostAction) :
    ∃ cmd ingest responses, hostAct s a = { s with cmdPort := cmd, ingestPort := ingest, responses := responses } := by
  cases a <;> exact ⟨_, _, _, rfl⟩

/-- The HOST changes the ports and the response channel only (R234). -/
theorem hostActs_frame (s : State) (actions : List HostAction) :
    ∃ cmd ingest responses,
      hostActs s actions = { s with cmdPort := cmd, ingestPort := ingest, responses := responses } := by
  induction actions generalizing s with
  | nil => exact ⟨_, _, _, rfl⟩
  | cons a actions ih =>
    obtain ⟨c, i, r, e⟩ := hostAct_frame s a
    obtain ⟨c', i', r', e'⟩ := ih (hostAct s a)
    exact ⟨c', i', r', by rw [hostActs, List.foldl_cons, ← hostActs, e', e]⟩

/-- A step of a run is idle, or a chosen move's, which leaves the schedule the choice left. -/
theorem IsRun.step_cases {s : Nat → State} {host : Nat → List HostAction} (h : IsRun s host) (n : Nat) :
    ((hostActs (s n) (host n)).chooseMove = none ∧ s (n + 1) = hostActs (s n) (host n)) ∨
    ∃ m s', (hostActs (s n) (host n)).chooseMove = some (m, s') ∧ runMove m s' = .next (s (n + 1)) ∧
      (s (n + 1)).schedule = s'.schedule := by
  have hn := h n
  rcases step_eq (hostActs (s n) (host n)) with ⟨hc, e⟩ | ⟨m, s', hc, e⟩ <;> rw [e] at hn
  · exact .inl ⟨hc, (Host.Outcome.next.inj hn).symm⟩
  · exact .inr ⟨m, s', hc, hn, runMove_schedule m s' _ hn⟩

end Sys2Proof.Machine
end

