-- ==== Sys2Proof/Laws/View.lean ====
section
/-!
SUPPORT. The shape of a converted view: the bytes of each pixel and where they stand in the view.
-/
namespace Sys2Proof.Machine

theorem Format.background_length (f : Format) : f.background.length = f.bpp := by
  cases f <;> rfl

theorem State.pixelOf_length (s : State) (p : Rgb) (x : Nat) : (s.pixelOf p x).length = s.bpp := by
  unfold State.pixelOf State.bpp Format.bpp
  cases s.mode.fmt <;> rfl

/-- Every pixel that converts has the format's number of bytes (R163). -/
theorem State.viewPixel_length (s : State) (b x y : Nat) (bytes : List Byte) (h : s.viewPixel b x y = .ok bytes) :
    bytes.length = s.bpp := by
  unfold State.viewPixel at h
  split at h
  · split at h
    · cases h
      exact s.mode.fmt.background_length
    · split at h
      · cases h
        exact s.pixelOf_length _ _
      · cases h
  · cases h
    exact List.length_replicate

theorem joinBytes_cons_ok (x : Except Fault (List Byte)) (l : List (Except Fault (List Byte))) (bytes : List Byte)
    (h : joinBytes (x :: l) = .ok bytes) : ∃ a more, x = .ok a ∧ joinBytes l = .ok more ∧ bytes = a ++ more := by
  cases x with
  | error f => cases h
  | ok a =>
    simp only [joinBytes] at h
    split at h
    · next more hm => cases h; exact ⟨a, more, rfl, hm, rfl⟩
    · cases h

/-- Computations that all succeed are joined. -/
theorem joinBytes_of_ok (l : List (Except Fault (List Byte))) (h : ∀ x ∈ l, ∃ a, x = .ok a) :
    ∃ bytes, joinBytes l = .ok bytes := by
  induction l with
  | nil => exact ⟨[], rfl⟩
  | cons x l ih =>
    obtain ⟨a, rfl⟩ := h x List.mem_cons_self
    obtain ⟨more, hm⟩ := ih fun y hy => h y (List.mem_cons_of_mem _ hy)
    exact ⟨a ++ more, by simp [joinBytes, hm]⟩

/-- Pieces of one length `m`, joined: the total length, and byte `k` of piece `n` stands at `n * m + k`. -/
theorem joinBytes_uniform (m : Nat) (l : List (Except Fault (List Byte))) (bytes : List Byte)
    (hm : ∀ x ∈ l, ∀ a, x = .ok a → a.length = m) (h : joinBytes l = .ok bytes) :
    bytes.length = l.length * m ∧
      ∀ n (hn : n < l.length), ∃ a, l[n] = .ok a ∧ ∀ k, k < m → bytes[n * m + k]? = a[k]? := by
  induction l generalizing bytes with
  | nil =>
    cases h
    exact ⟨by simp, fun n hn => absurd hn (Nat.not_lt_zero n)⟩
  | cons x l ih =>
    obtain ⟨a, more, rfl, hj, rfl⟩ := joinBytes_cons_ok x l bytes h
    have ha : a.length = m := hm _ List.mem_cons_self a rfl
    obtain ⟨hl, hg⟩ := ih more (fun y hy => hm y (List.mem_cons_of_mem _ hy)) hj
    refine ⟨by simp only [List.length_append, List.length_cons, ha, hl, Nat.succ_mul]; omega, ?_⟩
    intro n hn
    cases n with
    | zero => exact ⟨a, rfl, fun k hk => by rw [Nat.zero_mul, Nat.zero_add, List.getElem?_append_left (by omega)]⟩
    | succ n =>
      obtain ⟨b, hb, hk⟩ := hg n (by simpa using hn)
      refine ⟨b, by simpa using hb, fun k hkm => ?_⟩
      have e : (n + 1) * m + k = a.length + (n * m + k) := by rw [ha, Nat.succ_mul]; omega
      rw [e, List.getElem?_append_right (Nat.le_add_right _ _), Nat.add_sub_cancel_left]
      exact hk k hkm

/-- A converted view: its length, and each pixel's bytes at the pixel's place (R163). -/
theorem State.viewBytes_ok (s : State) (b : Nat) (bytes : List Byte) (h : s.viewBytes b = .ok bytes) :
    bytes.length = s.outBytes ∧
      ∀ x y, x < s.vx → y < s.vy → ∃ px, s.viewPixel b x y = .ok px ∧
        ∀ k, k < s.bpp → bytes[(y * s.vx + x) * s.bpp + k]? = px[k]? := by
  obtain ⟨hl, hg⟩ := joinBytes_uniform s.bpp _ bytes (by
    intro e he a hea
    obtain ⟨n, _, rfl⟩ := List.mem_map.1 he
    exact s.viewPixel_length b _ _ a hea) h
  simp only [List.length_map, List.length_range] at hl hg
  refine ⟨hl, fun x y hx hy => ?_⟩
  have hn : y * s.vx + x < s.vx * s.vy := by
    have h1 : (y + 1) * s.vx ≤ s.vy * s.vx := Nat.mul_le_mul_right _ hy
    rw [Nat.succ_mul, Nat.mul_comm s.vy] at h1
    omega
  obtain ⟨px, hpx, hk⟩ := hg _ hn
  have hm : (y * s.vx + x) % s.vx = x := by rw [Nat.mul_comm, Nat.mul_add_mod, Nat.mod_eq_of_lt hx]
  have hd : (y * s.vx + x) / s.vx = y := by
    rw [Nat.mul_comm, Nat.mul_add_div (by omega), Nat.div_eq_of_lt hx, Nat.add_zero]
  simp only [List.getElem_map, List.getElem_range, hm, hd] at hpx
  exact ⟨px, hpx, hk⟩

/-- A view whose pixels all convert is converted. -/
theorem State.viewBytes_of_pixels (s : State) (b : Nat)
    (h : ∀ x y, x < s.vx → y < s.vy → ∃ px, s.viewPixel b x y = .ok px) : ∃ bytes, s.viewBytes b = .ok bytes := by
  refine joinBytes_of_ok _ fun e he => ?_
  obtain ⟨n, hn, rfl⟩ := List.mem_map.1 he
  have hlt : n < s.vx * s.vy := List.mem_range.1 hn
  have hpos : 0 < s.vx := Nat.pos_of_ne_zero fun h0 => by simp [h0] at hlt
  exact h _ _ (Nat.mod_lt _ hpos) (Nat.div_lt_of_lt_mul hlt)

end Sys2Proof.Machine
end

