-- ==== Sys2Proof/Tests/Slice0.lean ====
section
/-!
SUPPORT. Tests of one step each, with the expected values of spec/95_test_vectors.md, and, for every statement with
hypotheses, a state and operands that meet them (witness_…).
-/
namespace Sys2Proof.Tests

set_option Elab.async false

open Sys2Proof.Machine

/-! ## Small states -/

/-- TCFG at power-on. -/
def idle : State := State.powerOn tcfg

/-- TCFG running with a pool. -/
def live (pool : Pool) : State := { idle with run := .running pool }

/-- A buffer with an offset and an error count. -/
def filled (off err : Nat) : Buf := { off := BitVec.ofNat 32 off, err := BitVec.ofNat 32 err, odd := false }

/-- RAW4 of spec/95_test_vectors.md. -/
def raw4 : List Byte := [200, 100, 204, 104, 108, 40, 112, 44, 208, 116, 212, 120, 124, 48, 128, 52]

/-- V-POOL-1 step 1: buffer 0 is Full, buffer 1 is Fill. -/
def poolFull : Pool where
  fill := 1
  read := none
  empty := [2]
  full := [0]
  bufs := [filled 16 0, filled 0 0, filled 0 0]

/-- V-POOL-1 step 2: buffer 0 is Read. -/
def poolRead : Pool := { poolFull with read := some 0, full := [] }

/-- The state after V-POOL-1 step 1. -/
def oneFull : State := { live poolFull with raw := Mem.writeList [] 0 raw4 }

/-- The state after V-POOL-1 step 2. -/
def reading : State := { live poolRead with raw := Mem.writeList [] 0 raw4 }

/-- A pool whose Fill buffer 0 has an offset and an error count. -/
def poolFilling (off err : Nat) : Pool := { freshPool 3 with bufs := [filled off err, filled 0 0, filled 0 0] }

/-- A command word where the next step takes it. -/
def sending (s : State) (w : Word) : State := { s with cmdPort := [w], schedule := [.command] }

/-- An ingest record where the next step takes it. -/
def receiving (s : State) (ws : List Word) : State := { s with ingestPort := ws, schedule := [.produce] }

/-- The next state, if the outcome has one. -/
def after : Host.Outcome State Fault Refusal → Option State
  | .next s => some s
  | .fault _ => none
  | .refused _ => none

/-- The responses of the next state: opcode, status, value. -/
def answersOf (o : Host.Outcome State Fault Refusal) : Option (List (Nat × Status × Nat)) :=
  (after o).map fun s => s.responses.map fun r => (r.op.toNat, r.status, r.value.toNat)

/-- The roles of the next state: Fill, Read, Empty, Full. -/
def rolesOf (o : Host.Outcome State Fault Refusal) : Option (Nat × Option Nat × List Nat × List Nat) :=
  (after o).bind fun s => s.pool?.map fun p => (p.fill, p.read, p.empty, p.full)

/-- The offset and error count of a buffer of the next state. -/
def bufOf (b : Nat) (o : Host.Outcome State Fault Refusal) : Option (Nat × Nat × Bool) :=
  (after o).bind fun s => s.pool?.map fun p => ((p.buf b).off.toNat, (p.buf b).err.toNat, (p.buf b).odd)

/-- Output bytes of the next state. -/
def bytesOf (a n : Nat) (o : Host.Outcome State Fault Refusal) : Option (List (Option Nat)) :=
  (after o).map fun s => (List.range n).map fun k => (s.outRead (a + k)).map BitVec.toNat

/-- A packet of the given bytes. -/
def good (bytes : List Byte) : Packet := { err := false, payload := bytes }

/-- The end-of-frame marker of FRAME4. -/
def marker : Packet := good [0, 0, 0, 0]

/-! ## Well-formedness (R90, R91) -/

theorem test_wf_xfer : (Instr.xfer true [good [1, 2, 3, 4, 5]]).wf = true := by decide

/-- A payload of `n` bytes is well formed exactly when `n` fits 24 bits. -/
theorem good_replicate_wf (n : Nat) : (good (List.replicate n 0)).wf = decide (n < 2 ^ 24) := by
  rw [good, Packet.wf, List.length_replicate]

theorem test_wf_payload_too_long : (good (List.replicate (2 ^ 24) 0)).wf = false := by
  rw [good_replicate_wf]
  decide

theorem test_wf_longest_payload : (good (List.replicate (2 ^ 24 - 1) 0)).wf = true := by
  rw [good_replicate_wf]
  decide

/-- A record of `n` markers is well formed exactly when `n` fits 16 bits. -/
theorem markers_wf (n : Nat) : (Instr.xfer false (List.replicate n marker)).wf = decide (n < 2 ^ 16) := by
  have h : (List.replicate n marker).all Packet.wf = true := by
    rw [List.all_eq_true]
    intro p hp
    rw [List.eq_of_mem_replicate hp]
    decide
  rw [Instr.wf, packetsWf, h, List.length_replicate, Bool.and_true]

theorem test_wf_too_many_packets : (Instr.xfer false (List.replicate (2 ^ 16) marker)).wf = false := by
  rw [markers_wf]
  decide

theorem test_wf_most_packets : (Instr.xfer false (List.replicate (2 ^ 16 - 1) marker)).wf = true := by
  rw [markers_wf]
  decide

/-! ## Decoding: words written out from R84 to R92, R97 and spec/95_test_vectors.md section 3 -/

theorem test_decode_cfgMode : decodeCommand 0x010000C5 = .ok (.cfgMode 5 4 true false) := by decide
theorem test_decode_cfgMode_vflip : decodeCommand 0x01000124 = .ok (.cfgMode 4 2 false true) := by decide
theorem test_decode_cfgMode_reserved : decodeCommand 0x01000200 = .error (.reservedBits 0x01) := by decide
theorem test_decode_cfgBright : decodeCommand 0x0200ABCD = .ok (.cfgBright 0xABCD) := by decide
theorem test_decode_cfgBright_reserved : decodeCommand 0x02010000 = .error (.reservedBits 0x02) := by decide
theorem test_decode_cfgView : decodeCommand 0x03006008 = .ok (.cfgView 8 6) := by decide
theorem test_decode_startCapture : decodeCommand 0x10000000 = .ok .startCapture := by decide
theorem test_decode_startCapture_operand : decodeCommand 0x10000001 = .error (.reservedBits 0x10) := by decide
theorem test_decode_stopCapture : decodeCommand 0x11000000 = .ok .stopCapture := by decide
theorem test_decode_pullFrame : decodeCommand 0x200000FF = .ok (.pullFrame 255) := by decide
theorem test_decode_pullFrame_reserved : decodeCommand 0x20000100 = .error (.reservedBits 0x20) := by decide
theorem test_decode_pollReady : decodeCommand 0x21000000 = .ok .pollReady := by decide
theorem test_decode_cancelPull : decodeCommand 0x22000000 = .ok .cancelPull := by decide
theorem test_decode_readReg : decodeCommand 0x30000005 = .ok (.readReg 5) := by decide
theorem test_decode_acquireRead : decodeCommand 0x40000000 = .ok .acquireRead := by decide
theorem test_decode_releaseRead : decodeCommand 0x41000000 = .ok .releaseRead := by decide
theorem test_decode_convert : decodeCommand 0x42000001 = .ok (.convert 1) := by decide
theorem test_decode_brighten : decodeCommand 0x43000001 = .ok (.brighten 1) := by decide
theorem test_decode_publish_no_port : decodeCommand 0x81000000 = .error (.unknownOpcode 0x81) := by decide
theorem test_decode_publish : decodeIn .internal [0x81000000] = some (.publish, []) := by decide
theorem test_decode_unknown : decodeCommand 0x44000000 = .error (.unknownOpcode 0x44) := by decide

/-- The 4-byte packet of R92 and a failed transfer with an error packet. -/
theorem test_decode_xfer :
    decodeRecord [0x80000100, 0x00000004, 0x00004180, 7] = .ok (.xfer false [good [0x80, 0x41, 0, 0]], [7]) ∧
    decodeRecord [0x80000101, 0x80000005, 0x04030201, 5] =
      .ok (.xfer true [{ err := true, payload := [1, 2, 3, 4, 5] }], []) := by decide +kernel

/-- R94: a wrong opcode, a reserved bit, a nonzero byte past the length. -/
theorem test_decode_malformed :
    decodeRecord [0x81000100, 0] = .error .badOpcode ∧ decodeRecord [0x80000002] = .error .reservedBits ∧
    decodeRecord [0x80000100, 0x01000000] = .error .reservedBits ∧
    decodeRecord [0x80000100, 1, 0x100] = .error .nonzeroPad ∧
    decodeRecord [0x80000100, 4] = .error .truncated := by decide +kernel

theorem test_encode_xfer :
    encode (.xfer false [good [0x80, 0x41, 0, 0]]) = [0x80000100, 0x00000004, 0x00004180] := by decide +kernel

theorem test_table_words :
    decodeTableWord 32 0x80000200 = some (.xfer false [good [], good []]) ∧
    decodeTableWord 32 0x81000000 = some .publish ∧ decodeTableWord 32 0x10000000 = some .startCapture := by
  decide +kernel

/-! ## Configuration (V-CTL-1, spec/95_test_vectors.md section 3) -/

theorem test_cfgMode :
    (after (exec (.cfgMode 5 4 true false) idle)).map (fun s => (s.mode.res.val, s.mode.fmt, s.mode.hflip, s.mode.vflip)) =
      some (5, .uyvy, true, false) := by decide +kernel

theorem test_cfgMode_bad :
    answersOf (exec (.cfgMode 10 0 false false) idle) = some [(0x01, .badConfig, 0)] ∧
    answersOf (exec (.cfgMode 0 6 false false) idle) = some [(0x01, .badConfig, 0)] := by decide +kernel

theorem test_cfgBright : (after (exec (.cfgBright 0xFFFF) idle)).map (·.brightReg) = some 0xFFFF := by decide +kernel

theorem test_cfgView : (after (exec (.cfgView 8 6) idle)).map (·.viewReg) = some 0x006008 := by decide +kernel

/-! ## Start and stop (V-CTL-1, V-CTL-4) -/

theorem test_startCapture :
    rolesOf (exec .startCapture idle) = some (0, none, [1, 2], []) ∧
    (after (exec .startCapture idle)).map (fun s => (s.poolReg, s.statusReg)) = some (0x2000, 1) := by decide +kernel

theorem test_startCapture_view :
    answersOf (exec .startCapture { idle with viewX := 3, viewY := 3 }) = some [(0x10, .badConfig, 0)] := by
  decide +kernel

theorem test_stopCapture_pull :
    answersOf (exec .stopCapture { live (freshPool 3) with pull := .wait 1 }) =
      some [(0x20, .terminated, 0), (0x11, .ok, 0)] := by decide +kernel

/-! ## Pull, poll, cancel, registers (V-CTL-3, V-CTL-5, V-CTL-6) -/

theorem test_pullFrame :
    (after (exec (.pullFrame 1) (live (freshPool 3)))).map (fun s => (s.pull, s.responses)) = some (.wait 1, []) ∧
    answersOf (exec (.pullFrame 2) (live (freshPool 3))) = some [(0x20, .badSlot, 0)] := by decide +kernel

theorem test_pull_steps :
    (after (pullStep { oneFull with pull := .wait 1 })).map (fun s => (s.pull, s.readRole)) = some (.convert 1, some 0) ∧
    answersOf (pullStep { reading with pull := .convert 1 }) = some [(0x20, .ok, 48)] ∧
    rolesOf (pullStep { reading with pull := .convert 1 }) = some (1, none, [2, 0], []) ∧
    bytesOf (256 + 15) 6 (pullStep { reading with pull := .convert 1 }) =
      some [some 206, some 110, some 40, some 208, some 112, some 42] := by decide +kernel

theorem test_pollReady :
    answersOf (exec .pollReady oneFull) = some [(0x21, .ok, 1)] ∧
    answersOf (exec .pollReady idle) = some [(0x21, .ok, 0)] := by decide +kernel

theorem test_cancelPull :
    answersOf (exec .cancelPull { live (freshPool 3) with pull := .wait 0 }) =
      some [(0x20, .retry, 0), (0x22, .ok, 1)] := by decide +kernel

theorem test_readReg :
    answersOf (exec (.readReg 7) reading) = some [(0x30, .ok, 0x1101)] ∧
    answersOf (exec (.readReg 6) reading) = some [(0x30, .ok, 0x41)] ∧
    answersOf (exec (.readReg 10) reading) = some [(0x30, .illegal, 0)] := by decide +kernel

theorem test_busy :
    answersOf (exec .acquireRead { live (freshPool 3) with pull := .wait 1 }) = some [(0x40, .busy, 0)] := by
  decide +kernel

/-! ## Pool (V-POOL-1, V-POOL-2, V-POOL-3) -/

theorem test_acquireRead :
    answersOf (exec .acquireRead (live { poolFull with full := [2, 0], empty := [] })) = some [(0x40, .ok, 2)] := by
  decide +kernel

theorem test_releaseRead :
    rolesOf (exec .releaseRead (live { poolRead with read := some 2, empty := [] })) = some (1, none, [2], []) := by
  decide +kernel

theorem test_publish :
    rolesOf (exec .publish (live (freshPool 3))) = some (1, none, [2], [0]) ∧
    rolesOf (exec .publish (live { poolFull with fill := 2, empty := [], full := [1], read := some 0 })) =
      some (1, some 0, [], [2]) := by decide +kernel

/-! ## Conversion (V-DM-1, V-DM-2, V-DM-3) and brightness (V-BR-2) -/

theorem test_convert :
    answersOf (exec (.convert 0) reading) = some [(0x42, .ok, 48)] ∧
    bytesOf 12 9 (exec (.convert 0) reading) =
      some [some 0, some 0, some 0, some 206, some 110, some 40, some 208, some 112, some 42] ∧
    bytesOf 27 6 (exec (.convert 0) reading) =
      some [some 210, some 116, some 44, some 212, some 118, some 46] := by decide +kernel

theorem test_convert_uyvy_hflip :
    bytesOf 8 8 (exec (.convert 0) { reading with mode := { reading.mode with fmt := .uyvy } }) =
      some [some 128, some 16, some 176, some 126, some 84, some 128, some 128, some 16] ∧
    bytesOf 15 6 (exec (.convert 0) { reading with mode := { reading.mode with hflip := true } }) =
      some [some 208, some 112, some 42, some 206, some 110, some 40] := by decide +kernel

theorem test_brighten :
    bytesOf 0 6 (exec (.brighten 0)
      { reading with bright := 49151, out := Mem.writeList [] 0 [206, 110, 40, 208] }) =
      some [some 255, some 174, some 104, some 255, none, none] ∧
    bytesOf 0 4 (exec (.brighten 0)
      { reading with bright := 0, out := Mem.writeList [] 0 [206, 110, 40, 208] }) =
      some [some 79, some 0, some 0, some 81] := by decide +kernel

/-! ## Ingest (V-ING-1, V-ING-2, V-ING-5, V-ING-8a) -/

theorem test_xfer_data :
    bufOf 0 (exec (.xfer false [good [0x40, 0, 0, 0, 9, 8, 7, 6]]) (live (freshPool 3))) = some (4, 0, true) ∧
    (after (exec (.xfer false [good [0x40, 0, 0, 0, 9, 8, 7, 6]]) (live (freshPool 3)))).map
      (fun s => Mem.read s.raw 3) = some (some 6) := by decide +kernel

theorem test_xfer_marker :
    rolesOf (exec (.xfer false [marker]) (live (poolFilling 16 0))) = some (1, none, [2], [0]) ∧
    (after (exec (.xfer false [marker]) (live (poolFilling 12 0)))).map (·.dropped) = some 1 := by decide +kernel

/-! ## Steps and reset -/

theorem test_step_command : answersOf (step (sending idle 0x21000000)) = some [(0x21, .ok, 0)] := by decide +kernel

theorem test_step_illegal : answersOf (step (sending idle 0x81000000)) = some [(0x81, .illegal, 0)] := by
  decide +kernel

theorem test_placed_word : answersOf (step (idle.withFetchWord 32 0x10000000)) = some [(0x10, .ok, 0)] := by
  decide +kernel

theorem test_step_idle : (after (step idle)).isSome = true := by decide +kernel

/-! ## Witnesses: encodings and steps -/

theorem witness_DecodeOfEncode :
    (Instr.cfgMode 15 7 true true).wf = true ∧ (Instr.xfer true [{ err := true, payload := [1, 2, 3, 4, 5] }]).wf = true ∧
    Instr.publish.wf = true := by decide

theorem witness_EncodeOfDecoded :
    decodeCommand 0x03FFFFFF = .ok (.cfgView 4095 4095) ∧
    decodeRecord [0x80000100, 3, 0x00030201, 9] = .ok (.xfer false [good [1, 2, 3]], [9]) := by decide +kernel

theorem witness_WordsMatchTheirRow :
    ((0x01000000, 0xFFFFFE00, 0x01) : Word × Word × Nat) ∈ commandRows ∧
    (∀ row ∈ commandRows, (0x80000000 : Word) &&& row.2.1 ≠ row.1) ∧
    (∀ row ∈ commandRows, (0x01000200 : Word) &&& row.2.1 ≠ row.1) := by decide

theorem witness_StepRunsCommand :
    (sending idle 0x10000000).cmdPort = 0x10000000 :: [] ∧ (sending idle 0x10000000).schedule = .command :: [] ∧
    decodeCommand 0x10000000 = .ok .startCapture := by decide +kernel

theorem witness_StepRunsRecord :
    (receiving idle [0x80000000]).schedule = .produce :: [] ∧ (receiving idle [0x80000000]).xferRest = [] ∧
    decodeRecord (receiving idle [0x80000000]).ingestPort = .ok (.xfer false [], []) ∧
    ({ receiving idle [] with xferRest := [marker] } : State).xferRest = marker :: [] := by decide +kernel

theorem witness_StepRunsPlacedWord :
    decodeTableWord 32 0x01000000 = some (.cfgMode 0 0 false false) ∧
    decodeTableWord 32 0x80000101 = some (.xfer true [good []]) := by decide +kernel

theorem witness_TakeChecksInOrder :
    (sending idle 0x81000000).cmdPort = 0x81000000 :: [] ∧
    (∀ row ∈ commandRows, (0x81000000 : Word) &&& row.2.1 ≠ row.1) ∧
    decodeCommand 0x40000000 = .ok .acquireRead ∧
    ({ sending (live (freshPool 3)) 0x40000000 with pull := .wait 0 } : State).pull ≠ .noPull := by decide +kernel

theorem witness_EveryInterleavingIsLegal : (sending idle 0x10000000).enabled .command = true := by decide +kernel

/-! ## Witnesses: configuration, start, stop -/

theorem witness_BadParametersRefused : ({ tcfgSet with poolSize := 1 } : ParamSet).poolSize = 1 := by decide

theorem witness_CfgMode :
    idle.pull = .noPull ∧ idle.run = .stopped ∧ (9 : BitVec 4).toNat = (9 : Fin 10).val ∧
    (5 : BitVec 3).toNat = Format.yuyv.code ∧ 10 ≤ (10 : BitVec 4).toNat ∧ 6 ≤ (6 : BitVec 3).toNat ∧
    (live poolFull).pull = .noPull ∧ (live poolFull).running = true := by decide +kernel

theorem witness_StartCapture :
    idle.pull = .noPull ∧ idle.run = .stopped ∧ idle.nwidth ≤ idle.vx ∧ idle.nheight ≤ idle.vy ∧
    idle.outBytes ≤ idle.slotBytes ∧ ({ idle with viewX := 3 } : State).vx < idle.nwidth ∧
    ({ idle with viewY := 3 } : State).vy < idle.nheight ∧
    idle.slotBytes < ({ idle with viewX := 10, viewY := 9 } : State).outBytes := by decide +kernel

theorem witness_StopCapture :
    reading.pull = .noPull ∧ ({ reading with pull := .convert 0 } : State).pull ≠ .noPull := by decide +kernel

/-! ## Witnesses: pulls, poll, cancel, registers -/

theorem witness_PullFrameIssue :
    oneFull.pull = .noPull ∧ oneFull.run = .running poolFull ∧ (1 : BitVec 8).toNat < oneFull.nslots ∧
    oneFull.nslots ≤ (2 : BitVec 8).toNat ∧ oneFull.fatal = false ∧ ({ oneFull with fatal := true } : State).fatal = true ∧
    poolFull.read = none ∧ reading.run = .running poolRead ∧ poolRead.read ≠ none := by decide +kernel

theorem witness_WaitStep :
    ({ oneFull with pull := .wait 1 } : State).pull = .wait 1 ∧ oneFull.run = .running poolFull ∧
    oneFull.fatal = false ∧ oneFull.streamError = false ∧ poolFull.read = none ∧ poolFull.full = 0 :: [] ∧
    ({ oneFull with streamError := true } : State).streamError = true := by decide +kernel

/-- The invariant in a state that holds a Read buffer, with or without a pull in its CONVERT phase. -/
theorem inv_of_reading (pull : Pull) (h : pull = .noPull ∨ pull = .convert 1) :
    ({ reading with pull := pull } : State).Inv where
  canonical := by
    show reading.raw.wf = true ∧ reading.out.wf = true
    decide +kernel
  rawRange := by
    show ∀ c ∈ reading.raw, c.1 < reading.poolSize * reading.cap
    decide +kernel
  outRange := by intro c hc; cases hc
  notFatal := rfl
  noFault := rfl
  pullRuns := fun _ => rfl
  pullSlot := by
    intro slot hs
    rcases h with rfl | rfl <;> rcases hs with hs | hs <;> cases hs
    show reading.slotOk 1 = true
    decide +kernel
  waitRead := by
    intro slot hs
    rcases h with rfl | rfl <;> cases hs
  convertRead := fun _ _ => rfl
  pool := by
    intro pool hp
    cases hp
    refine ⟨?_, ?_, ?_, ?_, ?_, ?_⟩
    · show poolRead.ids.Perm (List.range reading.poolSize)
      decide +kernel
    · show poolRead.bufs.length = reading.poolSize
      decide +kernel
    · show ∀ b, b < reading.poolSize → (poolRead.buf b).off.toNat ≤ reading.cap
      decide +kernel
    · show ∀ b, b < reading.poolSize → ∀ a, a < (poolRead.buf b).off.toNat →
        (Mem.read reading.raw (reading.rawKey b a)).isSome = true
      decide +kernel
    · intro b hb
      have hb0 : b = 0 := by
        rcases hb with h | h
        · cases h
        · exact (Option.some.inj h).symm
      rw [hb0]
      show reading.expectedBytes ≤ (poolRead.buf 0).off.toNat
      decide +kernel
    · show reading.viewFits = true
      decide +kernel

theorem witness_PullConverts :
    ({ reading with pull := .convert 1 } : State).Inv ∧
    ({ reading with pull := .convert 1 } : State).pull = .convert 1 ∧ reading.outBytes < 2 ^ 32 :=
  ⟨inv_of_reading _ (.inr rfl), rfl, by decide +kernel⟩

theorem witness_PollReady :
    oneFull.run = .running poolFull ∧ poolFull.full ≠ [] ∧ reading.run = .running poolRead ∧ poolRead.full = [] ∧
    reading.streamError = false ∧ idle.run = .stopped := by decide +kernel

theorem witness_CancelPull :
    ({ oneFull with pull := .wait 0 } : State).pull = .wait 0 ∧ ∀ slot, reading.pull ≠ .wait slot :=
  ⟨rfl, fun _ h => by cases h⟩

theorem witness_ReadReg :
    ((9 : BitVec 8), reading.fillErrorsReg) ∈ [((0 : BitVec 8), reading.modeReg), (9, reading.fillErrorsReg)] ∧
    10 ≤ (10 : BitVec 8).toNat ∧ 10 ≤ (255 : BitVec 8).toNat := by decide +kernel

theorem witness_RegisterFields :
    idle.run = .stopped ∧ reading.run = .running poolRead ∧ poolRead.ids.Perm (List.range reading.poolSize) := by
  decide +kernel

/-! ## Witnesses: pool, conversion, brightness -/

theorem witness_AcquireRead :
    oneFull.pull = .noPull ∧ oneFull.run = .running poolFull ∧ oneFull.fatal = false ∧ poolFull.read = none ∧
    poolFull.full = 0 :: [] ∧ poolRead.read ≠ none ∧ (freshPool 3).read = none ∧ (freshPool 3).full = [] ∧
    ({ oneFull with fatal := true } : State).fatal = true ∧ idle.run = .stopped := by decide +kernel

theorem witness_ReleaseRead :
    reading.pull = .noPull ∧ reading.run = .running poolRead ∧ reading.fatal = false ∧ poolRead.read = some 0 ∧
    poolFull.read = none ∧ ({ reading with fatal := true } : State).running = true := by decide +kernel

theorem witness_Publish :
    oneFull.run = .running poolFull ∧ poolFull.empty = 2 :: [] ∧
    ({ poolFull with empty := [] } : Pool).full = 0 :: [] ∧
    ({ poolRead with empty := [] } : Pool).full = [] := by decide +kernel

theorem witness_Convert :
    reading.pull = .noPull ∧ reading.Inv ∧ reading.run = .running poolRead ∧ poolRead.read = some 0 ∧
    (1 : BitVec 8).toNat < reading.nslots ∧ reading.nslots ≤ (2 : BitVec 8).toNat ∧ reading.fatal = false ∧
    poolFull.read = none :=
  ⟨rfl, inv_of_reading .noPull (.inl rfl), rfl, rfl, by decide +kernel, by decide +kernel, rfl, rfl⟩

theorem witness_Brighten :
    reading.pull = .noPull ∧ reading.running = true ∧ (1 : BitVec 8).toNat < reading.nslots ∧
    reading.outBytes ≤ reading.slotBytes ∧ 47 < reading.outBytes ∧ reading.nslots ≤ (2 : BitVec 8).toNat ∧
    ({ reading with mode := { reading.mode with fmt := .uyvy } } : State).mode.fmt = .uyvy ∧
    ({ reading with mode := { reading.mode with fmt := .yuyv } } : State).mode.fmt = .yuyv ∧
    idle.pull = .noPull ∧ idle.run = .stopped := by decide +kernel

/-! ## Witnesses: ingest -/

theorem witness_WholeTransfers : idle.run = .stopped ∧ oneFull.running = true := by decide +kernel

theorem witness_IgnoredPackets :
    oneFull.running = true ∧ ({ err := true, payload := [1] } : Packet).err = true ∧ (good []).payload = [] ∧
    (good [0x80, 1, 2, 3, 4, 5]).payload.length < (if (0x80 : Byte).getLsbD 7 then 8 else 4) ∧
    (good [1, 2, 3]).payload.length < (if (1 : Byte).getLsbD 7 then 8 else 4) := by decide +kernel

/-- A packet that just fits behind offset 60, and one that does not. -/
theorem witness_DataPacket :
    (live (poolFilling 60 0)).run = .running (poolFilling 60 0) ∧ (poolFilling 60 0).fill < idle.poolSize ∧
    (poolFilling 60 0).bufs.length = idle.poolSize ∧ 4 < (good [0, 0, 0, 0, 9, 8, 7, 6]).payload.length ∧
    ((poolFilling 60 0).buf 0).off.toNat + (8 - 4) ≤ idle.cap ∧
    idle.cap < ((poolFilling 60 0).buf 0).off.toNat + (9 - 4) ∧
    4 < (good [0, 0, 0, 0, 9, 8, 7, 6, 5]).payload.length := by decide +kernel

theorem witness_SpuriousMarker :
    (live (freshPool 3)).run = .running (freshPool 3) ∧ (freshPool 3).fill < (freshPool 3).bufs.length ∧
    ((freshPool 3).buf (freshPool 3).fill).off = 0 ∧ marker.err = false ∧
    marker.payload.length = (if (0 : Byte).getLsbD 7 then 8 else 4) ∧
    (good [0xC0, 0, 0, 0, 0, 0, 0, 0]).payload.length = (if (0xC0 : Byte).getLsbD 7 then 8 else 4) := by decide +kernel

theorem witness_MarkerPublishes :
    (∀ b, b ∈ (poolFilling 16 0).ids → b < (poolFilling 16 0).bufs.length) ∧
    ((poolFilling 16 0).buf 0).off ≠ 0 ∧ idle.expectedBytes ≤ ((poolFilling 16 0).buf 0).off.toNat ∧
    ((poolFilling 16 0).buf 0).err = 0 ∧ (poolFilling 16 0).empty = 1 :: [2] ∧
    ({ poolFilling 16 0 with empty := [], full := [1, 2] } : Pool).full ++ [0] = 1 :: [2, 0] := by decide +kernel

theorem witness_MarkerDrops :
    ((poolFilling 15 0).buf 0).off ≠ 0 ∧ ((poolFilling 15 0).buf 0).off.toNat < idle.expectedBytes ∧
    ((poolFilling 16 1).buf 0).off ≠ 0 ∧ ((poolFilling 16 1).buf 0).err ≠ 0 := by decide +kernel

/-! ## Witnesses: the conversion -/

theorem witness_TapsStayInside :
    1 ≤ 2 ∧ 2 + 2 ≤ reading.nwidth ∧ 2 + 2 ≤ reading.nheight := by decide +kernel

theorem witness_DefaultTaps :
    reading.params.val.bayerTaps = defaultTaps ∧ 2 + 2 ≤ reading.nwidth ∧
    2 = (if reading.mode.hflip then (reading.width - 2) - (2 - 1) * reading.factor else 1 + (2 - 1) * reading.factor) ∧
    ∀ dx, dx < 3 → ∀ dy, dy < 3 → reading.rawRead 0 ((2 + dy - 1) * reading.width + (2 + dx - 1)) =
      .ok (raw4.getD ((2 + dy - 1) * 4 + (2 + dx - 1)) 0) := by decide +kernel

/-- View pixel (2, 2) of a 4 x 4 image without padding, whose tap centre is (2, 2). -/
theorem witness_InteriorPixelBytes :
    reading.ox + 1 ≤ 2 ∧ 2 + 2 ≤ reading.ox + reading.nwidth ∧ reading.oy + 1 ≤ 2 ∧
    2 + 2 ≤ reading.oy + reading.nheight ∧
    2 = (if reading.mode.hflip then (reading.width - 2) - (2 - reading.ox - 1) * reading.factor
      else 1 + (2 - reading.ox - 1) * reading.factor) ∧
    (∀ dx, dx < 3 → ∀ dy, dy < 3 → reading.rawRead 0 ((2 + dy - 1) * reading.width + (2 + dx - 1)) =
      .ok (raw4.getD ((2 + dy - 1) * 4 + (2 + dx - 1)) 0)) ∧
    2 < reading.vx ∧ 2 < reading.vy ∧
    (match reading.demosaic 0 0 with
      | .ok _ => true
      | .error _ => false) = true := by decide +kernel

theorem witness_FlatField :
    0 < reading.poolSize ∧
    (∀ a, a < reading.width * reading.height →
      Mem.read (Mem.writeList [] 0 (List.replicate 16 7)) (reading.rawKey 0 a) = some 7) ∧
    reading.ox + 1 ≤ 1 ∧ 1 + 2 ≤ reading.ox + reading.nwidth ∧ reading.oy + 1 ≤ 2 ∧
    2 + 2 ≤ reading.oy + reading.nheight := by decide +kernel

/-- View 6 x 6: column 0 is padding, column 1 is border. -/
theorem witness_PaddingAndBorder :
    (match ({ reading with viewX := 6, viewY := 6 } : State).demosaic 0 1 with
      | .ok _ => true
      | .error _ => false) = true ∧
    0 < ({ reading with viewX := 6, viewY := 6 } : State).ox ∧
    ({ reading with viewX := 6, viewY := 6 } : State).ox = 1 := by decide +kernel

theorem witness_SmallImages :
    ({ reading with mode := { reading.mode with res := 2 } } : State).nwidth = 2 := by decide +kernel

/-- Buffers 0 and 1 hold the same bytes. -/
theorem witness_ConversionIsPure :
    (match reading.viewBytes 0 with
      | .ok _ => true
      | .error _ => false) = true ∧
    ∀ a, a < reading.cap →
      Mem.read (Mem.writeList (Mem.writeList [] 0 raw4) 64 raw4) (reading.rawKey 1 a) =
        Mem.read reading.raw (reading.rawKey 0 a) := by decide +kernel

theorem witness_BrightnessSaturates :
    32767 ≤ (32767 : BitVec 16).toNat ∧ (32766 : BitVec 16).toNat < 32767 := by decide

/-! ## Witnesses: whole-machine rules -/

/-- For FullIsFifo, FatalIsUnreachable, ConfigurationIsFixedWhileRunning and OneAnswerPerCommand: a step that takes
ACQUIRE_READ while running, with the fatal flag clear. -/
theorem witness_step_running :
    ∃ t q, step (sending oneFull 0x40000000) = .next t ∧ (sending oneFull 0x40000000).run = .running poolFull ∧
      t.run = .running q ∧ oneFull.fatal = false :=
  ⟨_, _, rfl, rfl, rfl, rfl⟩

theorem witness_Freshness :
    (Pool.publish { poolFull with empty := [] } 1).2 = .displaced ∧ 2 ≤ 3 ∧ 3 ≤ 3 := by decide +kernel

theorem witness_RolesPartition : (sending oneFull 0x40000000).RolesPartition := by
  intro pool hp
  cases hp
  show poolFull.ids.Perm (List.range oneFull.poolSize)
  decide +kernel

/-- For StepKeepsInv and InvNeverFaults: a step from a state that meets the invariant, the CONVERT step of a pull. -/
theorem witness_Inv_step :
    ({ reading with pull := .convert 1 } : State).Inv ∧
    (after (step { reading with pull := .convert 1 })).isSome = true :=
  ⟨inv_of_reading _ (.inr rfl), by decide +kernel⟩

theorem witness_OnlyMalformed :
    step (receiving idle [0x81000000]) = .refused (.malformedRecord .badOpcode) := rfl

theorem witness_OnlyMalformed_converse :
    (receiving idle [0x80000002]).schedule = .produce :: [] ∧ (receiving idle [0x80000002]).xferRest = [] ∧
    (receiving idle [0x80000002]).ingestPort ≠ [] ∧
    decodeRecord (receiving idle [0x80000002]).ingestPort = .error .reservedBits := by decide +kernel

/-- A CONVERT word about to be taken in a state that meets the invariant. -/
theorem witness_OnlyMalformed_command :
    (sending reading 0x42000000).Inv ∧ (sending reading 0x42000000).schedule = .command :: [] ∧
    (sending reading 0x42000000).cmdPort ≠ [] := by
  refine ⟨?_, rfl, by decide⟩
  have h := inv_of_reading .noPull (.inl rfl)
  exact ⟨h.canonical, h.rawRange, h.outRange, h.notFatal, h.noFault, h.pullRuns, h.pullSlot, h.waitRead, h.convertRead,
    fun pool hp => ⟨(h.pool pool hp).roles, (h.pool pool hp).bufCount, (h.pool pool hp).offCap, (h.pool pool hp).written,
      (h.pool pool hp).complete, (h.pool pool hp).view⟩⟩

theorem witness_MemoryCanonical : (sending oneFull 0x40000000).MemoryCanonical := by
  unfold State.MemoryCanonical
  decide +kernel

theorem witness_MemoryWriters :
    (after (exec .acquireRead oneFull)).isSome = true ∧ (after (exec (.convert 0) reading)).isSome = true ∧
    (after (step (receiving (live (poolFilling 4 0)) [0x80000100, 8, 0, 0x01020304]))).isSome = true := by
  decide +kernel

theorem witness_StreamError_set :
    (receiving oneFull [0x80000001]).streamError = false ∧
    (after (step (receiving oneFull [0x80000001]))).map (·.streamError) = some true := by decide +kernel

theorem witness_StreamError_cleared :
    (after (step (sending { idle with streamError := true } 0x10000000))).map (·.streamError) = some false := by
  decide +kernel

theorem witness_HostReads :
    0 < reading.outSize ∧ (0 : BitVec 8).toNat = 0 / reading.slotBytes ∧
    ({ reading with pull := .wait 0 } : State).pull = .wait 0 ∧
    ({ reading with pull := .convert 0 } : State).pull = .convert 0 ∧
    (sending reading 0x43000000).cmdPort = [0x43000000] ∧ decodeCommand 0x43000000 = .ok (.brighten 0) ∧
    reading.pull = .noPull ∧ reading.cmdPort = [] := by decide +kernel

theorem witness_DefaultParameters :
    (⟨4, 4, 1⟩ : ResEntry) ∈ tcfgResTable.toList ∧ defaultCap tcfgResTable = 64 ∧
    defaultSlotBytes tcfgResTable = 4 * (4095 * 4095) := by decide +kernel

/-- A state that a HOST which sends POLL_READY and takes the answer before it leaves as it is after each step. -/
def polled : State :=
  { idle with responses := [{ op := 0x21, status := .ok, value := 0 }] }

/-- A run without end in which the SEQUENCER can always take a command word. -/
theorem witness_RunsAreWeaklyFair_command :
    IsRun (fun _ => polled) (fun _ => [.sendCommand 0x21000000, .takeResponse]) ∧
    (hostActs polled [.sendCommand 0x21000000, .takeResponse]).enabled .command = true :=
  ⟨fun _ => rfl, rfl⟩

/-- A pull that waits with the stream error set, and the state its WAIT step leaves. -/
def failing : State := { live (freshPool 3) with pull := .wait 0, streamError := true }

def failed : State :=
  { failing with pull := .noPull, responses := [{ op := 0x20, status := .streamError, value := 0 }] }

/-- A run without end that starts with an enabled pull. -/
theorem witness_RunsAreWeaklyFair_pull :
    IsRun (fun n => if n = 0 then failing else failed) (fun _ => []) ∧ (hostActs failing []).enabled .pull = true := by
  refine ⟨fun n => ?_, rfl⟩
  cases n with
  | zero => rfl
  | succ n => rfl

end Sys2Proof.Tests
end

