-- ==== Sys2Proof/Proofs/Creation.lean ====
section
/-!
PROOF. Power-on with a parameter set (R9, R290): the constraints of R8 and R168 as propositions, which the checks
`resEntryOk`, `bayerTapsOk` and `paramError` decide, and what `create` answers by them.
-/
namespace Sys2Proof.Machine

theorem factorOk_iff (factor : Nat) : factorOk factor = true ↔ factor ∈ [1, 2, 3, 4, 5, 8] :=
  List.contains_iff_mem

theorem resEntryOk_iff (e : ResEntry) :
    resEntryOk e = true ↔ 1 ≤ e.width ∧ 1 ≤ e.height ∧ e.factor ∈ [1, 2, 3, 4, 5, 8] := by
  simp only [resEntryOk, Bool.and_eq_true, decide_eq_true_eq, factorOk_iff, and_assoc]

/-- The filter of `phaseTapsOk` counts the channels that are OWN (R168). -/
theorem phaseTapsOk_iff (t : PhaseTaps) : phaseTapsOk t = true ↔ [t.r, t.g, t.b].count .own = 1 := by
  simp only [phaseTapsOk, decide_eq_true_eq, List.count_eq_length_filter, beq_eq_decide]

theorem bayerTapsOk_iff (t : BayerTaps) :
    bayerTapsOk t = true ↔ ∀ q ∈ [t.p00, t.p01, t.p10, t.p11], [q.r, q.g, q.b].count .own = 1 := by
  simp only [bayerTapsOk, Bool.and_eq_true, phaseTapsOk_iff, List.forall_mem_cons, List.not_mem_nil,
    false_imp_iff, implies_true, and_true, and_assoc]

/-- The two passes over RES_TABLE, for the entries and for CAP, are one condition on each entry (R8). -/
theorem resTable_checks_iff (l : List ResEntry) (cap : Nat) :
    (l.all resEntryOk = true ∧ l.all (fun e => decide (e.width * e.height ≤ cap)) = true) ↔
      ∀ e ∈ l, 1 ≤ e.width ∧ 1 ≤ e.height ∧ e.factor ∈ [1, 2, 3, 4, 5, 8] ∧ e.width * e.height ≤ cap := by
  simp only [List.all_eq_true, decide_eq_true_eq, resEntryOk_iff, ← forall_and, and_assoc]

/-- A parameter set breaks no constraint exactly when every check of `paramError` passes. -/
theorem paramError_eq_none_iff (p : ParamSet) :
    paramError p = none ↔
      (2 ≤ p.poolSize ∧ p.poolSize ≤ 15) ∧ (2 ≤ p.nslots ∧ p.nslots ≤ 256) ∧ 1 ≤ p.slotBytes ∧
      (p.resTable.toList.all resEntryOk = true ∧
        p.resTable.toList.all (fun e => decide (e.width * e.height ≤ p.cap)) = true) ∧
      p.cap < 2 ^ 32 ∧ bayerTapsOk p.bayerTaps = true := by
  simp only [paramError, ite_eq_iff, reduceCtorEq, and_false, false_or, and_true, not_or, Nat.not_lt, Nat.not_le,
    Bool.not_eq_false, and_assoc]

theorem paramError_of_poolSize_one (p : ParamSet) (h : p.poolSize = 1) : paramError p = some .poolSize :=
  if_pos (.inl (by omega))

theorem create_of_paramError_some (p : ParamSet) (e : ParamError) (h : paramError p = some e) :
    create p = .refused (.badParameters e) := by
  unfold create
  split
  case h_1 e' h' => rw [Option.some.inj (h'.symm.trans h)]
  case h_2 h' => exact absurd (h'.symm.trans h) nofun

theorem create_of_paramError_none (p : ParamSet) (h : paramError p = none) : ∃ s, create p = .next s := by
  unfold create
  split
  case h_1 e' h' => exact absurd (h'.symm.trans h) nofun
  case h_2 h' => exact ⟨_, rfl⟩

theorem create_next_iff (p : ParamSet) : (∃ s, create p = .next s) ↔ paramError p = none := by
  refine ⟨fun ⟨s, hs⟩ => ?_, create_of_paramError_none p⟩
  by_contra hne
  obtain ⟨e, he⟩ := Option.ne_none_iff_exists'.1 hne
  exact absurd (hs.symm.trans (create_of_paramError_some p e he)) nofun

/-- `create` has no outcome but a machine and the refusal of R9. -/
theorem create_next_or_refused (p : ParamSet) :
    (∃ s, create p = .next s) ∨ ∃ e, create p = .refused (.badParameters e) := by
  cases h : paramError p with
  | none => exact .inl (create_of_paramError_none p h)
  | some e => exact .inr ⟨e, create_of_paramError_some p e h⟩

/-- Settles O11: `create` answers a machine exactly when `paramError` finds nothing, and what `paramError` checks are the
constraints of R8 and R168. -/
theorem badParametersRefused : Obligations.BadParametersRefused := by
  refine ⟨fun p => ?_, create_next_or_refused, fun p h =>
    create_of_paramError_some p _ (paramError_of_poolSize_one p h)⟩
  rw [create_next_iff, paramError_eq_none_iff, resTable_checks_iff, bayerTapsOk_iff]

end Sys2Proof.Machine
end

