-- ==== Sys2Proof/Proofs/PowerOn.lean ====
section
/-!
PROOF. What power-on leaves (R42, R290).
-/
namespace Sys2Proof.Machine

/-- A machine that is stopped never drives IRQ_READY (R38, R263). -/
theorem State.irqReady_of_stopped (s : State) (h : s.run = .stopped) : s.irqReady = false := by
  simp [State.irqReady, State.ready, State.not_running_of_run s h]

/-- Settles O10: the fields are those `State.powerOn` gives, both memories are empty, and the machine is stopped. -/
theorem powerOnValues : Obligations.PowerOnValues := by
  intro p
  have hout : ∀ a, (State.powerOn p).outRead a = none := Mem.read_nil
  have hraw : ∀ b a, Mem.read (State.powerOn p).raw ((State.powerOn p).rawKey b a) = none := fun _ _ => Mem.read_nil _
  have hirq : (State.powerOn p).irqReady = false := State.irqReady_of_stopped _ rfl
  exact ⟨rfl, rfl, rfl, rfl, rfl, rfl, rfl, rfl, rfl, rfl, rfl, rfl, hout, hraw, rfl, rfl, rfl, hirq⟩

end Sys2Proof.Machine
end

