-- ==== Sys2Proof/Proofs/RegisterFields.lean ====
section
/-!
PROOF. The fields of the packed registers (R23 to R25, R40, R41). A register is a sum of disjoint fields, so a field is
read back by arithmetic once every field is known to fit its bits.
-/
namespace Sys2Proof

/-- `bits` of a packed number. -/
theorem bits_ofNat (n hi lo : Nat) : bits (BitVec.ofNat 32 n) hi lo = n % 2 ^ 32 / 2 ^ lo % 2 ^ (hi + 1 - lo) := by
  rw [bits, BitVec.toNat_ofNat]

@[simp] theorem flagOf_flagBit (b : Bool) : flagOf (flagBit b) = b := by
  cases b <;> rfl

end Sys2Proof

namespace Sys2Proof.Machine

theorem bitAt_eq (b : Bool) (position : Nat) : bitAt b position = flagBit b * 2 ^ position := by
  cases b <;> simp [bitAt, flagBit]

theorem Format.code_lt (f : Format) : f.code < 6 := by
  cases f <;> decide

/-! ## MODE, BRIGHT and VIEW -/

theorem State.modeReg_bits (s : State) :
    bits s.modeReg 3 0 = s.mode.res.val ∧ bits s.modeReg 6 4 = s.mode.fmt.code ∧
    bits s.modeReg 7 7 = flagBit s.mode.hflip ∧ bits s.modeReg 8 8 = flagBit s.mode.vflip ∧
    bits s.modeReg 31 9 = 0 := by
  have hres := s.mode.res.isLt
  have hfmt := s.mode.fmt.code_lt
  have hh := flagBit_lt s.mode.hflip
  have hv := flagBit_lt s.mode.vflip
  simp only [State.modeReg, bits_ofNat, bitAt_eq]
  omega

theorem State.brightReg_bits (s : State) : bits s.brightReg 15 0 = s.bright.toNat ∧ bits s.brightReg 31 16 = 0 := by
  have hb := s.bright.isLt
  simp only [State.brightReg, bits_ofNat]
  omega

theorem State.viewReg_bits (s : State) :
    bits s.viewReg 11 0 = s.viewX.toNat ∧ bits s.viewReg 23 12 = s.viewY.toNat ∧ bits s.viewReg 31 24 = 0 := by
  have hx := s.viewX.isLt
  have hy := s.viewY.isLt
  simp only [State.viewReg, bits_ofNat]
  omega

/-! ## STATUS -/

theorem State.statusReg_bits (s : State) :
    bits s.statusReg 0 0 = flagBit s.running ∧ bits s.statusReg 1 1 = flagBit s.streamError ∧
    bits s.statusReg 2 2 = flagBit s.fatal ∧ bits s.statusReg 3 3 = flagBit s.pullPending ∧
    bits s.statusReg 4 4 = flagBit s.pullConverting ∧ bits s.statusReg 5 5 = flagBit s.ready ∧
    bits s.statusReg 6 6 = flagBit s.readRole.isSome ∧ bits s.statusReg 31 7 = 0 := by
  have h0 := flagBit_lt s.running
  have h1 := flagBit_lt s.streamError
  have h2 := flagBit_lt s.fatal
  have h3 := flagBit_lt s.pullPending
  have h4 := flagBit_lt s.pullConverting
  have h5 := flagBit_lt s.ready
  have h6 := flagBit_lt s.readRole.isSome
  simp only [State.statusReg, bits_ofNat, bitAt_eq]
  omega

/-! ## POOL -/

/-- The parity flag of the Read buffer, as POOL shows it: false with no Read buffer (R41). -/
def Pool.readOdd (p : Pool) : Bool :=
  p.read.any fun r => (p.buf r).odd

theorem Pool.poolReg_eq (p : Pool) :
    p.poolReg = BitVec.ofNat 32 (p.fill % 2 ^ 4 + p.read.getD 0 % 2 ^ 4 * 2 ^ 4 + bitAt p.read.isSome 8 +
      bitAt (p.buf p.fill).odd 9 + bitAt p.readOdd 10 + p.empty.length % 2 ^ 4 * 2 ^ 12 +
      p.full.length % 2 ^ 4 * 2 ^ 16) := by
  unfold Pool.poolReg Pool.readOdd
  cases p.read <;> rfl

/-- The fields of POOL for any pool: each number is cut to its four bits. -/
theorem Pool.poolReg_bits (p : Pool) :
    bits p.poolReg 3 0 = p.fill % 2 ^ 4 ∧ bits p.poolReg 7 4 = p.read.getD 0 % 2 ^ 4 ∧
    bits p.poolReg 8 8 = flagBit p.read.isSome ∧ bits p.poolReg 9 9 = flagBit (p.buf p.fill).odd ∧
    bits p.poolReg 10 10 = flagBit p.readOdd ∧ bits p.poolReg 11 11 = 0 ∧
    bits p.poolReg 15 12 = p.empty.length % 2 ^ 4 ∧ bits p.poolReg 19 16 = p.full.length % 2 ^ 4 ∧
    bits p.poolReg 31 20 = 0 := by
  have h8 := flagBit_lt p.read.isSome
  have h9 := flagBit_lt (p.buf p.fill).odd
  have h10 := flagBit_lt p.readOdd
  simp only [Pool.poolReg_eq, bits_ofNat, bitAt_eq]
  omega

/-- In a partition of fewer than 16 buffers every number POOL shows fits four bits (R32, R41). -/
theorem Pool.fields_lt_of_partition (p : Pool) (n : Nat) (h : p.ids.Perm (List.range n)) (hn : n ≤ 15) :
    p.fill < 2 ^ 4 ∧ p.read.getD 0 < 2 ^ 4 ∧ p.empty.length < 2 ^ 4 ∧ p.full.length < 2 ^ 4 := by
  have hid : ∀ b ∈ p.ids, b < 2 ^ 4 := fun b hb => by
    have := List.mem_range.1 (h.mem_iff.1 hb)
    omega
  have hlen : p.ids.length = n := by rw [h.length_eq, List.length_range]
  have hread : p.read.getD 0 < 2 ^ 4 := by
    cases hr : p.read with
    | none => decide
    | some r => exact hid r (by simp [Pool.ids, hr])
  simp only [Pool.ids, List.length_cons, List.length_append] at hlen
  exact ⟨hid _ List.mem_cons_self, hread, by omega, by omega⟩

/-! ## The registers that are 0 while stopped -/

theorem State.poolRegs_of_stopped (s : State) (h : s.run = .stopped) :
    s.poolReg = 0 ∧ s.fillOffsetReg = 0 ∧ s.fillErrorsReg = 0 := by
  simp only [State.poolReg, State.fillOffsetReg, State.fillErrorsReg, h, and_self]

theorem State.poolRegs_of_run (s : State) (pool : Pool) (h : s.run = .running pool) :
    s.poolReg = pool.poolReg ∧ s.fillOffsetReg = (pool.buf pool.fill).off ∧
      s.fillErrorsReg = (pool.buf pool.fill).err := by
  simp only [State.poolReg, State.fillOffsetReg, State.fillErrorsReg, h, and_self]

/-- Settles O25: each register is read back field by field, and in a partition of at most 15 buffers no field of POOL
is cut. -/
theorem registerFields : Obligations.RegisterFields := by
  intro s
  refine ⟨?mode, s.brightReg_bits, s.viewReg_bits, ?status, s.poolRegs_of_stopped, ?pool⟩
  case mode => simp only [s.modeReg_bits, flagOf_flagBit, and_self]
  case status => simp only [s.statusReg_bits, flagOf_flagBit, and_self]
  case pool =>
    intro pool hrun hperm
    have hsize : s.poolSize ≤ 15 := s.params_spec.2.1
    obtain ⟨hfill, hread, hempty, hfull⟩ := pool.fields_lt_of_partition _ hperm hsize
    obtain ⟨hreg, hoff, herr⟩ := s.poolRegs_of_run pool hrun
    have hodd : ∀ r, pool.read = some r → pool.readOdd = (pool.buf r).odd := fun r hr => by simp [Pool.readOdd, hr]
    have heven : pool.read = none → flagBit pool.readOdd = 0 := fun hr => by simp [Pool.readOdd, hr, flagBit]
    simp only [hreg, pool.poolReg_bits, Nat.mod_eq_of_lt hfill, Nat.mod_eq_of_lt hread, Nat.mod_eq_of_lt hempty,
      Nat.mod_eq_of_lt hfull, flagOf_flagBit, true_and]
    exact ⟨hodd, heven, hoff, herr⟩

end Sys2Proof.Machine
end

