-- ==== Sys2Proof/Proofs/WordRows.lean ====
section
/-!
PROOF. The rows of R101 as layouts: a row's mask covers the opcode and every bit from the end of its operand up, so a
word matches the row exactly when it carries the opcode and its reserved field is 0; and that is exactly when the decoder
answers a command. The XFER row masks two fields, one below the other.
-/
namespace Sys2Proof

/-! ## Masks and fields -/

/-- A field whose lowest bit is above its highest has no bits. -/
theorem bits_of_no_bits (w : Word) (hi lo : Nat) (h : hi < lo) : bits w hi lo = 0 := by
  rw [bits, Nat.sub_eq_zero_of_le h, pow_zero, Nat.mod_one]

/-- A mask of all bits from `k` up, at a match with an opcode alone, checks the opcode and the field from `k` to 23. -/
theorem and_highMask_opWord (w : Word) (op k : Nat) (hop : op < 2 ^ 8) (hk : k ≤ 24) :
    w &&& (BitVec.allOnes 32 <<< k) = opWord op 0 ↔ bits w 31 24 = op ∧ bits w 23 k = 0 := by
  have hpow : 2 ^ 24 = 2 ^ k * 2 ^ (24 - k) := by rw [← pow_add, Nat.add_sub_cancel' hk]
  have hmatch : (opWord op 0).toNat = 2 ^ k * (op * 2 ^ (24 - k)) := by
    have : (opWord op 0).toNat = op * 2 ^ 24 := by
      simp only [opWord, BitVec.toNat_ofNat]
      omega
    rw [this, hpow, Nat.mul_left_comm]
  have htop : bits w 31 24 = w.toNat / 2 ^ k / 2 ^ (24 - k) := by
    have hw := w.isLt
    rw [Nat.div_div_eq_div_mul, ← hpow, bits]
    omega
  have hlow : bits w 23 k = w.toNat / 2 ^ k % 2 ^ (24 - k) := rfl
  rw [and_highMask _ _ _ (by rw [hmatch, Nat.mul_mod_right]), hmatch, Nat.mul_div_cancel_left _ (Nat.two_pow_pos k),
    htop, hlow]
  constructor
  · intro h
    rw [h, Nat.mul_div_cancel _ (Nat.two_pow_pos _), Nat.mul_mod_left]
    exact ⟨rfl, rfl⟩
  · rintro ⟨hdiv, hmod⟩
    rw [← hdiv, Nat.div_mul_cancel (Nat.dvd_of_mod_eq_zero hmod)]

/-- The reserved field of a record header (R90). -/
theorem and_reservedMask (w : Word) : w &&& 0xFE#32 = 0#32 ↔ bits w 7 1 = 0 := by
  have hmask : w &&& 0xFE#32 = w &&& 0xFF#32 &&& (BitVec.allOnes 32 <<< 1) := by
    rw [BitVec.and_assoc]
    rfl
  have hbyte : (w &&& 0xFF#32).toNat = w.toNat % 2 ^ 8 := Nat.and_two_pow_sub_one_eq_mod w.toNat 8
  rw [hmask, and_highMask _ _ _ rfl, hbyte, bits, BitVec.toNat_ofNat]
  omega

/-- The XFER row checks the opcode and the reserved field of a record header (R90, R101). -/
theorem xferRow_iff (w : Word) :
    w &&& 0xFF0000FE#32 = 0x80000000#32 ↔ bits w 31 24 = 0x80 ∧ bits w 7 1 = 0 := by
  have hopcode : w &&& 0xFF000000#32 = 0x80000000#32 ↔ bits w 31 24 = 0x80 := by
    have h := and_highMask_opWord w 0x80 24 (by decide) (by decide)
    exact h.trans (and_iff_left (bits_of_no_bits w 23 24 (by decide)))
  have hmask : (0xFF0000FE#32 : Word) = 0xFF000000#32 ||| 0xFE#32 := by decide
  rw [← hopcode, ← and_reservedMask]
  constructor
  · intro h
    have hpart : ∀ part : Word, 0xFF0000FE#32 &&& part = part → w &&& part = 0x80000000#32 &&& part := fun part hp => by
      rw [← h, BitVec.and_assoc, hp]
    exact ⟨hpart _ (by decide), hpart _ (by decide)⟩
  · rintro ⟨hhigh, hlow⟩
    rw [hmask, BitVec.and_or_distrib_left, hhigh, hlow]
    decide

/-! ## Command rows -/

/-- For each command of R101 its opcode and the lowest bit above its operand, where the reserved field begins; 24 where
the operand takes every bit below the opcode. -/
def commandLayouts : List (Nat × Nat) :=
  [(0x01, 9), (0x02, 16), (0x03, 24), (0x10, 0), (0x11, 0), (0x20, 8), (0x21, 0), (0x22, 0), (0x30, 8), (0x40, 0),
   (0x41, 0), (0x42, 8), (0x43, 8)]

theorem commandRows_eq_map_layouts :
    commandRows = commandLayouts.map fun l => (opWord l.1 0, BitVec.allOnes 32 <<< l.2, l.1) := by
  decide

/-- A word with the layout's opcode and its reserved field 0: the word spells the layout's command (R82). -/
def Spells (w : Word) (l : Nat × Nat) : Prop :=
  bits w 31 24 = l.1 ∧ bits w 23 l.2 = 0

theorem matches_layout_iff (w : Word) (l : Nat × Nat) (hl : l ∈ commandLayouts) :
    w &&& (BitVec.allOnes 32 <<< l.2) = opWord l.1 0 ↔ Spells w l := by
  have hsmall : ∀ l ∈ commandLayouts, l.1 < 2 ^ 8 ∧ l.2 ≤ 24 := by decide
  obtain ⟨hop, hk⟩ := hsmall l hl
  exact and_highMask_opWord w l.1 l.2 hop hk

/-- An opcode has one layout. -/
theorem commandLayouts_unique : ∀ l ∈ commandLayouts, ∀ l' ∈ commandLayouts, l.1 = l'.1 → l = l' := by
  decide

/-- What the decoder reads as a command spells a layout. -/
theorem spells_of_decodeCommand (w : Word) (i : Instr) (h : decodeCommand w = .ok i) :
    ∃ l ∈ commandLayouts, Spells w l := by
  rcases decodeCommand_cases w i h with ⟨ho, hz, _⟩ | ⟨ho, hz, _⟩ | ⟨ho, _⟩ | ⟨ho, hz, _⟩ | ⟨ho, hz, _⟩ | ⟨ho, hz, _⟩ |
    ⟨ho, hz, _⟩ | ⟨ho, hz, _⟩ | ⟨ho, hz, _⟩ | ⟨ho, hz, _⟩ | ⟨ho, hz, _⟩ | ⟨ho, hz, _⟩ | ⟨ho, hz, _⟩
  case inr.inr.inl => exact ⟨(0x03, 24), by decide, ho, bits_of_no_bits w 23 24 (by decide)⟩
  all_goals exact ⟨(_, _), by decide, ho, hz⟩

/-- A word that spells a layout is read as a command. -/
theorem decodeCommand_of_spells (w : Word) : ∀ l ∈ commandLayouts, Spells w l → ∃ i, decodeCommand w = .ok i := by
  simp only [commandLayouts, List.forall_mem_cons, Spells]
  refine ⟨?_, ?_, ?_, ?_, ?_, ?_, ?_, ?_, ?_, ?_, ?_, ?_, ?_, nofun⟩ <;>
  · rintro ⟨ho, hz⟩
    simp [decodeCommand, whenZero, ho, hz]

/-- The decoder reads a command with a layout's opcode exactly from the words that spell the layout (R82, R101). -/
theorem spells_iff_decodeCommand (w : Word) (l : Nat × Nat) (hl : l ∈ commandLayouts) :
    Spells w l ↔ ∃ i, decodeCommand w = .ok i ∧ i.opcode = l.1 := by
  constructor
  · intro h
    obtain ⟨i, hi⟩ := decodeCommand_of_spells w l hl h
    exact ⟨i, hi, (decodeCommand_opcode w i hi).1.symm.trans h.1⟩
  · rintro ⟨i, hi, hop⟩
    obtain ⟨l', hl', hs⟩ := spells_of_decodeCommand w i hi
    have hsame : l'.1 = l.1 := by rw [← hs.1, (decodeCommand_opcode w i hi).1, hop]
    exact commandLayouts_unique l' hl' l hl hsame ▸ hs

/-! ## Record headers -/

/-- Descriptors of 0 are packets without payload. -/
theorem decodePackets_replicate_zero (n : Nat) : ∃ ps, decodePackets n (List.replicate n 0#32) = .ok (ps, []) := by
  induction n with
  | zero => exact ⟨[], rfl⟩
  | succ n ih =>
    obtain ⟨ps, hps⟩ := ih
    simp [List.replicate_succ, decodePackets, bits, payloadWords, hps]

/-- A header is looked at in its opcode and its reserved field only (R90, R94). -/
theorem decodeRecord_header_iff (w : Word) :
    (∃ ws i rest, decodeRecord (w :: ws) = .ok (i, rest)) ↔ bits w 31 24 = 0x80 ∧ bits w 7 1 = 0 := by
  constructor
  · rintro ⟨ws, i, rest, h⟩
    simp only [decodeRecord] at h
    split_ifs at h with hop hres
    exact ⟨not_not.1 hop, not_not.1 hres⟩
  · rintro ⟨hop, hres⟩
    obtain ⟨ps, hps⟩ := decodePackets_replicate_zero (bits w 23 8)
    exact ⟨List.replicate (bits w 23 8) 0#32, .xfer (flagOf (bits w 0 0)) ps, [], by simp [decodeRecord, hop, hres, hps]⟩

/-- Settles O3: a row matches the words that spell its layout, which are those the decoder reads as its command; and the
XFER row checks what the record decoder checks of a header. -/
theorem wordsMatchTheirRow : Obligations.WordsMatchTheirRow := by
  simp only [Obligations.WordsMatchTheirRow, commandRows_eq_map_layouts, List.forall_mem_map]
  refine ⟨fun l hl w => ?row, fun w hno => ?noRow, fun w => ?header⟩
  case row => rw [matches_layout_iff w l hl, spells_iff_decodeCommand w l hl]
  case noRow =>
    cases hd : decodeCommand w with
    | error e => exact ⟨e, rfl⟩
    | ok i =>
      obtain ⟨l, hl, hs⟩ := spells_of_decodeCommand w i hd
      exact absurd ((matches_layout_iff w l hl).2 hs) (hno l hl)
  case header => rw [xferRow_iff, decodeRecord_header_iff]

end Sys2Proof
end

