-- ==== Sys2Proof/Proofs/ResponseWords.lean ====
section
/-!
PROOF. The words of a response (R95, R96).
-/
namespace Sys2Proof.Machine

theorem Status.code_le (st : Status) : st.code ≤ 0x0C := by
  cases st <;> decide

/-- The fields of the first word of a response: its opcode and its status code fit their bytes (R95). -/
theorem response_head_bits (op : BitVec 8) (st : Status) :
    let w := BitVec.ofNat 32 (op.toNat * 2 ^ 24 + st.code * 2 ^ 16)
    bits w 31 24 = op.toNat ∧ bits w 23 16 = st.code ∧ bits w 15 0 = 0 := by
  have hop := op.isLt
  have hcode := st.code_le
  simp only [bits_ofNat]
  omega

/-- Settles O58: the head word is read back field by field, and the thirteen codes are listed case by case. -/
theorem responseWords : Obligations.ResponseWords := by
  refine ⟨fun r => ⟨_, rfl, response_head_bits r.op r.status⟩, fun st => ?_⟩
  cases st <;> decide

end Sys2Proof.Machine
end

