-- ==== Sys2Proof/Proofs/PacketSteps.lean ====
section
/-!
PROOF. The steps of XFER (R110 to R122): one equation per class of transfer and packet, then what an append and the
parity flag do to the fields of the Fill buffer. The outcome of a step is stated through the state's own updates; that
this is the record the obligation spells out holds by definition.
-/
namespace Sys2Proof.Machine

/-! ## Whole transfers (R111 to R113) -/

theorem exec_xfer_of_stopped (s : State) (xferFail : Bool) (packets : List Packet) (h : s.run = .stopped) :
    exec (.xfer xferFail packets) s = .next (s.setRest []) := by
  simp [exec, execXfer, h]

theorem exec_xfer_failed (s : State) (pool : Pool) (packets : List Packet) (h : s.run = .running pool) :
    exec (.xfer true packets) s = .next (s.setRest []).countIsoc.setStreamError := by
  simp [exec, execXfer, h]

theorem exec_xfer_nil (s : State) (pool : Pool) (h : s.run = .running pool) :
    exec (.xfer false []) s = .next (s.setRest []) := by
  simp [exec, execXfer, h]

theorem exec_xfer_cons (s : State) (pool : Pool) (p : Packet) (rest : List Packet) (h : s.run = .running pool) :
    exec (.xfer false (p :: rest)) s = packetStep p pool (s.setRest rest) := by
  simp [exec, execXfer, h]

/-! ## The classes of packets (R114 to R119) -/

theorem headerLength_le (first : Byte) : headerLength first ≤ 8 := by
  unfold headerLength
  split <;> decide

theorem packetStep_of_err (p : Packet) (pool : Pool) (s : State) (he : p.err = true) :
    packetStep p pool s = .next s.countIsoc :=
  if_pos he

theorem packetStep_of_empty (p : Packet) (pool : Pool) (s : State) (he : p.err = false) (hp : p.payload = []) :
    packetStep p pool s = .next s := by
  simp [packetStep, he, hp]

section
variable (p : Packet) (pool : Pool) (s : State) (first : Byte) (more : List Byte)

/-- A packet with payload records the parity flag; the header length then gives its class (R116, R117, R119). -/
theorem packetStep_of_payload (he : p.err = false) (hp : p.payload = first :: more) :
    packetStep p pool s =
      if headerLength first < p.payload.length then
        appendData (recordOdd p first pool) (p.payload.drop (headerLength first))
          (s.setPool (recordOdd p first pool))
      else if p.payload.length = headerLength first then
        .next (boundary (recordOdd p first pool) (s.setPool (recordOdd p first pool)))
      else .next (s.setPool (recordOdd p first pool)) := by
  simp [packetStep, recordOdd, he, hp]

theorem packetStep_of_data (he : p.err = false) (hp : p.payload = first :: more)
    (hl : headerLength first < p.payload.length) :
    packetStep p pool s = appendData (recordOdd p first pool) (p.payload.drop (headerLength first))
      (s.setPool (recordOdd p first pool)) := by
  rw [packetStep_of_payload p pool s first more he hp, if_pos hl]

theorem packetStep_of_marker (he : p.err = false) (hp : p.payload = first :: more)
    (hl : p.payload.length = headerLength first) :
    packetStep p pool s = .next (boundary (recordOdd p first pool) (s.setPool (recordOdd p first pool))) := by
  rw [packetStep_of_payload p pool s first more he hp, if_neg hl.not_gt, if_pos hl]

/-- A runt is shorter than 8 bytes, so it does not reach the parity flag (R117, R119). -/
theorem packetStep_of_runt (he : p.err = false) (hp : p.payload = first :: more)
    (hl : p.payload.length < headerLength first) (hrun : s.run = .running pool) :
    packetStep p pool s = .next s := by
  have hodd : recordOdd p first pool = pool := if_neg (hl.trans_le (headerLength_le first)).ne
  rw [packetStep_of_payload p pool s first more he hp, if_neg hl.not_gt, if_neg hl.ne, hodd, setPool_self s pool hrun]

end

/-! ## The parity flag and the Fill buffer's fields -/

/-- The parity flag of the Fill buffer after a packet (R117). -/
theorem recordOdd_buf_fill (p : Packet) (first : Byte) (pool : Pool) (hb : pool.fill < pool.bufs.length) :
    (recordOdd p first pool).buf pool.fill =
      { pool.buf pool.fill with
        odd := if p.payload.length = 8 then first.getLsbD 6 else (pool.buf pool.fill).odd } := by
  unfold recordOdd
  split
  · simp [Pool.setOdd, Pool.buf_setBuf _ _ _ _ hb]
  · rfl

theorem recordOdd_setBuf (p : Packet) (first : Byte) (pool : Pool) (x : Buf) :
    (recordOdd p first pool).setBuf pool.fill x = pool.setBuf pool.fill x := by
  unfold recordOdd
  split
  · exact Pool.setBuf_setBuf _ _ _ _
  · rfl

theorem recordOdd_setOff (p : Packet) (first : Byte) (pool : Pool) (off : Nat) (hb : pool.fill < pool.bufs.length) :
    (recordOdd p first pool).setOff pool.fill off = pool.setBuf pool.fill {
      off := BitVec.ofNat 32 off
      err := (pool.buf pool.fill).err
      odd := if p.payload.length = 8 then first.getLsbD 6 else (pool.buf pool.fill).odd } := by
  rw [Pool.setOff, recordOdd_setBuf, recordOdd_buf_fill p first pool hb]

theorem satInc32_eq_ofNat (v : BitVec 32) : satInc32 v = BitVec.ofNat 32 (min (2 ^ 32 - 1) (v.toNat + 1)) := by
  rw [← satInc32_toNat, BitVec.ofNat_toNat, BitVec.setWidth_eq]

theorem recordOdd_countErr (p : Packet) (first : Byte) (pool : Pool) (hb : pool.fill < pool.bufs.length) :
    (recordOdd p first pool).countErr pool.fill = pool.setBuf pool.fill {
      off := (pool.buf pool.fill).off
      err := BitVec.ofNat 32 (min (2 ^ 32 - 1) ((pool.buf pool.fill).err.toNat + 1))
      odd := if p.payload.length = 8 then first.getLsbD 6 else (pool.buf pool.fill).odd } := by
  rw [Pool.countErr, recordOdd_setBuf, recordOdd_buf_fill p first pool hb, satInc32_eq_ofNat]

/-! ## APPEND (R120) -/

theorem State.rawKey_add (s : State) (b a k : Nat) : s.rawKey b a + k = s.rawKey b (a + k) :=
  Nat.add_assoc _ _ _

theorem Mem.read_writeList_of_getElem? (m : Mem) (a : Nat) (bs : List Byte) (k : Nat) (v : Byte)
    (h : bs[k]? = some v) : Mem.read (Mem.writeList m a bs) (a + k) = some v := by
  obtain ⟨hk, rfl⟩ := List.getElem?_eq_some_iff.1 h
  exact Mem.read_writeList_inside m a bs k hk

theorem appendData_of_fits (pool : Pool) (bytes : List Byte) (s : State) (hb : pool.fill < s.poolSize)
    (hc : (pool.buf pool.fill).off.toNat + bytes.length ≤ s.cap) :
    appendData pool bytes s = .next
      ((s.setRaw (Mem.writeList s.raw (s.rawKey pool.fill (pool.buf pool.fill).off.toNat) bytes)).setPool
        (pool.setOff pool.fill ((pool.buf pool.fill).off.toNat + bytes.length))) := by
  simp [appendData, hc.not_gt, State.rawStore_of_fits s _ _ _ hb hc]

theorem appendData_of_overflow (pool : Pool) (bytes : List Byte) (s : State)
    (hc : s.cap < (pool.buf pool.fill).off.toNat + bytes.length) :
    appendData pool bytes s = .next (s.setPool (pool.countErr pool.fill)) :=
  if_pos hc

/-- Settles O33: the step is an append behind the parity flag, which leaves the Fill buffer's offset alone; in either
branch of the append the fields are written over those the parity flag left, and the bytes are one `Mem.writeList`. -/
theorem dataPacketAppendsOrCounts : Obligations.DataPacketAppendsOrCounts := by
  intro s pool p rest first more hdr hrun hfill hbufs herr hpay hhdr hlong
  obtain rfl : hdr = headerLength first := hhdr
  have hb : pool.fill < pool.bufs.length := hbufs ▸ hfill
  have hoff : ((recordOdd p first pool).buf pool.fill).off = (pool.buf pool.fill).off := by
    rw [recordOdd_buf_fill p first pool hb]
  rw [exec_xfer_cons s pool p rest hrun, packetStep_of_data p pool _ first more herr hpay hlong]
  refine ⟨fun hfits => ?fits, fun hover => ?overflows⟩
  case fits =>
    rw [appendData_of_fits, recordOdd_fill, hoff, List.length_drop, recordOdd_setOff p first pool _ hb]
    · refine ⟨_, rfl, rfl, fun k v hk => ?stored, fun a ha => ?frame⟩
      case stored =>
        rw [← State.rawKey_add]
        exact Mem.read_writeList_of_getElem? _ _ _ _ _ (List.getElem?_drop.trans hk)
      case frame =>
        rw [← State.rawKey_add] at ha
        exact Mem.read_writeList_outside _ _ _ _ (by rwa [List.length_drop])
    · rwa [recordOdd_fill]
    · rwa [recordOdd_fill, hoff, List.length_drop]
  case overflows =>
    rw [appendData_of_overflow, recordOdd_fill, recordOdd_countErr p first pool hb]
    · rfl
    · rwa [recordOdd_fill, hoff, List.length_drop]

/-- Settles O31, by what the run and the failure flag say of the transfer. -/
theorem wholeTransfers : Obligations.WholeTransfers := by
  intro s packets
  refine ⟨fun xferFail => exec_xfer_of_stopped s xferFail packets, fun hr => ?failed, fun hr => ?empty⟩ <;>
    obtain ⟨pool, hrun⟩ := s.running_iff.1 hr
  case failed => exact exec_xfer_failed s pool packets hrun
  case empty => exact exec_xfer_nil s pool hrun

/-- Settles O32, by the class of the packet. -/
theorem ignoredPackets : Obligations.IgnoredPackets := by
  intro s p rest hr
  obtain ⟨pool, hrun⟩ := s.running_iff.1 hr
  rw [exec_xfer_cons s pool p rest hrun]
  exact ⟨packetStep_of_err p pool _, packetStep_of_empty p pool _,
    fun first more he hp hl => packetStep_of_runt p pool _ first more he hp hl hrun⟩

/-- Settles O34: the parity flag leaves the fill offset at 0, and at offset 0 the boundary is the identity. -/
theorem spuriousMarkerIgnored : Obligations.SpuriousMarkerIgnored := by
  intro s pool p rest first more hrun hb hoff he hp hl
  have hzero : ((recordOdd p first pool).buf (recordOdd p first pool).fill).off = 0 := by
    rw [recordOdd_fill, recordOdd_buf_fill p first pool hb, hoff]
  have hquiet : ∀ t, boundary (recordOdd p first pool) t = t := fun t => if_pos hzero
  rw [exec_xfer_cons s pool p rest hrun, packetStep_of_marker p pool _ first more he hp hl, hquiet, ← apply_ite]
  rfl

end Sys2Proof.Machine
end

