-- ==== Sys2Proof/Proofs/PoolCommandAnswers.lean ====
section
/-!
PROOF. ACQUIRE_READ, RELEASE_READ and PUBLISH (R140, R143 to R145): one equation per case of each. The outcome is
stated through the state's own updates; that this is the record the obligation spells out holds by definition.
-/
namespace Sys2Proof.Machine

/-! ## The roles -/

theorem Pool.publish_of_empty_cons (p : Pool) (b e : Nat) (es : List Nat) (h : p.empty = e :: es) :
    p.publish b = ({ p with full := p.full ++ [b], fill := e, empty := es }, .fresh) := by
  simp [Pool.publish, h]

theorem Pool.publish_of_empty_nil (p : Pool) (b f : Nat) (fs : List Nat) (he : p.empty = [])
    (hf : p.full ++ [b] = f :: fs) : p.publish b = ({ p with full := fs, fill := f }, .displaced) := by
  simp [Pool.publish, he, hf]

/-- With Empty and Full empty the Fill buffer displaces itself (R140, R149). -/
theorem Pool.publish_self (p : Pool) (he : p.empty = []) (hf : p.full = []) :
    p.publish p.fill = (p, .displaced) := by
  rw [p.publish_of_empty_nil p.fill p.fill [] he (by rw [hf]; rfl), ← hf]

theorem Pool.tryAcquire_of_frame (p : Pool) (f : Nat) (fs : List Nat) (hr : p.read = none) (hf : p.full = f :: fs) :
    p.tryAcquire = ({ p with read := some f, full := fs }, some f) := by
  simp [Pool.tryAcquire, hr, hf]

theorem Pool.tryAcquire_of_no_frame (p : Pool) (hr : p.read = none) (hf : p.full = []) : p.tryAcquire = (p, none) := by
  simp [Pool.tryAcquire, hr, hf]

/-! ## ACQUIRE_READ (R144) and RELEASE_READ (R145) with no pull pending -/

section
variable (s : State) (hidle : s.pull = .noPull)
include hidle

/-- With no pull pending a command's own rule runs (R215). -/
theorem unlessBusy_of_noPull (op : BitVec 8) (own : Host.Outcome State Fault Refusal) : unlessBusy op s own = own :=
  unlessBusy_idle op s own (s.not_pending_iff.2 hidle)

theorem exec_acquireRead_of_stopped (hr : s.run = .stopped) :
    exec .acquireRead s = .next (s.respond 0x40 .badState 0) := by
  simp [exec, execAcquireRead, unlessBusy_of_noPull s hidle, answer, hr]

theorem exec_releaseRead_of_stopped (hr : s.run = .stopped) :
    exec .releaseRead s = .next (s.respond 0x41 .badState 0) := by
  simp [exec, execReleaseRead, unlessBusy_of_noPull s hidle, answer, hr]

variable (pool : Pool) (hr : s.run = .running pool)
include hr

theorem exec_acquireRead_of_fatal (hf : s.fatal = true) :
    exec .acquireRead s = .next (s.respond 0x40 .fatal 0) := by
  simp [exec, execAcquireRead, unlessBusy_of_noPull s hidle, answer, hr, hf]

theorem exec_releaseRead_of_fatal (hf : s.fatal = true) :
    exec .releaseRead s = .next (s.respond 0x41 .fatal 0) := by
  simp [exec, execReleaseRead, unlessBusy_of_noPull s hidle, answer, hr, hf]

variable (hf : s.fatal = false)
include hf

theorem exec_acquireRead_of_held (hrd : pool.read ≠ none) :
    exec .acquireRead s = .next (s.respond 0x40 .readHeld 0) := by
  simp [exec, execAcquireRead, unlessBusy_of_noPull s hidle, answer, hr, hf, Option.isSome_iff_ne_none.2 hrd]

theorem exec_acquireRead_of_no_frame (hrd : pool.read = none) (hfull : pool.full = []) :
    exec .acquireRead s = .next (s.respond 0x40 .none 0) := by
  simp [exec, execAcquireRead, unlessBusy_of_noPull s hidle, answer, hr, hf, hrd,
    pool.tryAcquire_of_no_frame hrd hfull]

theorem exec_acquireRead_of_frame (b : Nat) (rest : List Nat) (hrd : pool.read = none) (hfull : pool.full = b :: rest) :
    exec .acquireRead s =
      .next ((s.setPool { pool with read := some b, full := rest }).respond 0x40 .ok (BitVec.ofNat 32 b)) := by
  simp [exec, execAcquireRead, unlessBusy_of_noPull s hidle, answer, hr, hf, hrd,
    pool.tryAcquire_of_frame b rest hrd hfull]

theorem exec_releaseRead_of_none (hrd : pool.read = none) :
    exec .releaseRead s = .next (s.respond 0x41 .noRead 0) := by
  simp [exec, execReleaseRead, unlessBusy_of_noPull s hidle, answer, hr, hf, hrd]

theorem exec_releaseRead_of_held (b : Nat) (hrd : pool.read = some b) :
    exec .releaseRead s = .next ((s.setPool (pool.release b)).respond 0x41 .ok (BitVec.ofNat 32 b)) := by
  simp [exec, execReleaseRead, unlessBusy_of_noPull s hidle, answer, hr, hf, hrd]

end

/-- Settles O26, by the cases of R144: each check of the rule with those before it passed. -/
theorem acquireReadTakesOldestFrame : Obligations.AcquireReadTakesOldestFrame := by
  refine ⟨by decide, fun s hidle => ⟨?taken, exec_acquireRead_of_stopped s hidle, fun hr => ?fatal, ?held, ?nothing⟩⟩
  case taken => exact fun pool b rest hr hf => exec_acquireRead_of_frame s hidle pool hr hf b rest
  case fatal =>
    obtain ⟨pool, hrun⟩ := s.running_iff.1 hr
    exact exec_acquireRead_of_fatal s hidle pool hrun
  case held => exact exec_acquireRead_of_held s hidle
  case nothing => exact exec_acquireRead_of_no_frame s hidle

/-- Settles O27, by the cases of R145: each check of the rule with those before it passed. -/
theorem releaseReadReturnsBuffer : Obligations.ReleaseReadReturnsBuffer := by
  refine ⟨by decide, fun s hidle => ⟨?released, exec_releaseRead_of_stopped s hidle, fun hr => ?fatal, ?nothing⟩⟩
  case released => exact fun pool b hr hf => exec_releaseRead_of_held s hidle pool hr hf b
  case fatal =>
    obtain ⟨pool, hrun⟩ := s.running_iff.1 hr
    exact exec_releaseRead_of_fatal s hidle pool hrun
  case nothing => exact exec_releaseRead_of_none s hidle

/-! ## PUBLISH (R140) -/

theorem exec_publish_of_running (s : State) (pool : Pool) (hr : s.run = .running pool) :
    exec .publish s = .next (s.afterPublish (pool.publish pool.fill)) := by
  simp [exec, execPublish, hr]

/-- Settles O28, by what Empty holds and, with Empty empty, what Full holds: the new Fill buffer is the head of Empty,
the old head of Full, or the published buffer itself. -/
theorem publishMovesFill : Obligations.PublishMovesFill := by
  intro s pool hr
  rw [exec_publish_of_running s pool hr]
  refine ⟨fun e rest he => ?fresh, fun f rest he hfull => ?displaced, fun he hfull => ?self⟩
  case fresh =>
    rw [pool.publish_of_empty_cons pool.fill e rest he]
    exact ⟨rfl, rfl⟩
  case displaced =>
    rw [pool.publish_of_empty_nil pool.fill f (rest ++ [pool.fill]) he (by rw [hfull, List.cons_append])]
    exact ⟨rfl, rfl⟩
  case self =>
    rw [pool.publish_self he hfull]
    exact ⟨rfl, congrArg Host.Outcome.next (setPool_self s pool hr)⟩

end Sys2Proof.Machine
end

