-- ==== Sys2Proof/Proofs/VideoBytes.lean ====
section
/-!
PROOF. The luma and the chroma byte of a pixel (R176 to R178): each rescaled sum fits a byte, so the byte is the sum.
-/
namespace Sys2Proof.Machine

theorem toNat_ofInt_byte (v : Int) (h0 : 0 ≤ v) (h1 : v < 256) : ((BitVec.ofInt 8 v).toNat : Int) = v := by
  rw [BitVec.toNat_ofInt]
  omega

/-- R177: the luma byte is its formula, which is in 16..235. -/
theorem lumaByte_spec (sum : Int) :
    ((lumaByte sum).toNat : Int) = 219 * clamp sum 0 255 / 255 + 16 ∧
      16 ≤ (lumaByte sum).toNat ∧ (lumaByte sum).toNat ≤ 235 := by
  have hclamp : 0 ≤ clamp sum 0 255 ∧ clamp sum 0 255 ≤ 255 := by unfold clamp; omega
  have hbyte : ((lumaByte sum).toNat : Int) = 219 * clamp sum 0 255 / 255 + 16 :=
    toNat_ofInt_byte _ (by omega) (by omega)
  omega

/-- Division toward zero is monotone, so the rescaled sum lies between the rescaled ends of the clamp. -/
theorem chroma_rescale_bounds (c : Int) (h0 : -127 ≤ c) (h1 : c ≤ 127) :
    -112 ≤ Int.tdiv (112 * c) 127 ∧ Int.tdiv (112 * c) 127 ≤ 112 := by
  have hlow : Int.tdiv (112 * -127) 127 ≤ Int.tdiv (112 * c) 127 := Int.tdiv_le_tdiv (by decide) (by omega)
  have hhigh : Int.tdiv (112 * c) 127 ≤ Int.tdiv (112 * 127) 127 := Int.tdiv_le_tdiv (by decide) (by omega)
  exact ⟨hlow, hhigh⟩

/-- R178: the chroma byte is its formula, which is in 16..240. -/
theorem chromaByte_spec (sum : Int) :
    ((chromaByte sum).toNat : Int) = Int.tdiv (112 * clamp sum (-127) 127) 127 + 128 ∧
      16 ≤ (chromaByte sum).toNat ∧ (chromaByte sum).toNat ≤ 240 := by
  obtain ⟨hlow, hhigh⟩ := chroma_rescale_bounds (clamp sum (-127) 127) (by unfold clamp; omega) (by unfold clamp; omega)
  have hbyte : ((chromaByte sum).toNat : Int) = Int.tdiv (112 * clamp sum (-127) 127) 127 + 128 :=
    toNat_ofInt_byte _ (by omega) (by omega)
  omega

/-- Settles O44: the two rescaled sums are in the ranges of R177 and R178, so no byte wraps. -/
theorem videoRanges : Obligations.VideoRanges := by
  intro sum
  obtain ⟨hluma, hluma16, hluma235⟩ := lumaByte_spec sum
  obtain ⟨hchroma, hchroma16, hchroma240⟩ := chromaByte_spec sum
  exact ⟨hluma, hluma16, hluma235, hchroma, hchroma16, hchroma240⟩

end Sys2Proof.Machine
end

