-- ==== Sys2Proof/Proofs/TapValues.lean ====
section
/-!
PROOF. The channels of an interior pixel from the nine raw samples around its tap centre (R166 to R170).
-/
namespace Sys2Proof.Machine

theorem avg2_toNat (a b : Byte) : (avg2 a b).toNat = (a.toNat + b.toNat) / 2 := by
  unfold avg2
  rw [BitVec.toNat_ofNat]
  omega

theorem avg4_toNat (a b c d : Byte) : (avg4 a b c d).toNat = (a.toNat + b.toNat + c.toNat + d.toNat) / 4 := by
  unfold avg4
  rw [BitVec.toNat_ofNat]
  omega

/-- `v dx dy` is the raw sample at site (cx, cy) + (dx - 1, dy - 1), for the nine sites a tap can read (R169). -/
def State.SamplesAround (s : State) (b cx cy : Nat) (v : Nat → Nat → Byte) : Prop :=
  ∀ dx dy, dx ≤ 2 → dy ≤ 2 → s.rawRead b ((cy + dy - 1) * s.width + (cx + dx - 1)) = .ok (v dx dy)

/-- A tap over the nine samples around its site (R169). -/
def tapValue (v : Nat → Nat → Byte) : TapKind → Byte
  | .own => v 1 1
  | .h2 => avg2 (v 0 1) (v 2 1)
  | .v2 => avg2 (v 1 0) (v 1 2)
  | .x4 => avg4 (v 0 0) (v 2 0) (v 0 2) (v 2 2)
  | .c4 => avg4 (v 0 1) (v 2 1) (v 1 0) (v 1 2)

/-- The three channels a phase's taps give over the nine samples (R170). -/
def tapRgb (v : Nat → Nat → Byte) (taps : PhaseTaps) : Rgb where
  r := tapValue v taps.r
  g := tapValue v taps.g
  b := tapValue v taps.b

section
variable (s : State) (b cx cy : Nat) (v : Nat → Nat → Byte) (hv : s.SamplesAround b cx cy v)
include hv

theorem State.tap_of_samples (k : TapKind) : s.tap b cx cy k = .ok (tapValue v k) := by
  have own : s.sample b cx cy = .ok (v 1 1) := hv 1 1 (by decide) (by decide)
  have left : s.sample b (cx - 1) cy = .ok (v 0 1) := hv 0 1 (by decide) (by decide)
  have right : s.sample b (cx + 1) cy = .ok (v 2 1) := hv 2 1 (by decide) (by decide)
  have up : s.sample b cx (cy - 1) = .ok (v 1 0) := hv 1 0 (by decide) (by decide)
  have down : s.sample b cx (cy + 1) = .ok (v 1 2) := hv 1 2 (by decide) (by decide)
  have upLeft : s.sample b (cx - 1) (cy - 1) = .ok (v 0 0) := hv 0 0 (by decide) (by decide)
  have upRight : s.sample b (cx + 1) (cy - 1) = .ok (v 2 0) := hv 2 0 (by decide) (by decide)
  have downLeft : s.sample b (cx - 1) (cy + 1) = .ok (v 0 2) := hv 0 2 (by decide) (by decide)
  have downRight : s.sample b (cx + 1) (cy + 1) = .ok (v 2 2) := hv 2 2 (by decide) (by decide)
  cases k with
  | own => exact own
  | h2 => rw [State.tap, left, right]; rfl
  | v2 => rw [State.tap, up, down]; rfl
  | x4 => rw [State.tap, upLeft, upRight, downLeft, downRight]; rfl
  | c4 => rw [State.tap, left, right, up, down]; rfl

theorem State.interiorRgb_of_samples (c r : Nat) (hcentre : s.tapCentre c r = (cx, cy)) :
    s.interiorRgb b c r = .ok (tapRgb v (tapsAt s.params.val.bayerTaps cx cy)) := by
  simp only [State.interiorRgb, hcentre, s.tap_of_samples b cx cy v hv]
  rfl

end

/-- R169, with the averages truncating (R12). -/
theorem tapValue_toNat (v : Nat → Nat → Byte) (kind : TapKind) :
    (tapValue v kind).toNat = match kind with
      | .own => (v 1 1).toNat
      | .h2 => ((v 0 1).toNat + (v 2 1).toNat) / 2
      | .v2 => ((v 1 0).toNat + (v 1 2).toNat) / 2
      | .x4 => ((v 0 0).toNat + (v 2 0).toNat + (v 0 2).toNat + (v 2 2).toNat) / 4
      | .c4 => ((v 0 1).toNat + (v 2 1).toNat + (v 1 0).toNat + (v 1 2).toNat) / 4 := by
  cases kind with
  | own => rfl
  | h2 => exact avg2_toNat _ _
  | v2 => exact avg2_toNat _ _
  | x4 => exact avg4_toNat _ _ _ _
  | c4 => exact avg4_toNat _ _ _ _

/-- The four bayer phases, by the parities of the row and the column (R167). -/
theorem tapsAt_cases (t : BayerTaps) (cx cy : Nat) :
    (cy % 2 = 0 ∧ cx % 2 = 0 ∧ tapsAt t cx cy = t.p00) ∨ (cy % 2 = 0 ∧ cx % 2 = 1 ∧ tapsAt t cx cy = t.p01) ∨
    (cy % 2 = 1 ∧ cx % 2 = 0 ∧ tapsAt t cx cy = t.p10) ∨ (cy % 2 = 1 ∧ cx % 2 = 1 ∧ tapsAt t cx cy = t.p11) := by
  unfold tapsAt
  rcases Nat.mod_two_eq_zero_or_one cy with hy | hy <;> rcases Nat.mod_two_eq_zero_or_one cx with hx | hx <;>
    simp [hy, hx]

/-- Settles O38: the channels are the taps of the default table at the phase of the tap centre, phase by phase. -/
theorem defaultTapsByPhase : Obligations.DefaultTapsByPhase := by
  intro s b c r cx cy v htable _ _ _ _ hcx hcy hv half quarter
  rw [s.interiorRgb_of_samples b cx cy v hv c r (Prod.ext hcx.symm hcy.symm), htable]
  obtain ⟨hy, hx, htaps⟩ | ⟨hy, hx, htaps⟩ | ⟨hy, hx, htaps⟩ | ⟨hy, hx, htaps⟩ := tapsAt_cases defaultTaps cx cy <;>
    rw [htaps, hy, hx] <;> rfl

end Sys2Proof.Machine
end

