-- ==== Sys2Proof/Proofs/ViewPixels.lean ====
section
/-!
PROOF. The bytes of a view pixel, for each of padding, border and interior (R164 to R166), and where a conversion
leaves them in output memory (R163).
-/
namespace Sys2Proof.Machine

/-! ## The three kinds of view pixel -/

theorem State.inImage_iff (s : State) (x y : Nat) :
    s.inImage x y = true ↔ s.ox ≤ x ∧ x < s.ox + s.nwidth ∧ s.oy ≤ y ∧ y < s.oy + s.nheight := by
  simp only [State.inImage, Bool.and_eq_true, decide_eq_true_eq, and_assoc]

theorem State.onBorder_iff (s : State) (c r : Nat) :
    s.onBorder c r = true ↔ r = 0 ∨ r = s.nheight - 1 ∨ c = 0 ∨ c = s.nwidth - 1 := by
  simp only [State.onBorder, Bool.or_eq_true, decide_eq_true_eq, or_assoc]

theorem State.viewPixel_of_padding (s : State) (b x y : Nat)
    (h : x < s.ox ∨ s.ox + s.nwidth ≤ x ∨ y < s.oy ∨ s.oy + s.nheight ≤ y) :
    s.viewPixel b x y = .ok (List.replicate s.bpp 0) := by
  have hout : ¬ s.inImage x y = true := by rw [s.inImage_iff]; omega
  rw [State.viewPixel, if_neg hout]

theorem State.viewPixel_of_border (s : State) (b x y : Nat) (hx0 : s.ox ≤ x) (hx1 : x < s.ox + s.nwidth)
    (hy0 : s.oy ≤ y) (hy1 : y < s.oy + s.nheight)
    (h : x = s.ox ∨ x + 1 = s.ox + s.nwidth ∨ y = s.oy ∨ y + 1 = s.oy + s.nheight) :
    s.viewPixel b x y = .ok s.mode.fmt.background := by
  have hborder : s.onBorder (x - s.ox) (y - s.oy) = true := by rw [s.onBorder_iff]; omega
  rw [State.viewPixel, if_pos ((s.inImage_iff x y).2 ⟨hx0, hx1, hy0, hy1⟩), if_pos hborder]

theorem State.viewPixel_of_interior (s : State) (b x y : Nat) (p : Rgb) (hx0 : s.ox + 1 ≤ x)
    (hx1 : x + 2 ≤ s.ox + s.nwidth) (hy0 : s.oy + 1 ≤ y) (hy1 : y + 2 ≤ s.oy + s.nheight)
    (hp : s.interiorRgb b (x - s.ox) (y - s.oy) = .ok p) : s.viewPixel b x y = .ok (s.pixelOf p x) := by
  have himage : s.inImage x y = true := by rw [s.inImage_iff]; omega
  have hinside : ¬ s.onBorder (x - s.ox) (y - s.oy) = true := by rw [s.onBorder_iff]; omega
  rw [State.viewPixel, if_pos himage, if_neg hinside, hp]

/-- The order of an interior pixel's bytes in each format, with the format's code (R23, R173, R174, R180). -/
theorem State.pixelOf_layout (s : State) (p : Rgb) (x : Nat) :
    (s.mode.fmt, s.mode.fmt.code, s.pixelOf p x) ∈
      [(Format.rgb24, 0, [p.r, p.g, p.b]), (.rgb32, 1, [p.r, p.g, p.b, 0]), (.bgr24, 2, [p.b, p.g, p.r]),
       (.bgr32, 3, [p.b, p.g, p.r, 0]), (.uyvy, 4, [s.chromaAt p x, lumaByte (s.ySum p)]),
       (.yuyv, 5, [lumaByte (s.ySum p), s.chromaAt p x])] := by
  unfold State.pixelOf
  cases s.mode.fmt <;> simp [Format.code]

/-! ## A converted pixel in output memory -/

/-- A conversion leaves each view pixel's bytes from the pixel's address upward (R163). -/
theorem State.outRead_of_demosaic (s t : State) (b : Nat) (slot : BitVec 8) (x y : Nat) (px : List Byte)
    (h : s.demosaic b slot = .ok t) (hx : x < s.vx) (hy : y < s.vy) (hpx : s.viewPixel b x y = .ok px) (k : Nat)
    (hk : k < s.bpp) : t.outRead (s.pixelAddr slot x y + k) = px[k]? := by
  obtain ⟨bytes, hbytes, -, rfl⟩ := s.demosaic_ok t b slot h
  obtain ⟨px', hpx', hat⟩ := (s.viewBytes_ok b bytes hbytes).2 x y hx hy
  obtain rfl : px' = px := Except.ok.inj (hpx'.symm.trans hpx)
  have hkpx : k < px'.length := (s.viewPixel_length b x y px' hpx).symm ▸ hk
  obtain ⟨hin, -⟩ := List.getElem?_eq_some_iff.1 ((hat k hk).trans (List.getElem?_eq_getElem hkpx))
  calc (s.setOut (Mem.writeList s.out (s.slotBase slot) bytes)).outRead (s.pixelAddr slot x y + k)
      = Mem.read (Mem.writeList s.out (s.slotBase slot) bytes)
          (s.slotBase slot + ((y * s.vx + x) * s.bpp + k)) := by rw [← Nat.add_assoc]; rfl
    _ = bytes[(y * s.vx + x) * s.bpp + k]? := by rw [Mem.read_writeList_inside _ _ _ _ hin, List.getElem?_eq_getElem]
    _ = px'[k]? := hat k hk

/-- Settles O39: the channels are the taps at the phase of the tap centre, the bytes are the format's layout of them,
and a conversion leaves them at the pixel's address. -/
theorem interiorPixelBytes : Obligations.InteriorPixelBytes := by
  intro s b x y cx cy v hx0 hx1 hy0 hy1 hcx hcy hv table taps cols tab
  have htaps : tapsAt table cx cy = taps := by
    obtain ⟨hy, hx, h⟩ | ⟨hy, hx, h⟩ | ⟨hy, hx, h⟩ | ⟨hy, hx, h⟩ := tapsAt_cases table cx cy <;>
      simp only [taps, h, hy, hx]
  have hrgb : s.interiorRgb b (x - s.ox) (y - s.oy) = .ok (tapRgb v taps) := by
    rw [← htaps]
    exact s.interiorRgb_of_samples b cx cy v hv _ _ (Prod.ext hcx.symm hcy.symm)
  have hpx := s.viewPixel_of_interior b x y _ hx0 hx1 hy0 hy1 hrgb
  refine ⟨tapRgb v taps, s.pixelOf (tapRgb v taps) x, hpx, fun kind channel hmem => ?channels,
    s.pixelOf_layout (tapRgb v taps) x, fun slot t k byte hx hy ht hbyte => ?placed⟩
  case channels =>
    have hchannel : channel = tapValue v kind := by
      simp only [List.mem_cons, Prod.mk.injEq, List.not_mem_nil, or_false] at hmem
      rcases hmem with ⟨rfl, rfl⟩ | ⟨rfl, rfl⟩ | ⟨rfl, rfl⟩ <;> rfl
    rw [hchannel]
    exact tapValue_toNat v kind
  case placed =>
    have hk : k < s.bpp := by
      obtain ⟨hlt, -⟩ := List.getElem?_eq_some_iff.1 hbyte
      rwa [s.pixelOf_length] at hlt
    exact (s.outRead_of_demosaic t b slot x y _ ht hx hy hpx k hk).trans hbyte

/-- The background bytes (R181): zeros, or the chroma byte 128 and the luma byte 16 in the format's order. -/
theorem Format.background_getElem? (f : Format) :
    ∀ k, k < f.bpp → f.background[k]? = match f with
      | .rgb24 => some 0
      | .rgb32 => some 0
      | .bgr24 => some 0
      | .bgr32 => some 0
      | .uyvy => if k = 0 then some 0x80 else some 0x10
      | .yuyv => if k = 0 then some 0x10 else some 0x80 := by
  cases f <;> decide

/-- Settles O41: a padding pixel converts to zeros and a border pixel to the background, and a conversion leaves either
at the pixel's address. -/
theorem paddingAndBorderBytes : Obligations.PaddingAndBorderBytes := by
  intro s t b slot x y ht hx hy
  refine ⟨fun hout k hk => ?padding, fun hx0 hx1 hy0 hy1 hedge k hk => ?border⟩
  case padding =>
    rw [s.outRead_of_demosaic t b slot x y _ ht hx hy (s.viewPixel_of_padding b x y hout) k hk]
    exact List.getElem?_replicate_of_lt hk
  case border =>
    rw [s.outRead_of_demosaic t b slot x y _ ht hx hy (s.viewPixel_of_border b x y hx0 hx1 hy0 hy1 hedge) k hk]
    exact s.mode.fmt.background_getElem? k hk

end Sys2Proof.Machine
end

