-- ==== Sys2Proof/Proofs/Brightness.lean ====
section
/-!
PROOF. The corrected byte: delta, direction and saturation (R202, R203).
-/
namespace Sys2Proof.Machine

/-- Adding saturates at 255, so the sum fits a byte. -/
theorem brightByte_toNat_of_ge (bright : BitVec 16) (v : Byte) (h : 32767 ≤ bright.toNat) :
    (brightByte bright v).toNat = min 255 (v.toNat + (bright.toNat - 32767) / 256) := by
  rw [brightByte, if_pos h, BitVec.toNat_ofNat]
  exact Nat.mod_eq_of_lt (Nat.lt_succ_of_le (Nat.min_le_left _ _))

/-- Subtracting saturates at 0 and stays at or below the byte it started from. -/
theorem brightByte_toNat_of_lt (bright : BitVec 16) (v : Byte) (h : bright.toNat < 32767) :
    (brightByte bright v).toNat = v.toNat - (32767 - bright.toNat) / 256 := by
  rw [brightByte, if_neg (Nat.not_le.2 h), BitVec.toNat_ofNat]
  exact Nat.mod_eq_of_lt (Nat.lt_of_le_of_lt (Nat.sub_le _ _) v.isLt)

/-- Settles O45: in either direction the saturated result fits a byte, and a 16-bit brightness is at most 32768 above
and 32767 below the middle. -/
theorem brightnessSaturates : Obligations.BrightnessSaturates := by
  intro bright v
  have hbright := bright.isLt
  exact ⟨fun h => ⟨brightByte_toNat_of_ge bright v h, by omega⟩,
    fun h => ⟨brightByte_toNat_of_lt bright v h, by omega⟩⟩

end Sys2Proof.Machine
end

