-- ==== Sys2Proof/Proofs/CommandTake.lean ====
section
/-!
PROOF. Taking a command word (R215): ILLEGAL for a word of no row (R82, R98, R101), BUSY with a pull pending for every
command that waits for the pull, and the command's own meaning otherwise.
-/
namespace Sys2Proof.Machine

theorem State.pending_iff (s : State) : s.pullPending = true ↔ s.pull ≠ .noPull := by
  rw [ne_eq, ← s.not_pending_iff, Bool.not_eq_false]

theorem takeCommand_of_ok (s : State) (w : Word) (ws : List Word) (i : Instr) (hc : s.cmdPort = w :: ws)
    (hd : decodeCommand w = .ok i) : takeCommand s = exec i (s.setCmdPort ws) := by
  simp [takeCommand, hc, hd]

theorem takeCommand_of_error (s : State) (w : Word) (ws : List Word) (e : CommandError) (hc : s.cmdPort = w :: ws)
    (hd : decodeCommand w = .error e) :
    takeCommand s = .next ((s.setCmdPort ws).respond (BitVec.ofNat 8 (bits w 31 24)) .illegal 0) := by
  simp [takeCommand, hc, hd, answer]

/-- Each command but the four that R215 lets through is guarded by `unlessBusy` with its own opcode. -/
theorem exec_of_pending (i : Instr) (s : State) (hi : i.space = .command) (hp : s.pullPending = true)
    (hstop : i ≠ .stopCapture) (hcancel : i ≠ .cancelPull) (hpoll : i ≠ .pollReady) (hreg : ∀ n, i ≠ .readReg n) :
    exec i s = .next (s.respond (BitVec.ofNat 8 i.opcode) .busy 0) := by
  cases i with
  | cfgMode | cfgBright | cfgView | startCapture | pullFrame | acquireRead | releaseRead | convert | brighten =>
    exact unlessBusy_pending _ s _ hp
  | stopCapture => exact absurd rfl hstop
  | cancelPull => exact absurd rfl hcancel
  | pollReady => exact absurd rfl hpoll
  | readReg n => exact absurd rfl (hreg n)
  | xfer | publish => cases hi

/-- Settles O8: a word that matches no row does not decode (R101), so ILLEGAL is answered before the pull is looked at;
what decodes carries its opcode, with which BUSY is answered. -/
theorem takeChecksInOrder : Obligations.TakeChecksInOrder := by
  intro s w ws hc
  refine ⟨fun hno => ?illegal, fun i hd hpull hstop hcancel hpoll hreg => ?busy, fun i => takeCommand_of_ok s w ws i hc⟩
  case illegal =>
    obtain ⟨-, hillegal, -⟩ := wordsMatchTheirRow
    obtain ⟨e, hd⟩ := hillegal w hno
    exact takeCommand_of_error s w ws e hc hd
  case busy =>
    obtain ⟨hop, hi⟩ := decodeCommand_opcode w i hd
    have hpending : (s.setCmdPort ws).pullPending = true := s.pending_iff.2 hpull
    rw [takeCommand_of_ok s w ws i hc hd, exec_of_pending i _ hi hpending hstop hcancel hpoll hreg, hop]
    rfl

end Sys2Proof.Machine
end

