-- ==== Sys2Proof/Proofs/ConfigurationAnswers.lean ====
section
/-!
PROOF. The commands that are accepted only while stopped: CFG_MODE, CFG_BRIGHT, CFG_VIEW (R216 to R218) and
START_CAPTURE (R219). With no pull pending each is answered BAD_STATE while running and follows its own rule while
stopped.
-/
namespace Sys2Proof.Machine

/-! ## The operands of CFG_MODE (R23, R216) -/

theorem resIndex_of_legal (res : BitVec 4) (r : Fin 10) (h : res.toNat = r.val) : resIndex res = some r := by
  simp [resIndex, h]

theorem resIndex_of_illegal (res : BitVec 4) (h : 10 ≤ res.toNat) : resIndex res = none :=
  dif_neg (Nat.not_lt.2 h)

theorem formatOf_of_legal (fmt : BitVec 3) (f : Format) (h : fmt.toNat = f.code) : formatOf fmt = some f := by
  unfold formatOf
  rw [h]
  cases f <;> rfl

theorem formatOf_of_illegal (fmt : BitVec 3) (h : 6 ≤ fmt.toNat) : formatOf fmt = none := by
  unfold formatOf
  split
  case h_7 => rfl
  all_goals omega

/-! ## What the commands answer with no pull pending -/

section
variable (s : State) (hidle : s.pull = .noPull)
include hidle

/-- While running a command that is accepted only while stopped is answered BAD_STATE. -/
theorem onlyStopped_of_running (op : BitVec 8) (own : Host.Outcome State Fault Refusal) (hr : s.running = true) :
    unlessBusy op s (if s.running then answer s op .badState 0 else own) = .next (s.respond op .badState 0) := by
  rw [unlessBusy_of_noPull s hidle, if_pos hr]
  rfl

/-- While stopped a command that is accepted only while stopped follows its own rule. -/
theorem onlyStopped_of_stopped (op : BitVec 8) (own : Host.Outcome State Fault Refusal) (hr : s.run = .stopped) :
    unlessBusy op s (if s.running then answer s op .badState 0 else own) = own := by
  rw [unlessBusy_of_noPull s hidle, if_neg (Bool.eq_false_iff.1 (s.not_running_of_run hr))]

variable (hr : s.run = .stopped)
include hr

theorem exec_cfgMode_of_legal (res : BitVec 4) (fmt : BitVec 3) (hflip vflip : Bool) (r : Fin 10) (f : Format)
    (hres : res.toNat = r.val) (hfmt : fmt.toNat = f.code) :
    exec (.cfgMode res fmt hflip vflip) s =
      .next ((s.setMode { res := r, fmt := f, hflip := hflip, vflip := vflip }).respond 0x01 .ok 0) := by
  refine (onlyStopped_of_stopped s hidle 0x01 _ hr).trans ?_
  rw [resIndex_of_legal res r hres, formatOf_of_legal fmt f hfmt]
  rfl

theorem exec_cfgMode_of_illegal (res : BitVec 4) (fmt : BitVec 3) (hflip vflip : Bool)
    (hbad : 10 ≤ res.toNat ∨ 6 ≤ fmt.toNat) :
    exec (.cfgMode res fmt hflip vflip) s = .next (s.respond 0x01 .badConfig 0) := by
  refine (onlyStopped_of_stopped s hidle 0x01 _ hr).trans ?_
  rcases hbad with hres | hfmt
  · rw [resIndex_of_illegal res hres]
    rfl
  · rw [formatOf_of_illegal fmt hfmt]
    cases resIndex res <;> rfl

theorem exec_startCapture_of_stopped :
    exec .startCapture s =
      .next (if s.viewFits then s.startStream.respond 0x10 .ok 0 else s.respond 0x10 .badConfig 0) :=
  onlyStopped_of_stopped s hidle 0x10 _ hr

end

/-- Settles O14: while stopped the answer is decided by whether both operands name a legal value. -/
theorem cfgModeWritesMode : Obligations.CfgModeWritesMode := fun res fmt hflip vflip s =>
  ⟨congrArg (fun n => [BitVec.ofNat 32 n]) (by omega),
    fun hidle hr => exec_cfgMode_of_legal s hidle hr res fmt hflip vflip,
    fun hidle hr => exec_cfgMode_of_illegal s hidle hr res fmt hflip vflip,
    fun hidle => onlyStopped_of_running s hidle 0x01 _⟩

/-- Settles O15: while stopped every brightness is written. -/
theorem cfgBrightWritesBright : Obligations.CfgBrightWritesBright := fun _ s =>
  ⟨rfl, fun hidle => onlyStopped_of_stopped s hidle 0x02 _, fun hidle => onlyStopped_of_running s hidle 0x02 _⟩

/-- Settles O16: while stopped every view is written. -/
theorem cfgViewWritesView : Obligations.CfgViewWritesView := fun _ _ s =>
  ⟨congrArg (fun n => [BitVec.ofNat 32 n]) (by omega),
    fun hidle => onlyStopped_of_stopped s hidle 0x03 _, fun hidle => onlyStopped_of_running s hidle 0x03 _⟩

/-! ## START_CAPTURE (R219) -/

theorem State.viewFits_iff (s : State) :
    s.viewFits = true ↔ s.nwidth ≤ s.vx ∧ s.nheight ≤ s.vy ∧ s.outBytes ≤ s.slotBytes := by
  simp only [State.viewFits, Bool.and_eq_true, decide_eq_true_eq, and_assoc]

/-- The fresh pool as R219 lists it: every buffer but the Fill buffer 0 is Empty, in rising order. -/
theorem freshPool_eq (n : Nat) :
    freshPool n = { fill := 0, read := none, empty := List.range' 1 (n - 1), full := [],
                    bufs := List.replicate n { off := 0, err := 0, odd := false } } := by
  simp only [freshPool, List.range'_eq_map_range, Nat.add_comm]

/-- Settles O17: while stopped the answer is decided by the check of the view; the stream set up is the fresh pool with
the counters and flags cleared. -/
theorem startCaptureSetsUpStream : Obligations.StartCaptureSetsUpStream := by
  refine ⟨by decide, fun s hidle => ⟨fun hr hx hy hout => ?started, fun hr hbad => ?refused,
    onlyStopped_of_running s hidle 0x10 _⟩⟩
  case started =>
    rw [exec_startCapture_of_stopped s hidle hr, if_pos (s.viewFits_iff.2 ⟨hx, hy, hout⟩), ← freshPool_eq]
    rfl
  case refused =>
    have hno : ¬s.viewFits = true := by
      rw [s.viewFits_iff]
      omega
    rw [exec_startCapture_of_stopped s hidle hr, if_neg hno]
    rfl

end Sys2Proof.Machine
end

