-- ==== Sys2Proof/Proofs/PullControl.lean ====
section
/-!
PROOF. The life of a pull up to its acquisition: issue (R224), the WAIT step (R225), and the two commands that end a
pending pull, STOP_CAPTURE (R220, R221) and CANCEL_PULL (R230).
-/
namespace Sys2Proof.Machine

/-! ## PULL_FRAME, issue step (R224) -/

section
variable (s : State) (hidle : s.pull = .noPull) (slot : BitVec 8)
include hidle

theorem exec_pullFrame_of_stopped (hr : s.run = .stopped) :
    exec (.pullFrame slot) s = .next (s.respond 0x20 .terminated 0) := by
  simp [exec, execPullFrame, unlessBusy_of_noPull s hidle, answer, hr]

variable (pool : Pool) (hr : s.run = .running pool)
include hr

theorem exec_pullFrame_of_bad_slot (hs : s.nslots ≤ slot.toNat) :
    exec (.pullFrame slot) s = .next (s.respond 0x20 .badSlot 0) := by
  simp [exec, execPullFrame, unlessBusy_of_noPull s hidle, answer, hr, State.slotOk, Nat.not_lt.2 hs]

variable (hs : slot.toNat < s.nslots)
include hs

theorem exec_pullFrame_of_fatal (hf : s.fatal = true) :
    exec (.pullFrame slot) s = .next (s.respond 0x20 .fatal 0) := by
  simp [exec, execPullFrame, unlessBusy_of_noPull s hidle, answer, hr, State.slotOk, hs, hf]

variable (hf : s.fatal = false)
include hf

theorem exec_pullFrame_of_held (hrd : pool.read ≠ none) :
    exec (.pullFrame slot) s = .next (s.respond 0x20 .readHeld 0) := by
  simp [exec, execPullFrame, unlessBusy_of_noPull s hidle, answer, hr, State.slotOk, hs, hf,
    Option.isSome_iff_ne_none.2 hrd]

theorem exec_pullFrame_of_free (hrd : pool.read = none) :
    exec (.pullFrame slot) s = .next (s.setPull (.wait slot)) := by
  simp [exec, execPullFrame, unlessBusy_of_noPull s hidle, hr, State.slotOk, hs, hf, hrd]

end

/-- Settles O19, by the checks of R264 in order: the run, the slot, the fatal flag, the Read role. -/
theorem pullFrameIssueWaits : Obligations.PullFrameIssueWaits := by
  intro slot s hidle
  refine ⟨rfl, exec_pullFrame_of_free s hidle slot, exec_pullFrame_of_stopped s hidle slot, fun hr => ?badSlot,
    fun hr => ?fatal, exec_pullFrame_of_held s hidle slot⟩
  all_goals obtain ⟨pool, hrun⟩ := s.running_iff.1 hr
  case badSlot => exact exec_pullFrame_of_bad_slot s hidle slot pool hrun
  case fatal => exact exec_pullFrame_of_fatal s hidle slot pool hrun

/-! ## The WAIT step (R225) -/

theorem State.enabled_pull_of_wait (s : State) (slot : BitVec 8) (pool : Pool) (hp : s.pull = .wait slot)
    (hr : s.run = .running pool) :
    s.enabled .pull = true ↔ s.fatal = true ∨ s.streamError = true ∨ pool.full ≠ [] := by
  simp [State.enabled, State.pullEnabled, hp, s.fullList_of_run pool hr, or_assoc]

theorem pullStep_of_wait (s : State) (slot : BitVec 8) (h : s.pull = .wait slot) : pullStep s = waitStep slot s := by
  simp only [pullStep, h]

theorem waitStep_of_fatal (s : State) (slot : BitVec 8) (hf : s.fatal = true) :
    waitStep slot s = .next ((s.respond 0x20 .fatal 0).setPull .noPull) :=
  if_pos hf

theorem waitStep_of_streamError (s : State) (slot : BitVec 8) (hf : s.fatal = false) (he : s.streamError = true) :
    waitStep slot s = .next ((s.respond 0x20 .streamError 0).setPull .noPull) := by
  simp [waitStep, hf, he]

theorem waitStep_of_frame (s : State) (slot : BitVec 8) (pool : Pool) (b : Nat) (rest : List Nat)
    (hr : s.run = .running pool) (hf : s.fatal = false) (he : s.streamError = false) (hrd : pool.read = none)
    (hfull : pool.full = b :: rest) :
    waitStep slot s = .next ((s.setPool { pool with read := some b, full := rest }).setPull (.convert slot)) := by
  simp [waitStep, hr, hf, he, pool.tryAcquire_of_frame b rest hrd hfull]

/-- Settles O20: the step is the WAIT step, by the order of its checks. -/
theorem waitStepAcquiresOrReports : Obligations.WaitStepAcquiresOrReports := by
  intro slot s pool hp hr
  rw [pullStep_of_wait s slot hp]
  exact ⟨s.enabled_pull_of_wait slot pool hp hr, waitStep_of_fatal s slot, waitStep_of_streamError s slot,
    fun b rest => waitStep_of_frame s slot pool b rest hr⟩

/-! ## STOP_CAPTURE (R220, R221) and CANCEL_PULL (R230) -/

/-- Two responses in a row, the second after the pull and the run state are written. -/
theorem State.respond_then_respond (s : State) (pull : Pull) (run : Run) (op op' : BitVec 8) (st st' : Status)
    (v v' : Word) :
    (((s.respond op st v).setPull pull).setRun run).respond op' st' v' =
      { s with
        run := run, pull := pull
        responses := s.responses ++ [{ op := op, status := st, value := v },
                                     { op := op', status := st', value := v' }] } := by
  simp [State.respond, State.setPull, State.setRun]

theorem State.terminatePull_of_noPull (s : State) (h : s.pull = .noPull) : s.terminatePull = s :=
  if_neg (Bool.eq_false_iff.1 (s.not_pending_iff.2 h))

theorem State.terminatePull_of_pull (s : State) (h : s.pull ≠ .noPull) :
    s.terminatePull = (s.respond 0x20 .terminated 0).setPull .noPull :=
  if_pos (s.pending_iff.2 h)

theorem exec_stopCapture (s : State) :
    exec .stopCapture s = .next ((s.terminatePull.setRun .stopped).respond 0x11 .ok 0) := rfl

/-- Settles O18, by whether there is a pull to terminate before the answer. -/
theorem stopCaptureReleasesPool : Obligations.StopCaptureReleasesPool := by
  refine ⟨by decide, fun s => ⟨fun hidle => ?idle, fun hpull => ?pulling⟩⟩
  case idle =>
    rw [exec_stopCapture, s.terminatePull_of_noPull hidle]
    rfl
  case pulling => rw [exec_stopCapture, s.terminatePull_of_pull hpull, State.respond_then_respond]

theorem exec_cancelPull_of_wait (s : State) (slot : BitVec 8) (h : s.pull = .wait slot) :
    exec .cancelPull s = .next (((s.respond 0x20 .retry 0).setPull .noPull).respond 0x22 .ok 1) := by
  simp only [exec, execCancelPull, h, answer]

theorem exec_cancelPull_of_not_wait (s : State) (h : ∀ slot, s.pull ≠ .wait slot) :
    exec .cancelPull s = .next (s.respond 0x22 .ok 0) := by
  simp only [exec, execCancelPull]
  split
  case h_2 slot hp => exact absurd hp (h slot)
  all_goals rfl

/-- Settles O23: only a waiting pull is ended, and its answer comes before the command's. -/
theorem cancelPullEndsWait : Obligations.CancelPullEndsWait := by
  refine ⟨by decide, fun s => ⟨fun slot hp => ?waiting, exec_cancelPull_of_not_wait s⟩⟩
  rw [exec_cancelPull_of_wait s slot hp]
  exact congrArg Host.Outcome.next (s.respond_then_respond .noPull s.run 0x20 0x22 .retry .ok 0 1)

end Sys2Proof.Machine
end

