-- ==== Sys2Proof/Proofs/StatusReads.lean ====
section
/-!
PROOF. The commands that only read the state: POLL_READY with the line IRQ_READY (R229, R38, R263) and READ_REG (R232,
R39).
-/
namespace Sys2Proof.Machine

/-! ## POLL_READY -/

theorem State.irqReady_of_run (s : State) (pool : Pool) (h : s.run = .running pool) :
    s.irqReady = true ↔ pool.full ≠ [] ∨ s.streamError = true := by
  simp [State.irqReady, State.ready, s.running_of_run pool h, s.fullList_of_run pool h]

/-- POLL_READY answers the level of the line IRQ_READY. -/
theorem exec_pollReady (s : State) :
    exec .pollReady s = .next (s.respond 0x21 .ok (BitVec.ofNat 32 (bitAt s.irqReady 0))) := rfl

theorem exec_pollReady_of_high (s : State) (h : s.irqReady = true) :
    exec .pollReady s = .next (s.respond 0x21 .ok 1) := by
  rw [exec_pollReady, h]
  rfl

theorem exec_pollReady_of_low (s : State) (h : s.irqReady = false) :
    exec .pollReady s = .next (s.respond 0x21 .ok 0) := by
  rw [exec_pollReady, h]
  rfl

/-- Settles O22: the answer is the level of the line, which is high exactly while running with a Full buffer or the
stream error. -/
theorem pollReadyAnswersReady : Obligations.PollReadyAnswersReady := by
  refine ⟨by decide, fun s => ⟨fun pool hr hready => ?ready, fun pool hr hfull he => ?unready, fun hr => ?stopped⟩⟩
  case ready =>
    have hhigh := (s.irqReady_of_run pool hr).2 hready
    exact ⟨hhigh, exec_pollReady_of_high s hhigh⟩
  case unready =>
    have hlow : s.irqReady = false := by
      rw [Bool.eq_false_iff, ne_eq, s.irqReady_of_run pool hr]
      simp [hfull, he]
    exact ⟨hlow, exec_pollReady_of_low s hlow⟩
  case stopped =>
    have hlow := s.irqReady_of_stopped hr
    exact ⟨hlow, exec_pollReady_of_low s hlow⟩

/-! ## READ_REG -/

/-- R39 names ten registers. -/
theorem State.reg_of_illegal (s : State) (n : BitVec 8) (h : 10 ≤ n.toNat) : s.reg n = none := by
  unfold State.reg
  split
  case h_11 => rfl
  all_goals omega

theorem exec_readReg_of_some (s : State) (n : BitVec 8) (v : Word) (h : s.reg n = some v) :
    exec (.readReg n) s = .next (s.respond 0x30 .ok v) := by
  simp only [exec, execReadReg, h, answer]

theorem exec_readReg_of_none (s : State) (n : BitVec 8) (h : s.reg n = none) :
    exec (.readReg n) s = .next (s.respond 0x30 .illegal 0) := by
  simp only [exec, execReadReg, h, answer]

/-- Settles O24: each of the ten numbers is looked up in the map of R39, and a number above them finds nothing. -/
theorem readRegAnswersRegister : Obligations.ReadRegAnswersRegister := by
  refine ⟨fun _ => rfl, fun s => ⟨fun n v hmem => exec_readReg_of_some s n v ?register,
    fun n hn => exec_readReg_of_none s n (s.reg_of_illegal n hn)⟩⟩
  simp only [List.mem_cons, List.not_mem_nil, or_false, Prod.mk.injEq] at hmem
  rcases hmem with ⟨rfl, rfl⟩ | ⟨rfl, rfl⟩ | ⟨rfl, rfl⟩ | ⟨rfl, rfl⟩ | ⟨rfl, rfl⟩ | ⟨rfl, rfl⟩ | ⟨rfl, rfl⟩ |
    ⟨rfl, rfl⟩ | ⟨rfl, rfl⟩ | ⟨rfl, rfl⟩ <;> rfl

end Sys2Proof.Machine
end

