-- ==== Sys2Proof/Proofs/Encoding.lean ====
section
/-!
PROOF. Decoder and encoder are inverse to each other (R81 to R94, R97): for a command word field by field, for an ingest
record packet by packet. The payload words of a packet are determined by their bytes, since a word is by its four.
-/
namespace Sys2Proof

/-! ## Command words -/

theorem flagBit_flagOf (n : Nat) : flagBit (flagOf n) = n % 2 := by
  rcases Nat.mod_two_eq_zero_or_one n with h | h <;> simp [flagBit, flagOf, h]

/-- The fields of a word without an operand. -/
theorem bits_opWord_zero (op : Nat) (hop : op < 2 ^ 8) :
    bits (opWord op 0) 31 24 = op ∧ bits (opWord op 0) 23 0 = 0 := by
  simp only [opWord, bits_ofNat]
  omega

/-- The fields of a word whose operand is a byte (R86, R87). -/
theorem bits_opWord_byte (op : Nat) (n : BitVec 8) (hop : op < 2 ^ 8) :
    bits (opWord op n.toNat) 31 24 = op ∧ bits (opWord op n.toNat) 23 8 = 0 ∧
      bits (opWord op n.toNat) 7 0 = n.toNat := by
  have hn := n.isLt
  simp only [opWord, bits_ofNat]
  omega

/-- The fields of a CFG_MODE word (R84). -/
theorem bits_cfgModeWord (res : BitVec 4) (fmt : BitVec 3) (hflip vflip : Bool) :
    let w := opWord 0x01 (flagBit vflip * 2 ^ 8 + flagBit hflip * 2 ^ 7 + fmt.toNat * 2 ^ 4 + res.toNat)
    bits w 31 24 = 0x01 ∧ bits w 23 9 = 0 ∧ bits w 3 0 = res.toNat ∧ bits w 6 4 = fmt.toNat ∧
      bits w 7 7 = flagBit hflip ∧ bits w 8 8 = flagBit vflip := by
  have hh := flagBit_lt hflip
  have hv := flagBit_lt vflip
  have hf := fmt.isLt
  have hr := res.isLt
  simp only [opWord, bits_ofNat]
  omega

theorem bits_cfgBrightWord (bright : BitVec 16) :
    let w := opWord 0x02 bright.toNat
    bits w 31 24 = 0x02 ∧ bits w 23 16 = 0 ∧ bits w 15 0 = bright.toNat := by
  have hb := bright.isLt
  simp only [opWord, bits_ofNat]
  omega

theorem bits_cfgViewWord (viewX viewY : BitVec 12) :
    let w := opWord 0x03 (viewY.toNat * 2 ^ 12 + viewX.toNat)
    bits w 31 24 = 0x03 ∧ bits w 11 0 = viewX.toNat ∧ bits w 23 12 = viewY.toNat := by
  have hx := viewX.isLt
  have hy := viewY.isLt
  simp only [opWord, bits_ofNat]
  omega

/-- A command's one word is read as the command: its opcode selects the row, its reserved bits are 0 and each operand
fills its field (R82 to R88). -/
theorem decodeCommand_encode (i : Instr) (hi : i.space = .command) : ∃ w, encode i = [w] ∧ decodeCommand w = .ok i := by
  cases i with
  | cfgMode res fmt hflip vflip =>
    exact ⟨_, rfl, by simp [-Nat.reducePow, decodeCommand, whenZero, bits_cfgModeWord]⟩
  | cfgBright bright => exact ⟨_, rfl, by simp [decodeCommand, whenZero, bits_cfgBrightWord]⟩
  | cfgView viewX viewY => exact ⟨_, rfl, by simp [-Nat.reducePow, decodeCommand, bits_cfgViewWord]⟩
  | startCapture | stopCapture | pollReady | cancelPull | acquireRead | releaseRead =>
    exact ⟨_, rfl, by simp [decodeCommand, whenZero, bits_opWord_zero]⟩
  | pullFrame n | readReg n | convert n | brighten n =>
    exact ⟨_, rfl, by simp [decodeCommand, whenZero, bits_opWord_byte]⟩
  | xfer | publish => cases hi

/-- A word that spells a command is the command's word: the fields of the row cover the word (R81 to R88). -/
theorem encode_of_decodeCommand (w : Word) (i : Instr) (h : decodeCommand w = .ok i) : encode i = [w] := by
  have hw := w.isLt
  have hword : ∀ n, n < 2 ^ 32 → n = w.toNat → [BitVec.ofNat 32 n] = [w] := fun n _ hn => by
    rw [hn, BitVec.ofNat_toNat, BitVec.setWidth_eq]
  rcases decodeCommand_cases w i h with ⟨ho, hz, rfl⟩ | ⟨ho, hz, rfl⟩ | ⟨ho, rfl⟩ | ⟨ho, hz, rfl⟩ | ⟨ho, hz, rfl⟩ |
    ⟨ho, hz, rfl⟩ | ⟨ho, hz, rfl⟩ | ⟨ho, hz, rfl⟩ | ⟨ho, hz, rfl⟩ | ⟨ho, hz, rfl⟩ | ⟨ho, hz, rfl⟩ | ⟨ho, hz, rfl⟩ |
    ⟨ho, hz, rfl⟩ <;>
  · refine hword _ ?_ ?_ <;>
    · simp only [bits, flagBit_flagOf, BitVec.toNat_ofNat] at *
      omega

/-! ## Payload words -/

theorem wordBytes_length (w : Word) : (wordBytes w).length = 4 := rfl

/-- A word is determined by its four bytes (R92). -/
theorem wordBytes_injective : Function.Injective wordBytes := by
  intro w w' h
  have hw := w.isLt
  have hw' := w'.isLt
  simp only [wordBytes, List.cons.injEq, and_true, ← BitVec.toNat_inj, BitVec.toNat_ofNat, bits] at h
  apply BitVec.eq_of_toNat_eq
  omega

theorem flatMap_wordBytes_length (ws : List Word) : (ws.flatMap wordBytes).length = 4 * ws.length := by
  simp [List.length_flatMap, wordBytes_length, Nat.mul_comm]

/-- Payload words are determined by their bytes. -/
theorem flatMap_wordBytes_injective : Function.Injective fun ws : List Word => ws.flatMap wordBytes := by
  intro ws ws' h
  have hlen := congrArg List.length h
  simp only [flatMap_wordBytes_length] at hlen
  induction ws generalizing ws' with
  | nil => exact (List.length_eq_zero_iff.1 (by simpa using hlen.symm)).symm
  | cons w ws ih =>
    cases ws' with
    | nil => simp at hlen
    | cons w' ws' =>
      simp only [List.flatMap_cons] at h
      obtain ⟨hword, hrest⟩ := List.append_inj h rfl
      simp only [List.length_cons] at hlen
      rw [wordBytes_injective hword, ih hrest (by omega)]

/-- Words whose bytes past a payload are 0 are the packed payload (R91, R92). -/
theorem packWords_take (ws : List Word) (len : Nat) (hlen : ws.length = payloadWords len)
    (hpad : ((ws.flatMap wordBytes).drop len).all (fun v => v = 0) = true) :
    packWords ((ws.flatMap wordBytes).take len) = ws := by
  have htotal := flatMap_wordBytes_length ws
  have htake : ((ws.flatMap wordBytes).take len).length = len := by
    simp only [List.length_take, htotal, hlen, payloadWords]
    omega
  have hzeros : (ws.flatMap wordBytes).drop len = List.replicate (4 * payloadWords len - len) 0 := by
    refine List.eq_replicate_iff.2 ⟨by rw [List.length_drop, htotal, hlen], fun v hv => ?_⟩
    exact of_decide_eq_true (List.all_eq_true.1 hpad v hv)
  apply flatMap_wordBytes_injective
  calc (packWords ((ws.flatMap wordBytes).take len)).flatMap wordBytes
      = (ws.flatMap wordBytes).take len ++ (ws.flatMap wordBytes).drop len := by
        rw [flatMap_wordBytes_packWords, htake, hzeros]
    _ = ws.flatMap wordBytes := List.take_append_drop _ _

/-! ## Packets and records -/

theorem Packet.wf_iff (p : Packet) : p.wf = true ↔ p.payload.length < 2 ^ 24 :=
  decide_eq_true_iff

theorem packetsWf_iff (ps : List Packet) : packetsWf ps = true ↔ ps.length < 2 ^ 16 ∧ ∀ p ∈ ps, p.wf = true := by
  simp only [packetsWf, Bool.and_eq_true, decide_eq_true_eq, List.all_eq_true]

/-- The fields of a packet's descriptor (R91). -/
theorem bits_descriptor (err : Bool) (len : Nat) (hlen : len < 2 ^ 24) :
    let d : Word := BitVec.ofNat 32 (flagBit err * 2 ^ 31 + len)
    bits d 31 31 = flagBit err ∧ bits d 30 24 = 0 ∧ bits d 23 0 = len := by
  have he := flagBit_lt err
  simp only [bits_ofNat]
  omega

/-- One packet in front of others is read back: the descriptor gives its length, the payload words its bytes and zeros
(R91, R92). -/
theorem decodePackets_encodePacket (p : Packet) (hp : p.wf = true) (n : Nat) (ws : List Word) :
    decodePackets (n + 1) (encodePacket p ++ ws) =
      (decodePackets n ws).map fun r => (p :: r.1, r.2) := by
  obtain ⟨herr, hres, hlen⟩ := bits_descriptor p.err p.payload.length (p.wf_iff.1 hp)
  have hwords := packWords_length p.payload
  simp only [encodePacket, List.cons_append, decodePackets, herr, hres, hlen]
  rw [if_neg (not_not.2 rfl), if_neg (by rw [List.length_append]; omega), ← hwords, List.take_left, List.drop_left,
    flatMap_wordBytes_packWords, List.drop_left, List.take_left, if_pos (by simp), flagOf_flagBit]
  cases decodePackets n ws <;> rfl

theorem decodePackets_flatMap_encodePacket (ps : List Packet) (hps : ∀ p ∈ ps, p.wf = true) (ws : List Word) :
    decodePackets ps.length (ps.flatMap encodePacket ++ ws) = .ok (ps, ws) := by
  induction ps with
  | nil => rfl
  | cons p ps ih =>
    obtain ⟨hp, hps⟩ := List.forall_mem_cons.1 hps
    rw [List.flatMap_cons, List.append_assoc, List.length_cons, decodePackets_encodePacket p hp, ih hps]
    rfl

/-- The packets read are those whose encodings were the words taken (R91 to R94). -/
theorem encode_of_decodePackets (n : Nat) (ws rest : List Word) (ps : List Packet)
    (h : decodePackets n ws = .ok (ps, rest)) :
    ps.length = n ∧ (∀ p ∈ ps, p.wf = true) ∧ ws = ps.flatMap encodePacket ++ rest := by
  induction n generalizing ws ps with
  | zero =>
    cases h
    exact ⟨rfl, nofun, rfl⟩
  | succ n ih =>
    cases ws with
    | nil => cases h
    | cons d ws =>
      simp only [decodePackets] at h
      split_ifs at h with hres hshort hpad
      split at h
      case h_2 => cases h
      case h_1 qs after hqs =>
        cases h
        obtain ⟨hlen, hwf, hws⟩ := ih _ _ hqs
        have hd := d.isLt
        have hcount : (ws.take (payloadWords (bits d 23 0))).length = payloadWords (bits d 23 0) :=
          List.length_take_of_le (Nat.not_lt.1 hshort)
        have hpacked := packWords_take _ _ hcount hpad
        have hpayload : (((ws.take (payloadWords (bits d 23 0))).flatMap wordBytes).take (bits d 23 0)).length =
            bits d 23 0 := by
          rw [List.length_take_of_le]
          rw [flatMap_wordBytes_length, hcount, payloadWords]
          omega
        refine ⟨congrArg (· + 1) hlen, List.forall_mem_cons.2 ⟨?wf, hwf⟩, ?words⟩
        case wf =>
          rw [Packet.wf_iff, hpayload, bits]
          omega
        case words =>
          have hdescriptor : BitVec.ofNat 32 (flagBit (flagOf (bits d 31 31)) * 2 ^ 31 + bits d 23 0) = d := by
            apply BitVec.eq_of_toNat_eq
            simp only [BitVec.toNat_ofNat, flagBit_flagOf, bits] at hres ⊢
            omega
          rw [List.flatMap_cons, encodePacket, hpayload, hdescriptor, hpacked, List.append_assoc, ← hws,
            List.cons_append, List.take_append_drop]

/-- The fields of a record's header (R90). -/
theorem bits_header (n : Nat) (fail : Bool) (hn : n < 2 ^ 16) :
    let w := opWord 0x80 (n * 2 ^ 8 + flagBit fail)
    bits w 31 24 = 0x80 ∧ bits w 7 1 = 0 ∧ bits w 23 8 = n ∧ bits w 0 0 = flagBit fail := by
  have hf := flagBit_lt fail
  simp only [opWord, bits_ofNat]
  omega

theorem decodeRecord_encode (fail : Bool) (ps : List Packet) (hps : packetsWf ps = true) (ws : List Word) :
    decodeRecord (encode (.xfer fail ps) ++ ws) = .ok (.xfer fail ps, ws) := by
  obtain ⟨hcount, hwf⟩ := (packetsWf_iff ps).1 hps
  obtain ⟨hop, hres, hn, hfail⟩ := bits_header ps.length fail hcount
  simp only [encode, List.cons_append, decodeRecord, hop, hres, hn, hfail, flagOf_flagBit,
    decodePackets_flatMap_encodePacket ps hwf, ne_eq, not_true_eq_false, if_false]

theorem encode_of_decodeRecord (ws rest : List Word) (i : Instr) (h : decodeRecord ws = .ok (i, rest)) :
    i.wf = true ∧ i.space = .ingest ∧ ws = encode i ++ rest := by
  cases ws with
  | nil => cases h
  | cons w ws =>
    simp only [decodeRecord] at h
    split_ifs at h with hop hres
    split at h
    case h_2 => cases h
    case h_1 ps after hps =>
      cases h
      obtain ⟨hlen, hwf, hws⟩ := encode_of_decodePackets _ _ _ _ hps
      have hw := w.isLt
      have hheader : opWord 0x80 (ps.length * 2 ^ 8 + flagBit (flagOf (bits w 0 0))) = w := by
        apply BitVec.eq_of_toNat_eq
        simp only [opWord, BitVec.toNat_ofNat, flagBit_flagOf, hlen, bits] at hop hres ⊢
        omega
      refine ⟨(packetsWf_iff ps).2 ⟨?_, hwf⟩, rfl, ?_⟩
      · rw [hlen, bits]
        omega
      · rw [encode, hheader, List.cons_append, ← hws]

/-! ## The code spaces together -/

/-- Settles O1, by code space: a command is one word, a record is its header and its packets, PUBLISH is its code. -/
theorem decodeOfEncode : Obligations.DecodeOfEncode := by
  intro i ws hwf
  cases hi : i.space with
  | command =>
    obtain ⟨w, henc, hdec⟩ := decodeCommand_encode i hi
    simp only [henc, List.cons_append, List.nil_append, decodeIn, hdec]
  | ingest =>
    cases i with
    | xfer fail ps => simp only [decodeIn, decodeRecord_encode fail ps hwf ws]
    | _ => cases hi
  | internal =>
    cases i with
    | publish => rfl
    | _ => cases hi

/-- Settles O2: a word or a record is put together again from the fields the decoder read. -/
theorem encodeOfDecoded : Obligations.EncodeOfDecoded :=
  ⟨fun w i h => ⟨(decodeCommand_opcode w i h).2, encode_of_decodeCommand w i h⟩, encode_of_decodeRecord⟩

/-- Settles O4: each word is decoded as it stands. -/
theorem specExampleWords : Obligations.SpecExampleWords := by
  unfold Obligations.SpecExampleWords
  decide

end Sys2Proof
end

