-- ==== Sys2Proof/Proofs/StepChoice.lean ====
section
/-!
PROOF. Which move a step makes (R14, R227; logs 3, 4), what it then runs (R113, R215), and everything its next state can
be: the laws of the commands, of XFER and of the pull under one inversion of `step`.
-/
namespace Sys2Proof.Machine

/-! ## The scheduled move -/

/-- An enabled move at the head of the schedule is the step, with its entry used. -/
theorem step_of_schedule (s : State) (m : Move) (sched : List Move) (hs : s.schedule = m :: sched)
    (hm : s.enabled m = true) : step s = runMove m (s.setSchedule sched) := by
  have hmem := (mem_enabledMoves s m).2 hm
  unfold step blockStep State.chooseMove
  cases he : s.enabledMoves with
  | nil => rw [he] at hmem; cases hmem
  | cons a ms => simp [hs, firstEnabled, hm]

/-- Settles O9: the head of the schedule is taken when it is enabled, and a chosen move is always enabled. -/
theorem everyInterleavingIsLegal : Obligations.EveryInterleavingIsLegal := by
  refine ⟨fun s m sched hm => step_of_schedule { s with schedule := m :: sched } m sched rfl hm, fun s => ?_⟩
  rcases step_eq s with ⟨hc, hs⟩ | ⟨m, s', hc, hs⟩
  · exact .inl ⟨s.chooseMove_none.1 hc, hs⟩
  · obtain ⟨hm, sched, n, rfl⟩ := s.chooseMove_some s' m hc
    exact .inr ⟨m, sched, n, hm, hs⟩

theorem State.enabled_command_of_cons (s : State) (w : Word) (ws : List Word) (h : s.cmdPort = w :: ws) :
    s.enabled .command = true := by
  simp [State.enabled, h]

theorem State.enabled_produce_of_rest (s : State) (h : s.xferRest ≠ []) : s.enabled .produce = true := by
  simp [State.enabled, h]

theorem State.enabled_produce_of_port (s : State) (h : s.ingestPort ≠ []) : s.enabled .produce = true := by
  simp [State.enabled, h]

theorem producerStep_of_rest (s : State) (p : Packet) (ps : List Packet) (h : s.xferRest = p :: ps) :
    producerStep s = exec (.xfer false (p :: ps)) s := by
  simp only [producerStep, h]

theorem producerStep_of_record (s : State) (i : Instr) (after : List Word) (hx : s.xferRest = [])
    (hd : decodeRecord s.ingestPort = .ok (i, after)) : producerStep s = exec i (s.setIngestPort after) := by
  cases hp : s.ingestPort with
  | nil => rw [hp] at hd; cases hd
  | cons w ws =>
    rw [hp] at hd
    simp only [producerStep, hx, hp, hd]

theorem producerStep_of_malformed (s : State) (e : RecordError) (hx : s.xferRest = []) (hp : s.ingestPort ≠ [])
    (hd : decodeRecord s.ingestPort = .error e) : producerStep s = .refused (.malformedRecord e) := by
  obtain ⟨w, ws, hp⟩ := List.exists_cons_of_ne_nil hp
  rw [hp] at hd
  simp only [producerStep, hx, hp, hd]

theorem ingestPort_ne_nil_of_record (ws : List Word) (r : Instr × List Word) (h : decodeRecord ws = .ok r) :
    ws ≠ [] := by
  rintro rfl
  cases h

/-- Settles O5: the scheduled move takes the word, and the word runs its command. -/
theorem stepRunsCommand : Obligations.StepRunsCommand := by
  intro s w ws sched i hc hs hd
  rw [step_of_schedule s _ _ hs (s.enabled_command_of_cons w ws hc)]
  exact takeCommand_of_ok (s.setSchedule sched) w ws i hc hd

/-- Settles O6, by whether a record is in progress. -/
theorem stepRunsRecord : Obligations.StepRunsRecord := by
  refine fun s sched hs => ⟨fun i rest hx hd => ?first, fun p ps hx => ?later⟩
  case first =>
    rw [step_of_schedule s _ _ hs (s.enabled_produce_of_port (ingestPort_ne_nil_of_record _ _ hd))]
    exact producerStep_of_record (s.setSchedule sched) i rest hx hd
  case later =>
    rw [step_of_schedule s _ _ hs (s.enabled_produce_of_rest (hx ▸ List.cons_ne_nil p ps))]
    exact producerStep_of_rest (s.setSchedule sched) p ps hx

/-! ## Placed words (log 14) -/

theorem decodeIn_command_cons (w : Word) (ws rest : List Word) (i : Instr)
    (h : decodeIn .command (w :: ws) = some (i, rest)) : decodeCommand w = .ok i ∧ rest = ws := by
  simp only [decodeIn] at h
  split at h <;> cases h
  exact ⟨‹_›, rfl⟩

theorem decodeIn_ingest (ws rest : List Word) (i : Instr) (h : decodeIn .ingest ws = some (i, rest)) :
    decodeRecord ws = .ok (i, rest) := by
  simp only [decodeIn] at h
  split at h <;> cases h
  assumption

/-- What a code space's decoder reads belongs to the code space. -/
theorem decodeIn_space (sp : CodeSpace) (w : Word) (ws rest : List Word) (i : Instr)
    (h : decodeIn sp (w :: ws) = some (i, rest)) : i.space = sp := by
  cases sp with
  | command => exact (decodeCommand_opcode w i (decodeIn_command_cons w ws rest i h).1).2
  | ingest => exact (encode_of_decodeRecord _ _ _ (decodeIn_ingest _ _ _ h)).2.1
  | internal =>
    simp only [decodeIn, decodeInternal] at h
    split at h <;> cases h
    rfl

theorem decodeTableWord_some (nbits w : Nat) (i : Instr) (h : decodeTableWord nbits w = some i) :
    decodeIn (spaceOfWord (BitVec.ofNat 32 w)) (tableWords w) = some (i, []) := by
  unfold decodeTableWord at h
  split at h
  case isFalse => cases h
  case isTrue =>
    split at h
    case h_1 j hj => cases h; exact hj
    case h_2 => cases h

/-- A record that fills its words is still read when more words follow (R93). -/
theorem decodeRecord_append (ws more : List Word) (i : Instr) (h : decodeRecord ws = .ok (i, [])) :
    decodeRecord (ws ++ more) = .ok (i, more) := by
  obtain ⟨hwf, -, hws⟩ := encode_of_decodeRecord _ _ _ h
  obtain ⟨xferFail, ps, rfl⟩ := decodeRecord_xfer _ _ _ h
  rw [hws, List.append_nil, decodeRecord_encode xferFail ps hwf]

/-- Settles O7: the placed words stand at the head of their port and the schedule names their agent. -/
theorem stepRunsPlacedWord : Obligations.StepRunsPlacedWord := by
  intro s w i h
  have hdec := decodeTableWord_some 32 w i h
  have hspace : i.space = spaceOfWord (BitVec.ofNat 32 w) := decodeIn_space _ _ _ _ _ hdec
  rw [← hspace] at hdec
  refine ⟨fun hi => ?command, fun hi => ?ingest⟩ <;> rw [hi] at hdec hspace
  case command =>
    obtain ⟨hd, htail⟩ := decodeIn_command_cons _ _ _ _ hdec
    have hc : (s.placeWord w).cmdPort = BitVec.ofNat 32 w :: s.cmdPort := by
      simp only [State.placeWord, ← hspace, State.setSchedule_cmdPort, State.setCmdPort_cmdPort, tableWords, ← htail]
      rfl
    have hs : (s.placeWord w).schedule = .command :: s.schedule := by
      simp only [State.placeWord, ← hspace, State.setSchedule_schedule]
    refine (stepRunsCommand (s.placeWord w) _ _ _ i hc hs hd).trans ?_
    simp only [State.placeWord, ← hspace]
    rfl
  case ingest =>
    have hd := decodeRecord_append _ s.ingestPort _ (decodeIn_ingest _ _ _ hdec)
    have hplace : s.placeWord w =
        ((s.setIngestPort (tableWords w ++ s.ingestPort)).setRest []).setSchedule (.produce :: s.schedule) := by
      simp only [State.placeWord, ← hspace]
    rw [State.withFetchWord, hplace]
    exact (stepRunsRecord _ s.schedule rfl).1 i s.ingestPort rfl hd

/-! ## Everything a step's next state can be -/

theorem boundary_streamError (pool : Pool) (s : State) : (boundary pool s).streamError = s.streamError := by
  rcases boundary_cases pool s with ⟨_, e⟩ | ⟨q, _, _, _, e | e⟩ | ⟨q, _, e⟩ <;> rw [e] <;> rfl

theorem appendData_streamError (pool : Pool) (bytes : List Byte) (s t : State) (h : appendData pool bytes s = .next t) :
    t.streamError = s.streamError := by
  unfold appendData at h
  dsimp only at h
  split at h
  · cases h; rfl
  · split at h
    · next s' hs' =>
      obtain ⟨-, -, rfl⟩ := State.rawStore_ok _ _ _ _ _ hs'
      cases h
      rfl
    · cases h

/-- Packets alone never set the stream error (R112 to R127). -/
theorem exec_xfer_streamError (packets : List Packet) (s t : State) (h : exec (.xfer false packets) s = .next t) :
    t.streamError = s.streamError := by
  cases hr : s.run with
  | stopped => rw [exec_xfer_of_stopped s _ _ hr] at h; cases h; rfl
  | running pool =>
    cases packets with
    | nil => rw [exec_xfer_nil s pool hr] at h; cases h; rfl
    | cons p rest =>
      rw [exec_xfer_cons s pool p rest hr] at h
      rcases packetStep_cases p pool (s.setRest rest) with ⟨_, e⟩ | ⟨_, _, e⟩ | ⟨first, more, _, _, _, e⟩ |
        ⟨first, more, _, _, _, e⟩ | ⟨first, more, _, _, _, e⟩ <;> rw [e] at h
      · cases h; rfl
      · cases h; rfl
      · exact appendData_streamError _ _ ((s.setRest rest).setPool _) t h
      · cases h; exact boundary_streamError _ _
      · cases h; rfl

/-- The next states of an enabled move. -/
inductive MoveNext (s : State) : Move → State → Prop where
  /-- A command word. -/
  | commanded (w : Word) (ws : List Word) (i : Instr) (t : State) (hc : s.cmdPort = w :: ws)
    (hd : decodeCommand w = .ok i) (ht : CommandNext (s.setCmdPort ws) i t) : MoveNext s .command t
  /-- A word that spells no command. -/
  | illegal (w : Word) (ws : List Word) (hc : s.cmdPort = w :: ws) :
    MoveNext s .command ((s.setCmdPort ws).respond (BitVec.ofNat 8 (bits w 31 24)) .illegal 0)
  /-- A record, or the rest of one, while stopped. -/
  | discarded (port : List Word) (hr : s.run = .stopped) : MoveNext s .produce ((s.setIngestPort port).setRest [])
  /-- A packet, or a whole transfer, while running; only a failed transfer touches the stream error. -/
  | received (port : List Word) (pool : Pool) (t : State) (hr : s.run = .running pool)
    (ht : PacketNext (s.setIngestPort port) pool t)
    (he : (∃ packets after, decodeRecord s.ingestPort = .ok (.xfer true packets, after)) ∨
      t.streamError = s.streamError) : MoveNext s .produce t
  /-- A waiting pull that reports FATAL or STREAM_ERROR. -/
  | reported (slot : BitVec 8) (status : Status) (hp : s.pull = .wait slot) :
    MoveNext s .pull ((s.respond 0x20 status 0).setPull .noPull)
  /-- A waiting pull that acquires a frame. -/
  | acquired (slot : BitVec 8) (pool : Pool) (hp : s.pull = .wait slot) (hr : s.run = .running pool)
    (hfull : pool.full ≠ []) : MoveNext s .pull ((s.setPool pool.tryAcquire.1).setPull (.convert slot))
  /-- A converting pull. -/
  | converted (slot : BitVec 8) (pool : Pool) (b : Nat) (bytes : List Byte) (hp : s.pull = .convert slot)
    (hr : s.run = .running pool) (hrd : pool.read = some b) (hv : s.viewBytes b = .ok bytes)
    (hfit : s.slotBase slot + bytes.length ≤ s.outSize) :
    MoveNext s .pull ((((s.setOut (Mem.mapBytes (Mem.writeList s.out (s.slotBase slot) bytes) fun a v =>
      if s.affectedAddr slot a then brightByte s.bright v else v)).setPool (pool.release b)).setPull
        .noPull).respond 0x20 .ok (countValue s.outBytes))

theorem takeCommand_next (s t : State) (hm : s.enabled .command = true) (h : takeCommand s = .next t) :
    MoveNext s .command t := by
  rcases takeCommand_cases s with ⟨hc, _⟩ | ⟨w, ws, i, hc, hd, e⟩ | ⟨w, ws, _, hc, _, e⟩
  · simp [State.enabled, hc] at hm
  · exact .commanded w ws i t hc hd (exec_command_next i _ t (decodeCommand_opcode w i hd).2 (e ▸ h))
  · cases e ▸ h
    exact .illegal w ws hc

/-- An XFER step with the words `port` left on the port. -/
theorem exec_xfer_moveNext (xferFail : Bool) (packets : List Packet) (port : List Word) (s t : State)
    (hfail : xferFail = true → ∃ after, decodeRecord s.ingestPort = .ok (.xfer true packets, after))
    (h : exec (.xfer xferFail packets) (s.setIngestPort port) = .next t) : MoveNext s .produce t := by
  rcases exec_xfer_next _ _ _ _ h with ⟨hr, rfl⟩ | ⟨pool, hr, hn⟩
  · exact .discarded port hr
  · refine .received port pool t hr hn ?_
    cases xferFail with
    | true => exact .inl ⟨packets, hfail rfl⟩
    | false => exact .inr (exec_xfer_streamError packets (s.setIngestPort port) t h)

theorem producerStep_next (s t : State) (hm : s.enabled .produce = true) (h : producerStep s = .next t) :
    MoveNext s .produce t := by
  rcases producerStep_cases s with ⟨p, rest, _, e⟩ | ⟨hx, hp, _⟩ | ⟨xferFail, packets, after, _, hd, e⟩ | ⟨_, _, _, e⟩
  · exact exec_xfer_moveNext false _ s.ingestPort s t nofun (e ▸ h)
  · simp [State.enabled, hx, hp] at hm
  · exact exec_xfer_moveNext xferFail packets after s t (fun hf => ⟨after, hf ▸ hd⟩) (e ▸ h)
  · cases e ▸ h

theorem pullStep_next (s t : State) (hm : s.enabled .pull = true) (h : pullStep s = .next t) :
    MoveNext s .pull t := by
  cases hp : s.pull with
  | noPull => simp [State.enabled, State.pullEnabled, hp] at hm
  | wait slot =>
    rw [pullStep_of_wait s slot hp] at h
    rcases waitStep_next slot s t h with ⟨_, rfl⟩ | ⟨_, _, rfl⟩ | ⟨hf, he, pool, hr, rfl⟩
    · exact .reported slot .fatal hp
    · exact .reported slot .streamError hp
    · have hfull := (s.enabled_pull_of_wait slot pool hp hr).1 hm
      exact .acquired slot pool hp hr (by simpa [hf, he] using hfull)
  | convert slot =>
    simp only [pullStep, hp] at h
    obtain ⟨pool, b, bytes, hr, hrd, hv, hfit, _, rfl⟩ := convertStep_next slot s t h
    exact .converted slot pool b bytes hp hr hrd hv hfit

/-- Everything an enabled move's next state can be. -/
theorem runMove_next (m : Move) (s t : State) (hm : s.enabled m = true) (h : runMove m s = .next t) :
    MoveNext s m t := by
  cases m with
  | command => exact takeCommand_next s t hm h
  | produce => exact producerStep_next s t hm h
  | pull => exact pullStep_next s t hm h

/-- A step that gives a next state leaves the state as it is, or is an enabled move's with the model's own fields
written (logs 3, 4). -/
theorem step_next (s t : State) (h : step s = .next t) :
    t = s ∨ ∃ m sched n, MoveNext { s with schedule := sched, tick := n } m t := by
  rcases step_eq s with ⟨_, e⟩ | ⟨m, s', hc, e⟩ <;> rw [e] at h
  · exact .inl (Host.Outcome.next.inj h).symm
  · obtain ⟨hm, sched, n, rfl⟩ := s.chooseMove_some s' m hc
    exact .inr ⟨m, sched, n, runMove_next m _ t hm h⟩

end Sys2Proof.Machine
end

