-- ==== Sys2Proof/Proofs/FrameReads.lean ====
section
/-!
PROOF. Which raw bytes a conversion reads: the taps of an interior pixel stay inside the frame (R171), so a frame whose
bytes all hold a value converts; a flat frame converts flat (R182), a small image reads nothing (R184), and equal bytes
convert equally (R162).
-/
namespace Sys2Proof.Machine

/-! ## The tap centre (R166, R171) -/

/-- One coordinate of a tap centre, in a native side of `w` samples for an image side of `n`: at least one sample lies
on either side of it. -/
theorem tapCoordinate_bounds (flip : Bool) (n f w c : Nat) (hf : 1 ≤ f) (hn : n * f ≤ w) (hc : 1 ≤ c)
    (hc' : c + 2 ≤ n) :
    1 ≤ (if flip then (w - 2) - (c - 1) * f else 1 + (c - 1) * f) ∧
      (if flip then (w - 2) - (c - 1) * f else 1 + (c - 1) * f) + 2 ≤ w := by
  have hspan : (c - 1 + 3) * f ≤ n * f := Nat.mul_le_mul_right f (by omega)
  rw [Nat.add_mul] at hspan
  split <;> omega

theorem State.tapCentre_bounds (s : State) (c r : Nat) (hc : 1 ≤ c) (hc' : c + 2 ≤ s.nwidth) (hr : 1 ≤ r)
    (hr' : r + 2 ≤ s.nheight) :
    (1 ≤ (s.tapCentre c r).1 ∧ (s.tapCentre c r).1 + 2 ≤ s.width) ∧
      1 ≤ (s.tapCentre c r).2 ∧ (s.tapCentre c r).2 + 2 ≤ s.height := by
  obtain ⟨-, -, -, -, -, -, -, -, hfactor, -⟩ := s.params_spec
  exact ⟨tapCoordinate_bounds _ _ _ _ _ hfactor s.nwidth_mul_factor_le hc hc',
    tapCoordinate_bounds _ _ _ _ _ hfactor s.nheight_mul_factor_le hr hr'⟩

/-- A site of a frame has an address in the frame (R169). -/
theorem site_lt_frame (w h x y : Nat) (hx : x < w) (hy : y < h) : y * w + x < w * h := by
  have hrow : (y + 1) * w ≤ h * w := Nat.mul_le_mul_right w hy
  rw [Nat.add_mul, Nat.mul_comm h w] at hrow
  omega

/-- Settles O37: a tap is at most one sample away from a centre that has one sample on every side. -/
theorem tapsStayInsideFrame : Obligations.TapsStayInsideFrame := by
  intro s c r dx dy hc hc' hr hr' hdx hdy
  obtain ⟨⟨hx, hx'⟩, hy, hy'⟩ := s.tapCentre_bounds c r hc hc' hr hr'
  obtain ⟨-, -, -, -, -, -, -, -, -, hcap⟩ := s.params_spec
  exact ⟨hx, hy, site_lt_frame _ _ _ _ (by omega) (by omega), hcap⟩

/-! ## A frame whose bytes all hold a value -/

/-- A view pixel is padding, border or interior (R164 to R166). -/
theorem State.pixel_cases (s : State) (x y : Nat) :
    (x < s.ox ∨ s.ox + s.nwidth ≤ x ∨ y < s.oy ∨ s.oy + s.nheight ≤ y) ∨
    ((s.ox ≤ x ∧ x < s.ox + s.nwidth ∧ s.oy ≤ y ∧ y < s.oy + s.nheight) ∧
      (x = s.ox ∨ x + 1 = s.ox + s.nwidth ∨ y = s.oy ∨ y + 1 = s.oy + s.nheight)) ∨
    (s.ox + 1 ≤ x ∧ x + 2 ≤ s.ox + s.nwidth ∧ s.oy + 1 ≤ y ∧ y + 2 ≤ s.oy + s.nheight) := by
  omega

/-- The channels of an interior pixel are taps of bytes of the frame (R170, R171). -/
theorem State.interiorRgb_of_frame (s : State) (b c r : Nat) (v : Nat → Byte)
    (hv : ∀ a, a < s.width * s.height → s.rawRead b a = .ok (v a)) (hc : 1 ≤ c) (hc' : c + 2 ≤ s.nwidth) (hr : 1 ≤ r)
    (hr' : r + 2 ≤ s.nheight) :
    s.interiorRgb b c r = .ok (tapRgb
      (fun dx dy => v (((s.tapCentre c r).2 + dy - 1) * s.width + ((s.tapCentre c r).1 + dx - 1)))
      (tapsAt s.params.val.bayerTaps (s.tapCentre c r).1 (s.tapCentre c r).2)) :=
  s.interiorRgb_of_samples b _ _ _
    (fun dx dy hdx hdy => hv _ (tapsStayInsideFrame s c r dx dy hc hc' hr hr' hdx hdy).2.2.1) c r rfl

theorem State.viewPixel_of_frame (s : State) (b x y : Nat) (v : Nat → Byte)
    (hv : ∀ a, a < s.width * s.height → s.rawRead b a = .ok (v a)) : ∃ px, s.viewPixel b x y = .ok px := by
  rcases s.pixel_cases x y with h | ⟨⟨hx, hx', hy, hy'⟩, h⟩ | ⟨hx, hx', hy, hy'⟩
  · exact ⟨_, s.viewPixel_of_padding b x y h⟩
  · exact ⟨_, s.viewPixel_of_border b x y hx hx' hy hy' h⟩
  · exact ⟨_, s.viewPixel_of_interior b x y _ hx hx' hy hy'
      (s.interiorRgb_of_frame b _ _ v hv (by omega) (by omega) (by omega) (by omega))⟩

/-- A frame whose bytes all hold a value converts (R171). -/
theorem State.viewBytes_of_frame (s : State) (b : Nat) (v : Nat → Byte)
    (hv : ∀ a, a < s.width * s.height → s.rawRead b a = .ok (v a)) : ∃ bytes, s.viewBytes b = .ok bytes :=
  s.viewBytes_of_pixels b fun x y _ _ => s.viewPixel_of_frame b x y v hv

/-! ## Flat fields (R182) -/

/-- Truncating averages of one value are the value. -/
theorem tapValue_const (k : Byte) (kind : TapKind) : tapValue (fun _ _ => k) kind = k := by
  apply BitVec.eq_of_toNat_eq
  rw [tapValue_toNat]
  cases kind <;> dsimp only <;> omega

theorem tapRgb_const (k : Byte) (taps : PhaseTaps) : tapRgb (fun _ _ => k) taps = { r := k, g := k, b := k } := by
  simp only [tapRgb, tapValue_const]

/-- Settles O40: every tap of a flat frame is the frame's value, whatever its kind and centre. -/
theorem flatFieldStaysFlat : Obligations.FlatFieldStaysFlat := by
  intro s b x y k hb hflat hx hx' hy hy'
  have hread : ∀ a, a < s.width * s.height → s.rawRead b a = .ok k := fun a ha => by
    obtain ⟨-, -, -, -, -, -, -, -, -, hcap⟩ := s.params_spec
    exact s.rawRead_of_value b a k hb (by omega) (hflat a ha)
  have hrgb := s.interiorRgb_of_frame b (x - s.ox) (y - s.oy) (fun _ => k) hread (by omega) (by omega) (by omega)
    (by omega)
  rw [tapRgb_const] at hrgb
  have hpx := s.viewPixel_of_interior b x y _ hx hx' hy hy' hrgb
  refine ⟨hpx, fun hfmt => hpx.trans ?_⟩
  simp only [State.pixelOf, hfmt]

/-! ## Small images (R184) -/

/-- An image of at most two rows or columns has no interior. -/
theorem State.smallImage_border (s : State) (x y : Nat) (hsmall : s.nwidth ≤ 2 ∨ s.nheight ≤ 2) (hx : s.ox ≤ x)
    (hx' : x < s.ox + s.nwidth) (hy : s.oy ≤ y) (hy' : y < s.oy + s.nheight) :
    x = s.ox ∨ x + 1 = s.ox + s.nwidth ∨ y = s.oy ∨ y + 1 = s.oy + s.nheight := by
  omega

/-- Settles O42: without interior pixels a view is padding and background, and neither reads raw memory. -/
theorem smallImagesReadNothing : Obligations.SmallImagesReadNothing := by
  intro s raw b b' x y hsmall
  have hborder := fun t c hx hx' hy hy' => State.viewPixel_of_border t c x y hx hx' hy hy'
  refine ⟨?same, fun hx hx' hy hy' => hborder s b hx hx' hy hy' (s.smallImage_border x y hsmall hx hx' hy hy')⟩
  rcases s.pixel_cases x y with h | ⟨⟨hx, hx', hy, hy'⟩, h⟩ | ⟨hx, hx', hy, hy'⟩
  · rw [s.viewPixel_of_padding b x y h]
    exact State.viewPixel_of_padding { s with raw := raw } b' x y h
  · rw [hborder s b hx hx' hy hy' h]
    exact hborder { s with raw := raw } b' hx hx' hy hy' h
  · omega

/-! ## Purity (R162) -/

/-- A computation that succeeds does so in the other too, with the same result. -/
def Matches {α : Type} (x y : Except Fault α) : Prop :=
  ∀ a, x = .ok a → y = .ok a

theorem Matches.refl {α : Type} (x : Except Fault α) : Matches x x :=
  fun _ h => h

theorem Matches.bind {α β : Type} {x y : Except Fault α} {f g : α → Except Fault β} (hxy : Matches x y)
    (hfg : ∀ a, Matches (f a) (g a)) : Matches (x >>= f) (y >>= g) := by
  intro c hc
  cases x with
  | error e => cases hc
  | ok a =>
    rw [hxy a rfl]
    exact hfg a c hc

theorem Matches.ite {α : Type} {p : Prop} [Decidable p] {x y x' y' : Except Fault α} (h : Matches x y)
    (h' : Matches x' y') : Matches (if p then x else x') (if p then y else y') := by
  by_cases hp : p <;> simpa only [hp, if_true, if_false]

theorem Matches.joinBytes {l l' : List (Except Fault (List Byte))} (h : List.Forall₂ Matches l l') :
    Matches (joinBytes l) (Machine.joinBytes l') := by
  induction h with
  | nil => exact Matches.refl _
  | @cons x y l l' hxy _ ih =>
    intro bytes hbytes
    obtain ⟨a, more, rfl, hmore, rfl⟩ := joinBytes_cons_ok x l bytes hbytes
    rw [hxy a rfl, Machine.joinBytes, ih more hmore]

section
variable (s t : State) (b c : Nat) (hp : t.params = s.params) (hm : t.mode = s.mode)
  (hread : ∀ a, Matches (s.rawRead b a) (t.rawRead c a))
include hp hm hread

theorem State.tap_matches (x y : Nat) (kind : TapKind) : Matches (s.tap b x y kind) (t.tap c x y kind) := by
  have hwidth : t.width = s.width := by simp only [State.width, State.resEntry, hp, hm]
  have hsample : ∀ x y, Matches (s.sample b x y) (t.sample c x y) := fun x y => by
    unfold State.sample
    rw [hwidth]
    exact hread _
  cases kind with
  | own => exact hsample _ _
  | h2 | v2 =>
    exact (hsample _ _).bind fun _ => (hsample _ _).bind fun _ => Matches.refl _
  | x4 | c4 =>
    exact (hsample _ _).bind fun _ => (hsample _ _).bind fun _ => (hsample _ _).bind fun _ => (hsample _ _).bind fun _ =>
      Matches.refl _

theorem State.interiorRgb_matches (i j : Nat) : Matches (s.interiorRgb b i j) (t.interiorRgb c i j) := by
  have hcentre : t.tapCentre i j = s.tapCentre i j := by
    simp only [State.tapCentre, State.width, State.height, State.factor, State.resEntry, hp, hm]
  have htap := s.tap_matches t b c hp hm hread
  simp only [State.interiorRgb, hcentre, hp]
  exact (htap _ _ _).bind fun _ => (htap _ _ _).bind fun _ => (htap _ _ _).bind fun _ => Matches.refl _

end

section
variable (s t : State) (hp : t.params = s.params) (hm : t.mode = s.mode)
include hp hm

theorem State.pixelOf_congr (p : Rgb) (x : Nat) : t.pixelOf p x = s.pixelOf p x := by
  simp only [State.pixelOf, State.chromaAt, State.ySum, State.uSum, State.vSum, State.tabSum, State.tab, hp, hm]

variable (hx : t.viewX = s.viewX) (hy : t.viewY = s.viewY)
include hx hy

/-- The geometry depends on the parameters, MODE and VIEW (R26, R163). -/
theorem State.geometry_congr :
    t.nwidth = s.nwidth ∧ t.nheight = s.nheight ∧ t.vx = s.vx ∧ t.vy = s.vy ∧ t.ox = s.ox ∧ t.oy = s.oy ∧
      t.bpp = s.bpp := by
  simp only [State.ox, State.oy, State.vx, State.vy, State.nwidth, State.nheight, State.width, State.height,
    State.factor, State.resEntry, State.bpp, hp, hm, hx, hy, and_self]

variable (b c : Nat) (hread : ∀ a, Matches (s.rawRead b a) (t.rawRead c a))
include hread

theorem State.viewPixel_matches (x y : Nat) : Matches (s.viewPixel b x y) (t.viewPixel c x y) := by
  obtain ⟨hnw, hnh, -, -, hox, hoy, hbpp⟩ := s.geometry_congr t hp hm hx hy
  simp only [State.viewPixel, State.inImage, State.onBorder, hnw, hnh, hox, hoy, hbpp, hm, s.pixelOf_congr t hp hm]
  refine Matches.ite (Matches.ite (Matches.refl _) fun px hpx => ?interior) (Matches.refl _)
  split at hpx
  case h_1 p hrgb => rw [s.interiorRgb_matches t b c hp hm hread _ _ p hrgb, ← hpx]
  case h_2 => cases hpx

theorem State.viewBytes_matches : Matches (s.viewBytes b) (t.viewBytes c) := by
  obtain ⟨-, -, hvx, hvy, -, -, -⟩ := s.geometry_congr t hp hm hx hy
  rw [State.viewBytes, State.viewBytes, hvx, hvy]
  apply Matches.joinBytes
  rw [List.forall₂_map_left_iff, List.forall₂_map_right_iff, List.forall₂_same]
  exact fun n _ => s.viewPixel_matches t hp hm hx hy b c hread _ _

end

/-- Settles O43: the other buffer's reads match byte by byte, and everything else the conversion looks at is equal. -/
theorem conversionIsPure : Obligations.ConversionIsPure := by
  intro s t b c bytes hp hm hx hy _ hc hbytes hview
  refine s.viewBytes_matches t hp hm hx hy b c (fun a v hv => ?_) bytes hview
  obtain ⟨-, ha, hval⟩ := s.rawRead_ok b a v hv
  have hsize : t.poolSize = s.poolSize := congrArg (·.val.poolSize) hp
  have hcap : t.cap = s.cap := congrArg (·.val.cap) hp
  exact t.rawRead_of_value c a v (hsize ▸ hc) (hcap ▸ ha) ((hbytes a ha).trans hval)

end Sys2Proof.Machine
end

