-- ==== Sys2Proof/Proofs/SlotWrites.lean ====
section
/-!
PROOF. What CONVERT (R160), BRIGHTEN (R200, R201) and the CONVERT step of a pull (R226) leave in output memory. Under
the invariant the Read buffer holds a complete frame and the slot holds the view, so neither a conversion nor a correction
faults.
-/
namespace Sys2Proof.Machine

/-! ## The correction, byte by byte (R200 to R205) -/

/-- What CORRECT(slot) makes of a byte that holds a value. -/
def State.correctByte (s : State) (slot : BitVec 8) (a : Nat) (v : Byte) : Byte :=
  if s.affectedAddr slot a then brightByte s.bright v else v

theorem State.correct_eq (s : State) (slot : BitVec 8) (h : s.slotBase slot + s.outBytes ≤ s.outSize) :
    s.correct slot = .ok (s.setOut (Mem.mapBytes s.out (s.correctByte slot))) :=
  s.correct_of_fits slot h

theorem State.correctByte_inside (s : State) (slot : BitVec 8) (k : Nat) (v : Byte) (h : k < s.outBytes) :
    s.correctByte slot (s.slotBase slot + k) v = if s.mode.fmt.affected k then brightByte s.bright v else v := by
  simp [State.correctByte, State.affectedAddr, h]

theorem State.correctByte_outside (s : State) (slot : BitVec 8) (a : Nat)
    (h : a < s.slotBase slot ∨ s.slotBase slot + s.outBytes ≤ a) : s.correctByte slot a = id := by
  have hno : s.affectedAddr slot a = false := by
    simp only [State.affectedAddr, Bool.and_eq_false_iff, decide_eq_false_iff_not]
    omega
  funext v
  simp [State.correctByte, hno]

/-- A correction leaves the bytes outside the slot's view region alone. -/
theorem State.read_correct_outside (s : State) (slot : BitVec 8) (m : Mem) (a : Nat)
    (h : a < s.slotBase slot ∨ s.slotBase slot + s.outBytes ≤ a) :
    Mem.read (Mem.mapBytes m (s.correctByte slot)) a = Mem.read m a := by
  rw [Mem.read_mapBytes, s.correctByte_outside slot a h, Option.map_id, id]

theorem State.read_correct_inside (s : State) (slot : BitVec 8) (m : Mem) (k : Nat) (h : k < s.outBytes) :
    Mem.read (Mem.mapBytes m (s.correctByte slot)) (s.slotBase slot + k) =
      (Mem.read m (s.slotBase slot + k)).map fun v => if s.mode.fmt.affected k then brightByte s.bright v else v := by
  rw [Mem.read_mapBytes]
  exact congrArg (Option.map · _) (funext fun v => s.correctByte_inside slot k v h)

/-- The affected offsets: all, or the luma byte of each pixel (R204). -/
theorem Format.affected_iff (f : Format) (k : Nat) :
    f.affected k = true ↔ (f = .uyvy → k % 2 = 1) ∧ (f = .yuyv → k % 2 = 0) := by
  cases f <;> simp [Format.affected]

theorem brightByte_eq (bright : BitVec 16) (v : Byte) :
    brightByte bright v = BitVec.ofNat 8
      (if 32767 ≤ bright.toNat then min 255 (v.toNat + (bright.toNat - 32767) / 256)
      else v.toNat - (32767 - bright.toNat) / 256) := by
  rw [apply_ite (BitVec.ofNat 8)]
  rfl

/-! ## The Read buffer under the invariant -/

theorem countValue_of_lt (n : Nat) (h : n < 2 ^ 32) : countValue n = BitVec.ofNat 32 n :=
  if_pos h

theorem State.PoolInv.lt_of_mem {s : State} {pool : Pool} (h : s.PoolInv pool) {b : Nat} (hb : b ∈ pool.ids) :
    b < s.poolSize :=
  List.mem_range.1 (h.roles.mem_iff.1 hb)

theorem Pool.mem_ids_of_read (p : Pool) (b : Nat) (h : p.read = some b) : b ∈ p.ids := by
  simp [Pool.ids, h]

/-- Every byte of the Read buffer's frame holds a value (R120, R126). -/
theorem State.PoolInv.read_frame {s : State} {pool : Pool} (h : s.PoolInv pool) {b : Nat} (hrd : pool.read = some b) :
    ∃ v : Nat → Byte, ∀ a, a < s.width * s.height → s.rawRead b a = .ok (v a) := by
  have hb : b < s.poolSize := h.lt_of_mem (pool.mem_ids_of_read b hrd)
  have hoff : s.width * s.height ≤ (pool.buf b).off.toNat := h.complete b (.inr hrd)
  have hcap := h.offCap b hb
  refine ⟨fun a => (Mem.read s.raw (s.rawKey b a)).getD 0, fun a ha => ?_⟩
  obtain ⟨v, hv⟩ := Option.isSome_iff_exists.1 (h.written b hb a (by omega))
  simpa only [hv, Option.getD_some] using s.rawRead_of_value b a v hb (by omega) hv

theorem State.PoolInv.slot_fits {s : State} {pool : Pool} (h : s.PoolInv pool) (slot : BitVec 8)
    (hs : s.slotOk slot = true) : s.slotBase slot + s.outBytes ≤ s.outSize :=
  State.slot_fits s slot hs (s.viewFits_iff.1 h.view).2.2

/-- With a Read buffer and a legal slot a conversion succeeds and stores `out_bytes` bytes at the slot's base. -/
theorem State.PoolInv.demosaic {s : State} {pool : Pool} (h : s.PoolInv pool) {b : Nat} (hrd : pool.read = some b)
    (slot : BitVec 8) (hs : s.slotOk slot = true) :
    ∃ bytes, bytes.length = s.outBytes ∧
      s.demosaic b slot = .ok (s.setOut (Mem.writeList s.out (s.slotBase slot) bytes)) := by
  obtain ⟨v, hv⟩ := h.read_frame hrd
  obtain ⟨bytes, hbytes⟩ := s.viewBytes_of_frame b v hv
  have hlen := (s.viewBytes_ok b bytes hbytes).1
  refine ⟨bytes, hlen, ?_⟩
  simp only [State.demosaic, hbytes]
  exact s.outStore_of_fits _ _ (hlen ▸ h.slot_fits slot hs)

/-- A pixel's bytes lie in the slot's view region (R163). -/
theorem State.pixelOffset_lt (s : State) (x y k : Nat) (hx : x < s.vx) (hy : y < s.vy) (hk : k < s.bpp) :
    (y * s.vx + x) * s.bpp + k < s.outBytes :=
  (site_lt_frame _ _ _ _ hk (site_lt_frame _ _ _ _ hx hy)).trans_eq (Nat.mul_comm _ _)

/-- A converted pixel, read back: its bytes and their number (R163). -/
theorem State.demosaic_pixel (s t : State) (b : Nat) (slot : BitVec 8) (h : s.demosaic b slot = .ok t) (x y : Nat)
    (hx : x < s.vx) (hy : y < s.vy) :
    ∃ bytes, s.viewPixel b x y = .ok bytes ∧ bytes.length = s.bpp ∧
      ∀ k v, bytes[k]? = some v → k < s.bpp ∧ t.outRead (s.pixelAddr slot x y + k) = some v := by
  obtain ⟨all, hall, -, -⟩ := s.demosaic_ok t b slot h
  obtain ⟨px, hpx, -⟩ := (s.viewBytes_ok b all hall).2 x y hx hy
  have hlen := s.viewPixel_length b x y px hpx
  refine ⟨px, hpx, hlen, fun k v hv => ?_⟩
  have hk : k < s.bpp := hlen ▸ (List.getElem?_eq_some_iff.1 hv).1
  exact ⟨hk, (s.outRead_of_demosaic t b slot x y px h hx hy hpx k hk).trans hv⟩

/-! ## CONVERT (R160) with no pull pending -/

section
variable (s : State) (hidle : s.pull = .noPull) (slot : BitVec 8)
include hidle

theorem exec_convert_of_stopped (hr : s.run = .stopped) :
    exec (.convert slot) s = .next (s.respond 0x42 .badState 0) := by
  simp [exec, execConvert, unlessBusy_of_noPull s hidle, answer, hr]

variable (pool : Pool) (hr : s.run = .running pool)
include hr

theorem exec_convert_of_fatal (hf : s.fatal = true) :
    exec (.convert slot) s = .next (s.respond 0x42 .fatal 0) := by
  simp [exec, execConvert, unlessBusy_of_noPull s hidle, answer, hr, hf]

variable (hf : s.fatal = false)
include hf

theorem exec_convert_of_bad_slot (hs : s.nslots ≤ slot.toNat) :
    exec (.convert slot) s = .next (s.respond 0x42 .badSlot 0) := by
  simp [exec, execConvert, unlessBusy_of_noPull s hidle, answer, hr, hf, State.slotOk, Nat.not_lt.2 hs]

variable (hs : slot.toNat < s.nslots)
include hs

theorem exec_convert_of_none (hrd : pool.read = none) :
    exec (.convert slot) s = .next (s.respond 0x42 .noRead 0) := by
  simp [exec, execConvert, unlessBusy_of_noPull s hidle, answer, hr, hf, State.slotOk, hs, hrd]

theorem exec_convert_of_held (b : Nat) (t : State) (hrd : pool.read = some b) (ht : s.demosaic b slot = .ok t) :
    exec (.convert slot) s = .next (t.respond 0x42 .ok (countValue s.outBytes)) := by
  simp [exec, execConvert, unlessBusy_of_noPull s hidle, answer, hr, hf, State.slotOk, hs, hrd, ht]

end

/-- Settles O29: the refusals by the order of their checks; otherwise the conversion succeeds, its pixels are read back
and it stores nothing outside the view region. -/
theorem convertWritesView : Obligations.ConvertWritesView := by
  intro slot s hidle
  refine ⟨rfl, fun pool b hinv hr hrd hs => ?converted, exec_convert_of_stopped s hidle slot, fun hr => ?fatal,
    fun hr => ?badSlot, exec_convert_of_none s hidle slot⟩
  case converted =>
    obtain ⟨bytes, hlen, ht⟩ := (hinv.pool pool hr).demosaic hrd slot (decide_eq_true hs)
    refine ⟨_, exec_convert_of_held s hidle slot pool hr hinv.notFatal hs b _ hrd ht, rfl, countValue_of_lt _,
      fun x y hx hy => ?pixels, fun a ha => ?frame⟩
    case pixels =>
      obtain ⟨px, hpx, hpxlen, hat⟩ := s.demosaic_pixel _ b slot ht x y hx hy
      exact ⟨px, hpx, hpxlen, fun k v hv => (hat k v hv).2⟩
    case frame => exact Mem.read_writeList_outside _ _ _ _ (hlen ▸ ha)
  all_goals obtain ⟨pool, hrun⟩ := s.running_iff.1 hr
  case fatal => exact exec_convert_of_fatal s hidle slot pool hrun
  case badSlot => exact exec_convert_of_bad_slot s hidle slot pool hrun

/-! ## BRIGHTEN (R200, R201) with no pull pending -/

section
variable (s : State) (hidle : s.pull = .noPull) (slot : BitVec 8)
include hidle

theorem exec_brighten_of_stopped (hr : s.run = .stopped) :
    exec (.brighten slot) s = .next (s.respond 0x43 .badState 0) := by
  simp [exec, execBrighten, unlessBusy_of_noPull s hidle, answer, s.not_running_of_run hr]

variable (hr : s.running = true)
include hr

theorem exec_brighten_of_bad_slot (hs : s.nslots ≤ slot.toNat) :
    exec (.brighten slot) s = .next (s.respond 0x43 .badSlot 0) := by
  simp [exec, execBrighten, unlessBusy_of_noPull s hidle, answer, hr, State.slotOk, Nat.not_lt.2 hs]

theorem exec_brighten_of_fits (hs : s.slotOk slot = true) (hfit : s.slotBase slot + s.outBytes ≤ s.outSize) :
    exec (.brighten slot) s =
      .next ((s.setOut (Mem.mapBytes s.out (s.correctByte slot))).respond 0x43 .ok (countValue s.outBytes)) := by
  simp [exec, execBrighten, unlessBusy_of_noPull s hidle, answer, hr, hs, s.correct_eq slot hfit]

end

/-- Settles O30: the refusals by the order of their checks; otherwise every byte of the region is mapped by the
correction of its offset, and no other byte is. -/
theorem brightenCorrectsSlot : Obligations.BrightenCorrectsSlot := by
  intro slot s hidle
  refine ⟨rfl, fun hr hs hout => ?corrected, exec_brighten_of_stopped s hidle slot,
    exec_brighten_of_bad_slot s hidle slot⟩
  have hs' : s.slotOk slot = true := decide_eq_true hs
  refine ⟨_, exec_brighten_of_fits s hidle slot hr hs' (s.slot_fits slot hs' hout), rfl, countValue_of_lt _,
    fun k hk => ⟨fun huyvy hyuyv => ?affected, fun hchroma => ?chroma⟩, s.read_correct_outside slot s.out⟩
  case affected =>
    have hk' : s.mode.fmt.affected k = true := (s.mode.fmt.affected_iff k).2 ⟨huyvy, hyuyv⟩
    refine (s.read_correct_inside slot s.out k hk).trans ?_
    simp only [hk', if_true, brightByte_eq]
    rfl
  case chroma =>
    have hk' : s.mode.fmt.affected k = false := by
      rw [Bool.eq_false_iff, ne_eq, Format.affected_iff]
      rintro ⟨huyvy, hyuyv⟩
      rcases hchroma with ⟨hf, hpar⟩ | ⟨hf, hpar⟩
      · exact absurd (huyvy hf) (by omega)
      · exact absurd (hyuyv hf) (by omega)
    refine (s.read_correct_inside slot s.out k hk).trans ?_
    simp only [hk', Bool.false_eq_true, if_false, Option.map_id']
    rfl

/-! ## The CONVERT step of a pull (R226) -/

/-- With a Read buffer and a legal slot the step converts, corrects, releases and answers. -/
theorem convertStep_of_held (s : State) (slot : BitVec 8) (pool : Pool) (b : Nat) (t : State)
    (hr : s.run = .running pool) (hrd : pool.read = some b) (ht : s.demosaic b slot = .ok t)
    (hfit : s.slotBase slot + s.outBytes ≤ s.outSize) :
    convertStep slot s = .next ((((t.setOut (Mem.mapBytes t.out (s.correctByte slot))).setPool (pool.release b)).setPull
      .noPull).respond 0x20 .ok (countValue s.outBytes)) := by
  obtain ⟨bytes, -, -, rfl⟩ := s.demosaic_ok t b slot ht
  have hcorrect := (s.setOut (Mem.writeList s.out (s.slotBase slot) bytes)).correct_eq slot hfit
  simp only [convertStep, hr, hrd, ht, hcorrect]
  rfl

/-- Settles O21: under the invariant the pull's conversion and correction succeed; each pixel is read back through the
correction, which leaves everything outside the view region alone. -/
theorem pullConvertsCorrectsReleases : Obligations.PullConvertsCorrectsReleases := by
  intro slot s hinv hp
  obtain ⟨b, hrole⟩ := Option.isSome_iff_exists.1 (hinv.convertRead slot hp)
  obtain ⟨pool, hr⟩ := s.running_iff.1 (hinv.pullRuns (s.pending_iff.2 (hp ▸ nofun)))
  have hrd : pool.read = some b := (s.readRole_of_run pool hr).symm.trans hrole
  have hpool := hinv.pool pool hr
  have hs := hinv.pullSlot slot (.inr hp)
  obtain ⟨bytes, hlen, ht⟩ := hpool.demosaic hrd slot hs
  have hstep : pullStep s = convertStep slot s := by simp only [pullStep, hp]
  refine ⟨pool, b, _, hr, hrd, hstep.trans (convertStep_of_held s slot pool b _ hr hrd ht (hpool.slot_fits slot hs)),
    rfl, countValue_of_lt _, fun x y hx hy => ?pixels, fun a ha => ?frame⟩
  case pixels =>
    obtain ⟨px, hpx, hpxlen, hat⟩ := s.demosaic_pixel _ b slot ht x y hx hy
    refine ⟨px, hpx, hpxlen, fun k v hv => ?_⟩
    obtain ⟨hk, hread⟩ := hat k v hv
    rw [State.pixelAddr, Nat.add_assoc] at hread ⊢
    refine (s.read_correct_inside slot _ _ (s.pixelOffset_lt x y k hx hy hk)).trans ?_
    exact congrArg (Option.map _) hread
  case frame =>
    exact (s.read_correct_outside slot _ a ha).trans (Mem.read_writeList_outside _ _ _ _ (hlen ▸ ha))

end Sys2Proof.Machine
end

