-- ==== Sys2Proof/Proofs/PoolRoles.lean ====
section
/-!
PROOF. What a step does to the four roles and to Full (R32, R140, R143, R145): packets leave the roles alone or publish
the Fill buffer, and the laws of the pool follow (R142, R147, R148, R150).
-/
namespace Sys2Proof.Machine

/-! ## Packets and the roles -/

/-- The same roles; the fields of the buffers may differ. -/
def Pool.SameRoles (p q : Pool) : Prop :=
  ∃ bufs, q = { p with bufs := bufs }

theorem Pool.SameRoles.refl (p : Pool) : p.SameRoles p :=
  ⟨p.bufs, rfl⟩

theorem Pool.SameRoles.setBuf {p q : Pool} (h : p.SameRoles q) (b : Nat) (x : Buf) : p.SameRoles (q.setBuf b x) := by
  obtain ⟨bufs, rfl⟩ := h
  exact ⟨_, rfl⟩

/-- PUBLISH looks at the roles only (R140). -/
theorem Pool.SameRoles.publish {p q : Pool} (h : p.SameRoles q) (b : Nat) :
    (p.publish b).1.SameRoles (q.publish b).1 := by
  obtain ⟨bufs, rfl⟩ := h
  rcases p.publish_cases b with ⟨e, es, he, hp⟩ | ⟨f, fs, he, hf, hp⟩ <;> rw [hp]
  · rw [Pool.publish_of_empty_cons { p with bufs := bufs } b e es he]
    exact ⟨bufs, rfl⟩
  · rw [Pool.publish_of_empty_nil { p with bufs := bufs } b f fs he hf]
    exact ⟨bufs, rfl⟩

theorem Pool.SameRoles.ids {p q : Pool} (h : p.SameRoles q) : q.ids = p.ids := by
  obtain ⟨bufs, rfl⟩ := h
  rfl

theorem Pool.SameRoles.full {p q : Pool} (h : p.SameRoles q) : q.full = p.full := by
  obtain ⟨bufs, rfl⟩ := h
  rfl

theorem Pool.SameRoles.read {p q : Pool} (h : p.SameRoles q) : q.read = p.read := by
  obtain ⟨bufs, rfl⟩ := h
  rfl

theorem Pool.SameRoles.fill {p q : Pool} (h : p.SameRoles q) : q.fill = p.fill := by
  obtain ⟨bufs, rfl⟩ := h
  rfl

/-- The parity flag touches no role (R117). -/
theorem Pool.SameRoles.of_odd {p q : Pool} (h : q = p ∨ ∃ odd, q = p.setOdd p.fill odd) : p.SameRoles q := by
  rcases h with rfl | ⟨odd, rfl⟩
  · exact .refl q
  · exact (Pool.SameRoles.refl p).setBuf _ _

/-- The roles after a packet: as before, or those PUBLISH of the Fill buffer leaves. -/
def Pool.PacketRoles (p q : Pool) : Prop :=
  p.SameRoles q ∨ (p.publish p.fill).1.SameRoles q

/-- A frame boundary leaves the roles, or publishes the Fill buffer (R121 to R124). -/
theorem boundary_roles (pool pool' : Pool) (s : State) (h : pool.SameRoles pool') (hr : s.run = .running pool') :
    ∃ q dropped dumped, pool.PacketRoles q ∧
      boundary pool' s = { s with run := .running q, dropped := dropped, dumped := dumped } := by
  have hcount : ∀ q, (q = pool' ∨ q = pool'.countErr pool'.fill) → pool.SameRoles q := by
    rintro q (rfl | rfl)
    · exact h
    · exact h.setBuf _ _
  rcases boundary_cases pool' s with ⟨_, e⟩ | ⟨q, hq, _, _, e⟩ | ⟨q, hq, e⟩
  · exact ⟨pool', s.dropped, s.dumped, .inl h, by rw [e, ← hr]⟩
  · have hroles := ((hcount q hq).publish q.fill).setBuf (q.publish q.fill).1.fill
      { (q.publish q.fill).1.buf (q.publish q.fill).1.fill with off := 0, err := 0 }
    rw [(hcount q hq).fill] at hroles
    rcases e with e | e <;> exact ⟨_, _, _, .inr ((hcount q hq).fill ▸ hroles), e⟩
  · exact ⟨_, _, _, .inl ((hcount q hq).setBuf _ _), e⟩

/-- A packet writes raw memory, the pool, the counters, the stream error and the rest of its record, and nothing
else. -/
theorem PacketNext.frame {s t : State} {pool : Pool} (h : PacketNext s pool t) (hr : s.run = .running pool) :
    ∃ raw q isocErrors dropped dumped streamError xferRest, pool.PacketRoles q ∧
      t = { s with
        raw := raw, run := .running q, isocErrors := isocErrors, dropped := dropped, dumped := dumped
        streamError := streamError, xferRest := xferRest } := by
  have hself : pool.PacketRoles pool := .inl (.refl pool)
  cases h with
  | quiet rest pool' hp => exact ⟨_, _, _, _, _, _, _, .inl (.of_odd hp), rfl⟩
  | counted rest => exact ⟨s.raw, pool, _, s.dropped, s.dumped, s.streamError, rest, hself, by rw [← hr]; rfl⟩
  | failed => exact ⟨s.raw, pool, _, s.dropped, s.dumped, true, [], hself, by rw [← hr]; rfl⟩
  | overflowed rest pool' hp => exact ⟨_, _, _, _, _, _, _, .inl ((Pool.SameRoles.of_odd hp).setBuf _ _), rfl⟩
  | appended rest pool' bytes hp => exact ⟨_, _, _, _, _, _, _, .inl ((Pool.SameRoles.of_odd hp).setBuf _ _), rfl⟩
  | bounded rest pool' hp =>
    obtain ⟨q, dropped, dumped, hq, e⟩ := boundary_roles pool pool' ((s.setRest rest).setPool pool') (.of_odd hp) rfl
    exact ⟨s.raw, q, s.isocErrors, dropped, dumped, s.streamError, rest, hq, e⟩

/-! ## The roles stay a partition (R150) -/

theorem Pool.PacketRoles.ids_perm {p q : Pool} (h : p.PacketRoles q) : q.ids.Perm p.ids := by
  rcases h with h | h <;> rw [h.ids]
  exact p.publish_ids_perm

theorem Pool.acquire_ids_perm (p : Pool) (b : Nat) (rest : List Nat) (hrd : p.read = none)
    (hfull : p.full = b :: rest) :
    (Pool.ids { p with read := some b, full := rest }).Perm p.ids := by
  have h := p.tryAcquire_ids_perm
  rwa [p.tryAcquire_of_frame b rest hrd hfull] at h

theorem State.RolesPartition.of_perm {s t : State} {p q : Pool} (h : s.RolesPartition) (hr : s.run = .running p)
    (hp : t.params = s.params) (hr' : t.run = .running q) (hids : q.ids.Perm p.ids) : t.RolesPartition := by
  intro q' hq'
  cases hr'.symm.trans hq'
  have hsize : t.poolSize = s.poolSize := congrArg (·.val.poolSize) hp
  exact hsize ▸ hids.trans (h p hr)

theorem CommandNext.rolesPartition {s t : State} {i : Instr} (h : CommandNext s i t) (hs : s.RolesPartition) :
    t.RolesPartition := by
  cases h with
  | started =>
    intro q hq
    cases hq
    have hsize := s.params_spec.1
    exact .of_eq (freshPool_ids s.poolSize (by omega))
  | stopped => exact fun q hq => nomatch hq
  | acquired pool b rest hp hr hf hrd hfull =>
    exact State.RolesPartition.of_perm hs hr rfl rfl (pool.acquire_ids_perm b rest hrd hfull)
  | released pool b hp hr hf hrd => exact State.RolesPartition.of_perm hs hr rfl rfl (pool.release_ids_perm b hrd)
  | _ => exact hs

theorem MoveNext.rolesPartition {s t : State} {m : Move} (h : MoveNext s m t) (hs : s.RolesPartition) :
    t.RolesPartition := by
  cases h with
  | commanded w ws i t hc hd ht => exact ht.rolesPartition (s := s.setCmdPort ws) hs
  | illegal | discarded | reported => exact hs
  | received port pool t hr ht =>
    obtain ⟨_, q, _, _, _, _, _, hq, rfl⟩ := ht.frame hr
    exact State.RolesPartition.of_perm hs hr rfl rfl hq.ids_perm
  | acquired slot pool hp hr => exact State.RolesPartition.of_perm hs hr rfl rfl pool.tryAcquire_ids_perm
  | converted slot pool b bytes hp hr hrd =>
    exact State.RolesPartition.of_perm hs hr rfl rfl (pool.release_ids_perm b hrd)

/-- Settles O49: START_CAPTURE sets up a partition, and every other step permutes the ids of the roles or leaves
them. -/
theorem rolesStayPartitioned : Obligations.RolesStayPartitioned := by
  intro s t hs h
  rcases step_next s t h with rfl | ⟨m, sched, n, hn⟩
  · exact hs
  · exact hn.rolesPartition (s := { s with schedule := sched, tick := n }) hs

/-! ## Full is a queue (R147) -/

/-- At most one buffer enters `full` at its tail and at most one leaves it at its head. -/
def Fifo (full full' : List Nat) : Prop :=
  ∃ out new, out ≤ 1 ∧ new.length ≤ 1 ∧ full' = (full ++ new).drop out

theorem Fifo.refl (full : List Nat) : Fifo full full :=
  ⟨0, [], by decide, by decide, by simp⟩

theorem Fifo.tail (b : Nat) (rest : List Nat) : Fifo (b :: rest) rest :=
  ⟨1, [], by decide, by decide, by simp⟩

theorem Pool.publish_fifo (p : Pool) (b : Nat) : Fifo p.full (p.publish b).1.full := by
  rcases p.publish_cases b with ⟨e, es, _, h⟩ | ⟨f, fs, _, hf, h⟩ <;> rw [h]
  · exact ⟨0, [b], by decide, by simp, rfl⟩
  · exact ⟨1, [b], by decide, by simp, by rw [hf, List.drop_one, List.tail_cons]⟩

theorem Pool.PacketRoles.fifo {p q : Pool} (h : p.PacketRoles q) : Fifo p.full q.full := by
  rcases h with h | h <;> rw [h.full]
  · exact .refl _
  · exact p.publish_fifo _

theorem Pool.tryAcquire_fifo (p : Pool) : Fifo p.full p.tryAcquire.1.full := by
  rcases p.tryAcquire_cases with ⟨f, fs, _, hfull, h⟩ | ⟨_, h⟩ <;> rw [h]
  · rw [hfull]
    exact .tail f fs
  · exact .refl _

/-- The pool after a step, when there is one before and after. -/
theorem fifo_of_same_run {s t : State} {p q : Pool} (h : t.run = s.run) (hp : s.run = .running p)
    (hq : t.run = .running q) : Fifo p.full q.full := by
  cases hp.symm.trans (h.symm.trans hq)
  exact .refl _

theorem CommandNext.fifo {s t : State} {i : Instr} {p q : Pool} (h : CommandNext s i t) (hp : s.run = .running p)
    (hq : t.run = .running q) : Fifo p.full q.full := by
  cases h with
  | started _ hr => cases hr.symm.trans hp
  | stopped => cases hq
  | acquired pool b rest _ hr _ _ hfull =>
    cases hr.symm.trans hp
    cases hq
    exact hfull ▸ .tail b rest
  | released pool b _ hr =>
    cases hr.symm.trans hp
    cases hq
    exact .refl _
  | _ => exact fifo_of_same_run (s := s) rfl hp hq

theorem MoveNext.fifo {s t : State} {m : Move} {p q : Pool} (h : MoveNext s m t) (hp : s.run = .running p)
    (hq : t.run = .running q) : Fifo p.full q.full := by
  cases h with
  | commanded w ws i t hc hd ht => exact ht.fifo hp hq
  | illegal | discarded | reported => exact fifo_of_same_run (s := s) rfl hp hq
  | received port pool t hr ht =>
    obtain ⟨_, q', _, _, _, _, _, hroles, rfl⟩ := ht.frame hr
    cases hr.symm.trans hp
    cases hq
    exact hroles.fifo
  | acquired slot pool _ hr =>
    cases hr.symm.trans hp
    cases hq
    exact p.tryAcquire_fifo
  | converted slot pool b bytes _ hr =>
    cases hr.symm.trans hp
    cases hq
    exact .refl _

/-- Settles O46: buffers enter Full by PUBLISH only, and leave it by an acquisition or a displacement, at the head. -/
theorem fullIsFifo : Obligations.FullIsFifo := by
  intro s t p q h hp hq
  rcases step_next s t h with rfl | ⟨m, sched, n, hn⟩
  · exact fifo_of_same_run rfl hp hq
  · exact hn.fifo hp hq

/-! ## The fatal fault (R142) -/

theorem Pool.publish_not_exhausted (p : Pool) (b : Nat) : (p.publish b).2 ≠ .exhausted := by
  rcases p.publish_cases b with ⟨_, _, _, h⟩ | ⟨_, _, _, _, h⟩ <;> rw [h] <;> exact nofun

theorem State.terminatePull_frame (s : State) :
    ∃ responses, s.terminatePull = { s with pull := .noPull, responses := responses } := by
  by_cases h : s.pull = .noPull
  · exact ⟨s.responses, by rw [s.terminatePull_of_noPull h, ← h]⟩
  · exact ⟨_, s.terminatePull_of_pull h⟩

theorem CommandNext.fatal {s t : State} {i : Instr} (h : CommandNext s i t) :
    t.faultRecord = s.faultRecord ∧ (s.fatal = false → t.fatal = false) := by
  cases h with
  | started => exact ⟨rfl, fun _ => rfl⟩
  | stopped =>
    obtain ⟨responses, e⟩ := s.terminatePull_frame
    rw [e]
    exact ⟨rfl, id⟩
  | _ => exact ⟨rfl, id⟩

theorem MoveNext.fatal {s t : State} {m : Move} (h : MoveNext s m t) :
    t.faultRecord = s.faultRecord ∧ (s.fatal = false → t.fatal = false) := by
  cases h with
  | commanded w ws i t hc hd ht => exact ht.fatal
  | received port pool t hr ht =>
    obtain ⟨_, _, _, _, _, _, _, _, rfl⟩ := ht.frame hr
    exact ⟨rfl, id⟩
  | _ => exact ⟨rfl, id⟩

/-- Settles O48: after the append Full is not empty, so PUBLISH finds a buffer and the fatal branch is not taken. -/
theorem fatalIsUnreachable : Obligations.FatalIsUnreachable := by
  refine ⟨Pool.publish_not_exhausted, fun s t h => ?_⟩
  rcases step_next s t h with rfl | ⟨m, sched, n, hn⟩
  · exact ⟨rfl, id⟩
  · exact hn.fatal

/-! ## Publishing without a consumer (R148) -/

/-- The Fill buffer after `k` publishes from a fresh pool of `n` buffers. -/
def fillAfter (n k : Nat) : Nat :=
  (publishTimes k (freshPool n)).1.fill

/-- Until Empty has run out the buffers are filled in rising order and none is displaced. -/
theorem publishTimes_filling (d k : Nat) (hk : k ≤ d) :
    ∃ bufs, publishTimes k (freshPool (d + 1)) =
      ({ fill := k, read := none, empty := List.range' (k + 1) (d - k), full := List.range k, bufs := bufs }, 0) := by
  induction k with
  | zero => exact ⟨_, by rw [publishTimes, freshPool_eq]; rfl⟩
  | succ k ih =>
    obtain ⟨bufs, e⟩ := ih (by omega)
    have hempty : List.range' (k + 1) (d - k) = (k + 1) :: List.range' (k + 1 + 1) (d - (k + 1)) := by
      rw [show d - k = d - (k + 1) + 1 by omega, List.range'_succ]
    exact ⟨bufs, by rw [publishTimes, e, Pool.publish_of_empty_cons _ _ _ _ hempty, List.range_succ]; rfl⟩

/-- A displacing PUBLISH takes the oldest unread frame. -/
theorem Pool.publish_displaced (p : Pool) (b : Nat) (h : (p.publish b).2 = .displaced) :
    p.full ++ [b] = (p.publish b).1.fill :: (p.publish b).1.full := by
  rcases p.publish_cases b with ⟨_, _, _, e⟩ | ⟨f, fs, _, hf, e⟩ <;> rw [e] at h ⊢
  · cases h
  · exact hf

/-- From then on Full is a window on the last `d` buffers filled, and every publish displaces one. -/
theorem publishTimes_full (d m : Nat) :
    (publishTimes (d + m) (freshPool (d + 1))).1.empty = [] ∧ (publishTimes (d + m) (freshPool (d + 1))).2 = m ∧
      (publishTimes (d + m) (freshPool (d + 1))).1.full = (List.range d).map fun i => fillAfter (d + 1) (m + i) := by
  induction m with
  | zero =>
    obtain ⟨bufs, e⟩ := publishTimes_filling d d le_rfl
    rw [Nat.add_zero, e]
    refine ⟨by simp, rfl, ?_⟩
    have hfill : ∀ i ∈ List.range d, fillAfter (d + 1) (0 + i) = i := fun i hi => by
      obtain ⟨_, e'⟩ := publishTimes_filling d i (List.mem_range.1 hi).le
      rw [Nat.zero_add, fillAfter, e']
    rw [List.map_congr_left hfill, List.map_id']
  | succ m ih =>
    obtain ⟨hempty, hcount, hfull⟩ := ih
    rw [← Nat.add_assoc, publishTimes]
    generalize hbefore : publishTimes (d + m) (freshPool (d + 1)) = before at hempty hcount hfull ⊢
    rcases before.1.publish_cases before.1.fill with ⟨e, es, he, _⟩ | ⟨f, fs, _, hf, hp⟩
    · rw [hempty] at he
      cases he
    · have hwindow : before.1.full ++ [before.1.fill] =
          (List.range (d + 1)).map fun i => fillAfter (d + 1) (m + i) := by
        rw [hfull, List.range_succ, List.map_append, List.map_singleton, fillAfter, Nat.add_comm m d, hbefore]
      rw [hf, List.range_succ_eq_map, List.map_cons, List.map_map] at hwindow
      obtain ⟨-, hfs⟩ := List.cons.inj hwindow
      rw [hp]
      refine ⟨hempty, congrArg (· + 1) hcount, hfs.trans (List.map_congr_left fun i _ => ?_)⟩
      exact congrArg (fillAfter (d + 1)) (by simp only [Nat.succ_eq_add_one]; omega)

/-- Settles O47: once Empty has run out, each publish moves the window of Full on by one buffer. -/
theorem freshnessUnderBackpressure : Obligations.FreshnessUnderBackpressure := by
  refine ⟨Pool.publish_displaced, fun n k hn hk => ?_⟩
  obtain ⟨d, rfl⟩ : ∃ d, n = d + 1 := ⟨n - 1, by omega⟩
  obtain ⟨m, rfl⟩ : ∃ m, k = d + m := ⟨k - d, by omega⟩
  obtain ⟨-, hcount, hfull⟩ := publishTimes_full d m
  refine ⟨by omega, hfull.trans ?_⟩
  simp only [Nat.add_sub_cancel, Nat.add_sub_cancel_left]
  rfl

end Sys2Proof.Machine
end

