-- ==== Sys2Proof/Proofs/Invariant.lean ====
section
/-!
PROOF. The machine invariant: it holds at power-on (R42) and every step keeps it. First what `PoolInv` and `Inv` do not
look at, then the operations on the pool, the buffers' fields and the two memories, then the moves.
-/
namespace Sys2Proof.Machine

/-! ## What the invariant does not look at -/

theorem State.PoolInv.frame {s : State} {p : Pool} (h : s.PoolInv p) (run : Run) (bright : BitVec 16)
    (isocErrors dropped dumped : BitVec 32) (streamError fatal : Bool) (pull : Pull) (out : Mem)
    (cmdPort ingestPort : List Word) (xferRest : List Packet) (responses : List Response)
    (faultRecord : List FatalInfo) (schedule : List Move) (tick : Nat) :
    State.PoolInv { s with
      run := run, bright := bright, isocErrors := isocErrors, dropped := dropped, dumped := dumped
      streamError := streamError, fatal := fatal, pull := pull, out := out, cmdPort := cmdPort
      ingestPort := ingestPort, xferRest := xferRest, responses := responses, faultRecord := faultRecord
      schedule := schedule, tick := tick } p :=
  ⟨h.roles, h.bufCount, h.offCap, h.written, h.complete, h.view⟩

theorem State.Inv.frame {s : State} (h : s.Inv) (bright : BitVec 16) (isocErrors dropped dumped : BitVec 32)
    (streamError : Bool) (cmdPort ingestPort : List Word) (xferRest : List Packet) (responses : List Response)
    (schedule : List Move) (tick : Nat) :
    State.Inv { s with
      bright := bright, isocErrors := isocErrors, dropped := dropped, dumped := dumped
      streamError := streamError, cmdPort := cmdPort, ingestPort := ingestPort, xferRest := xferRest
      responses := responses, schedule := schedule, tick := tick } where
  canonical := h.canonical
  rawRange := h.rawRange
  outRange := h.outRange
  notFatal := h.notFatal
  noFault := h.noFault
  pullRuns := h.pullRuns
  pullSlot := h.pullSlot
  waitRead := h.waitRead
  convertRead := h.convertRead
  pool := fun p hp => (h.pool p hp).frame ..

/-! ## The pool operations -/

/-- Moving the roles about, with the fill offsets as they are, as long as every Full or Read frame is complete. -/
theorem State.PoolInv.of_roles {s : State} {p q : Pool} (h : s.PoolInv p) (hids : q.ids.Perm p.ids)
    (hlen : q.bufs.length = p.bufs.length) (hoff : ∀ b, (q.buf b).off = (p.buf b).off)
    (hcomplete : ∀ b, b ∈ q.full ∨ q.read = some b → s.expectedBytes ≤ (p.buf b).off.toNat) : s.PoolInv q where
  roles := hids.trans h.roles
  bufCount := hlen.trans h.bufCount
  offCap := fun b hb => hoff b ▸ h.offCap b hb
  written := fun b hb => hoff b ▸ h.written b hb
  complete := fun b hb => hoff b ▸ hcomplete b hb
  view := h.view

theorem Pool.setBuf_off (p : Pool) (b c : Nat) (x : Buf) (hx : x.off = (p.buf b).off) :
    ((p.setBuf b x).buf c).off = (p.buf c).off := by
  by_cases hb : b < p.bufs.length
  · rw [p.buf_setBuf b c x hb]
    split
    · next h => rw [hx, h]
    · rfl
  · exact congrArg Buf.off (Pool.buf_of_bufs _ _ (List.set_eq_of_length_le (Nat.not_lt.1 hb)) c)

/-- A new parity flag or error count keeps the pool's invariant. -/
theorem State.PoolInv.setBuf {s : State} {p : Pool} (h : s.PoolInv p) (b : Nat) (x : Buf)
    (hx : x.off = (p.buf b).off) : s.PoolInv (p.setBuf b x) :=
  h.of_roles (.refl _) (p.setBuf_bufs_length b x) (fun c => p.setBuf_off b c x hx) h.complete

/-- A new fill offset keeps the pool's invariant if the bytes below it are in the buffer and hold values, and, where the
buffer is Full or Read, its frame stays complete. -/
theorem State.PoolInv.setBuf_off {s : State} {p : Pool} (h : s.PoolInv p) (b : Nat) (x : Buf) (hb : b < s.poolSize)
    (hcap : x.off.toNat ≤ s.cap) (hw : ∀ a, a < x.off.toNat → (Mem.read s.raw (s.rawKey b a)).isSome = true)
    (hc : b ∈ p.full ∨ p.read = some b → s.expectedBytes ≤ x.off.toNat) : s.PoolInv (p.setBuf b x) := by
  have hbuf : ∀ c, (p.setBuf b x).buf c = if c = b then x else p.buf c := fun c =>
    p.buf_setBuf b c x (h.bufCount ▸ hb)
  refine ⟨h.roles, (p.setBuf_bufs_length b x).trans h.bufCount, fun c hc' => ?_, fun c hc' => ?_,
    fun c hc' => ?_, h.view⟩ <;>
    rw [hbuf] <;> split
  · exact hcap
  · exact h.offCap c hc'
  · next e => exact e ▸ hw
  · exact h.written c hc'
  · next e => exact hc (e ▸ hc')
  · exact h.complete c hc'

/-- The Fill buffer is neither Full nor Read (R32). -/
theorem Pool.fill_not_frame (p : Pool) (h : p.ids.Nodup) : ¬(p.fill ∈ p.full ∨ p.read = some p.fill) := by
  obtain ⟨hfill, -⟩ := List.nodup_cons.1 h
  rintro (hfull | hread)
  · exact hfill (List.mem_append_right _ hfull)
  · exact hfill (List.mem_append_left _ (List.mem_append_left _ (by simp [hread])))

theorem State.PoolInv.nodup {s : State} {p : Pool} (h : s.PoolInv p) : p.ids.Nodup :=
  h.roles.nodup_iff.2 List.nodup_range

theorem State.PoolInv.fill_lt {s : State} {p : Pool} (h : s.PoolInv p) : p.fill < s.poolSize :=
  h.lt_of_mem List.mem_cons_self

theorem State.PoolInv.fillReset {s : State} {p : Pool} (h : s.PoolInv p) : s.PoolInv p.fillReset :=
  h.setBuf_off _ _ h.fill_lt (Nat.zero_le _) (fun _ ha => absurd ha (Nat.not_lt_zero _))
    fun hf => absurd hf (p.fill_not_frame h.nodup)

/-- PUBLISH of a complete frame (R123, R126, R140). -/
theorem State.PoolInv.publish {s : State} {p : Pool} (h : s.PoolInv p)
    (hc : s.expectedBytes ≤ (p.buf p.fill).off.toNat) : s.PoolInv (p.publish p.fill).1 := by
  refine h.of_roles p.publish_ids_perm (congrArg _ (p.publish_bufs _))
    (fun b => congrArg Buf.off (Pool.buf_of_bufs _ _ (p.publish_bufs _) b)) fun b hb => ?_
  have hold : b ∈ p.full ++ [p.fill] ∨ p.read = some b := by
    refine hb.imp (fun hfull => ?_) (fun hread => (p.publish_read _).symm.trans hread)
    rcases p.publish_cases p.fill with ⟨e, es, _, hp⟩ | ⟨f, fs, _, hf, hp⟩ <;> rw [hp] at hfull
    · exact hfull
    · exact hf ▸ List.mem_cons_of_mem f hfull
  rcases hold with hfull | hread
  · rcases List.mem_append.1 hfull with hfull | hfill
    · exact h.complete b (.inl hfull)
    · exact List.mem_singleton.1 hfill ▸ hc
  · exact h.complete b (.inr hread)

theorem State.PoolInv.acquire {s : State} {p : Pool} (h : s.PoolInv p) (b : Nat) (rest : List Nat)
    (hrd : p.read = none) (hfull : p.full = b :: rest) : s.PoolInv { p with read := some b, full := rest } := by
  refine h.of_roles (p.acquire_ids_perm b rest hrd hfull) rfl (fun _ => rfl) fun c hc => h.complete c (.inl ?_)
  rw [hfull]
  rcases hc with hc | hc
  · exact List.mem_cons_of_mem b hc
  · exact Option.some.inj hc ▸ List.mem_cons_self

theorem State.PoolInv.release {s : State} {p : Pool} (h : s.PoolInv p) (b : Nat) (hrd : p.read = some b) :
    s.PoolInv (p.release b) :=
  h.of_roles (p.release_ids_perm b hrd) rfl (fun _ => rfl) fun _ hc => h.complete _ (.inl (hc.resolve_right nofun))

/-- Written raw bytes keep every byte below a fill offset valued. -/
theorem State.PoolInv.setRaw {s : State} {p : Pool} (h : s.PoolInv p) (k : Nat) (bytes : List Byte) :
    (s.setRaw (Mem.writeList s.raw k bytes)).PoolInv p :=
  ⟨h.roles, h.bufCount, h.offCap, fun b hb a ha => Mem.read_isSome_writeList _ _ _ _ (h.written b hb a ha), h.complete,
    h.view⟩

/-- APPEND (R120): the new bytes stand between the old fill offset and the new one. -/
theorem State.PoolInv.append {s : State} {p : Pool} (h : s.PoolInv p) (bytes : List Byte)
    (hc : (p.buf p.fill).off.toNat + bytes.length ≤ s.cap) :
    (s.setRaw (Mem.writeList s.raw (s.rawKey p.fill (p.buf p.fill).off.toNat) bytes)).PoolInv
      (p.setOff p.fill ((p.buf p.fill).off.toNat + bytes.length)) := by
  have hcap : s.cap < 2 ^ 32 := s.params_spec.2.2.2.2.2.1
  have hoff : (BitVec.ofNat 32 ((p.buf p.fill).off.toNat + bytes.length)).toNat =
      (p.buf p.fill).off.toNat + bytes.length := by
    rw [BitVec.toNat_ofNat, Nat.mod_eq_of_lt (by omega)]
  refine (h.setRaw _ bytes).setBuf_off _ _ h.fill_lt (hoff.trans_le hc) (fun a ha => ?_)
    fun hf => absurd hf (p.fill_not_frame h.nodup)
  have ha' : a < (p.buf p.fill).off.toNat + bytes.length := ha.trans_eq hoff
  by_cases hold : a < (p.buf p.fill).off.toNat
  · exact (h.setRaw _ bytes).written _ h.fill_lt a hold
  · have hk : a - (p.buf p.fill).off.toNat < bytes.length := by omega
    have hread := Mem.read_writeList_inside s.raw (s.rawKey p.fill (p.buf p.fill).off.toNat) bytes _ hk
    rw [s.rawKey_add, Nat.add_sub_cancel' (Nat.not_lt.1 hold)] at hread
    exact Option.isSome_iff_exists.2 ⟨_, hread⟩

/-- START_CAPTURE's pool (R219): nothing is Full or Read, and every fill offset is 0. -/
theorem State.poolInv_freshPool (s : State) (hv : s.viewFits = true) : s.PoolInv (freshPool s.poolSize) where
  roles := .of_eq (freshPool_ids _ (Nat.le_trans (by decide) s.params_spec.1))
  bufCount := List.length_replicate
  offCap := fun b _ => by rw [freshPool_buf]; exact Nat.zero_le _
  written := fun b _ a ha => by rw [freshPool_buf] at ha; exact absurd ha (Nat.not_lt_zero a)
  complete := fun b hb => by rcases hb with hb | hb <;> cases hb
  view := hv

/-! ## The state operations -/

/-- A pool that meets the pool's invariant, with a pull whose phase fits its Read role. -/
theorem State.Inv.withPool {s : State} (h : s.Inv) (q : Pool) (pull : Pull) (responses : List Response)
    (hq : s.PoolInv q) (hslot : ∀ slot, pull = .wait slot ∨ pull = .convert slot → s.slotOk slot = true)
    (hwait : ∀ slot, pull = .wait slot → q.read = none)
    (hconv : ∀ slot, pull = .convert slot → q.read.isSome = true) :
    State.Inv { s with run := .running q, pull := pull, responses := responses } where
  canonical := h.canonical
  rawRange := h.rawRange
  outRange := h.outRange
  notFatal := h.notFatal
  noFault := h.noFault
  pullRuns := fun _ => rfl
  pullSlot := hslot
  waitRead := hwait
  convertRead := hconv
  pool := fun p hp => by cases hp; exact hq.frame ..

/-- A pool that meets the pool's invariant, and no pull. -/
theorem State.Inv.withPool_noPull {s : State} (h : s.Inv) (q : Pool) (responses : List Response) (hq : s.PoolInv q) :
    State.Inv { s with run := .running q, pull := .noPull, responses := responses } :=
  h.withPool q .noPull responses hq (fun _ hp => by rcases hp with hp | hp <;> cases hp) nofun nofun

/-- A new pool with the Read role it had. -/
theorem State.Inv.setPool {s : State} (h : s.Inv) (p q : Pool) (hr : s.run = .running p) (hq : s.PoolInv q)
    (hread : q.read = p.read) : (s.setPool q).Inv := by
  have hrole : s.readRole = q.read := (s.readRole_of_run p hr).trans hread.symm
  exact h.withPool q s.pull s.responses hq h.pullSlot (fun slot hp => hrole ▸ h.waitRead slot hp)
    fun slot hp => hrole ▸ h.convertRead slot hp

/-- No pull is pending, whatever the answers sent. -/
theorem State.Inv.noPull {s : State} (h : s.Inv) (responses : List Response) :
    State.Inv { s with pull := .noPull, responses := responses } where
  canonical := h.canonical
  rawRange := h.rawRange
  outRange := h.outRange
  notFatal := h.notFatal
  noFault := h.noFault
  pullRuns := nofun
  pullSlot := fun _ hp => by rcases hp with hp | hp <;> cases hp
  waitRead := nofun
  convertRead := nofun
  pool := fun p hp => (h.pool p hp).frame ..

/-- A stopped block without a pull, whatever its configuration and pool were (R31). -/
theorem State.Inv.stop {s : State} (h : s.Inv) (mode : Mode) (bright : BitVec 16) (viewX viewY : BitVec 12)
    (responses : List Response) :
    State.Inv { s with
      run := .stopped, mode := mode, bright := bright, viewX := viewX, viewY := viewY, pull := .noPull
      responses := responses } where
  canonical := h.canonical
  rawRange := h.rawRange
  outRange := h.outRange
  notFatal := h.notFatal
  noFault := h.noFault
  pullRuns := nofun
  pullSlot := fun _ hp => by rcases hp with hp | hp <;> cases hp
  waitRead := nofun
  convertRead := nofun
  pool := nofun

/-- A block that has just been started (R219). -/
theorem State.Inv.start {s : State} (h : s.Inv) (hp : s.pull = .noPull) (hv : s.viewFits = true) :
    s.startStream.Inv where
  canonical := h.canonical
  rawRange := h.rawRange
  outRange := h.outRange
  notFatal := rfl
  noFault := h.noFault
  pullRuns := fun _ => rfl
  pullSlot := h.pullSlot
  waitRead := fun _ _ => rfl
  convertRead := fun slot hc => nomatch hp.symm.trans hc
  pool := fun p hr => by cases hr; exact (s.poolInv_freshPool hv).frame ..

/-- Output memory replaced by one in canonical form and in range. -/
theorem State.Inv.setOut {s : State} (h : s.Inv) (m : Mem) (hm : Mem.wf m = true) (hrange : ∀ c ∈ m, c.1 < s.outSize) :
    (s.setOut m).Inv where
  canonical := ⟨h.canonical.1, hm⟩
  rawRange := h.rawRange
  outRange := hrange
  notFatal := h.notFatal
  noFault := h.noFault
  pullRuns := h.pullRuns
  pullSlot := h.pullSlot
  waitRead := h.waitRead
  convertRead := h.convertRead
  pool := fun p hr => (h.pool p hr).frame ..

theorem State.Inv.writeOut {s : State} (h : s.Inv) (a : Nat) (bytes : List Byte) (hfit : a + bytes.length ≤ s.outSize) :
    (s.setOut (Mem.writeList s.out a bytes)).Inv := by
  refine h.setOut _ (Mem.wf_writeList _ _ _ h.canonical.2) fun c hc => ?_
  rcases Mem.mem_writeList _ _ _ _ hc with hc | hc
  · omega
  · exact h.outRange c hc

theorem State.Inv.mapOut {s : State} (h : s.Inv) (f : Nat → Byte → Byte) : (s.setOut (Mem.mapBytes s.out f)).Inv := by
  refine h.setOut _ (Mem.wf_mapBytes _ _ h.canonical.2) fun c hc => ?_
  obtain ⟨d, hd, e⟩ := Mem.mem_mapBytes _ _ _ hc
  exact e ▸ h.outRange d hd

/-- Bytes written inside one raw buffer (R61). -/
theorem State.Inv.writeRaw {s : State} (h : s.Inv) (b a : Nat) (bytes : List Byte) (hb : b < s.poolSize)
    (ha : a + bytes.length ≤ s.cap) : (s.setRaw (Mem.writeList s.raw (s.rawKey b a) bytes)).Inv where
  canonical := ⟨Mem.wf_writeList _ _ _ h.canonical.1, h.canonical.2⟩
  rawRange := fun c hc => by
    have hlast : (b + 1) * s.cap ≤ s.poolSize * s.cap := Nat.mul_le_mul_right _ hb
    rw [Nat.add_mul, Nat.one_mul] at hlast
    rcases Mem.mem_writeList _ _ _ _ hc with hc | hc
    · show c.1 < s.poolSize * s.cap
      unfold State.rawKey at hc
      omega
    · exact h.rawRange c hc
  outRange := h.outRange
  notFatal := h.notFatal
  noFault := h.noFault
  pullRuns := h.pullRuns
  pullSlot := h.pullSlot
  waitRead := h.waitRead
  convertRead := h.convertRead
  pool := fun p hr => (h.pool p hr).setRaw _ bytes

/-! ## The moves -/

theorem CommandNext.inv {s t : State} {i : Instr} (h : CommandNext s i t) (hs : s.Inv) : t.Inv := by
  cases h with
  | answered => exact hs.frame ..
  | configured i mode bright viewX viewY op hp hr =>
    have hstop := hs.stop mode bright viewX viewY (s.responses ++ [{ op := op, status := .ok, value := 0 }])
    rw [← hr, ← hp] at hstop
    exact hstop
  | started hp hr hv => exact (hs.start hp hv).frame ..
  | stopped =>
    obtain ⟨responses, e⟩ := s.terminatePull_frame
    rw [e]
    exact hs.stop s.mode s.bright s.viewX s.viewY _
  | waits slot pool hp hr hslot hf hrd =>
    have hpool := hs.withPool pool (.wait slot) s.responses (hs.pool pool hr) (fun slot' hp' => ?_)
      (fun _ _ => hrd) nofun
    · rw [← hr] at hpool
      exact hpool
    · rcases hp' with hp' | hp' <;> cases hp'
      exact hslot
  | cancelled => exact hs.noPull _
  | acquired pool b rest hp hr hf hrd hfull =>
    have hpool := hs.withPool_noPull _ (s.responses ++ [{ op := 0x40, status := .ok, value := BitVec.ofNat 32 b }])
      ((hs.pool pool hr).acquire b rest hrd hfull)
    rw [← hp] at hpool
    exact hpool
  | released pool b hp hr hf hrd =>
    have hpool := hs.withPool_noPull _ (s.responses ++ [{ op := 0x41, status := .ok, value := BitVec.ofNat 32 b }])
      ((hs.pool pool hr).release b hrd)
    rw [← hp] at hpool
    exact hpool
  | converted slot pool b bytes hp hr hrd hslot hv hfit => exact (hs.writeOut _ bytes hfit).frame ..
  | brightened => exact (hs.mapOut _).frame ..

/-- A pool whose Fill buffer has a new parity flag. -/
theorem State.PoolInv.of_odd {s : State} {p q : Pool} (h : s.PoolInv p) (hq : q = p ∨ ∃ odd, q = p.setOdd p.fill odd) :
    s.PoolInv q := by
  rcases hq with rfl | ⟨odd, rfl⟩
  · exact h
  · exact h.setBuf _ _ rfl

/-- A frame boundary (R121 to R124): only a complete frame without errors is published. -/
theorem boundary_inv (p pool : Pool) (s : State) (h : s.Inv) (hr : s.run = .running p) (hpool : s.PoolInv pool)
    (hread : pool.read = p.read) : (boundary pool (s.setPool pool)).Inv := by
  have hcount : ∀ q, (q = pool ∨ q = pool.countErr pool.fill) →
      s.PoolInv q ∧ q.read = p.read ∧ q.fill = pool.fill ∧ (q.buf pool.fill).off = (pool.buf pool.fill).off := by
    rintro q (rfl | rfl)
    · exact ⟨hpool, hread, rfl, rfl⟩
    · exact ⟨hpool.setBuf _ _ rfl, hread, rfl, pool.setBuf_off _ _ _ rfl⟩
  rcases boundary_cases pool (s.setPool pool) with ⟨_, e⟩ | ⟨q, hq, herr, hshort, e⟩ | ⟨q, hq, e⟩
  · rw [e]
    exact h.setPool p pool hr hpool hread
  · obtain ⟨hqinv, hqread, hqfill, hqoff⟩ := hcount q hq
    have hcomplete : s.expectedBytes ≤ (q.buf q.fill).off.toNat := by
      by_contra hlt
      rw [hqfill, hqoff] at hlt
      have hq' := hshort (Nat.not_le.1 hlt)
      rw [hq', Pool.countErr, Pool.setBuf_fill, pool.buf_setBuf _ _ _ (hpool.bufCount ▸ hpool.fill_lt),
        if_pos rfl] at herr
      exact satInc32_ne_zero _ herr
    have hpub := h.setPool p (q.publish q.fill).1.fillReset hr (hqinv.publish hcomplete).fillReset
      ((q.publish_read q.fill).trans hqread)
    rcases e with e | e <;> rw [e] <;> exact hpub.frame ..
  · obtain ⟨hqinv, hqread, -, -⟩ := hcount q hq
    rw [e]
    exact (h.setPool p q.fillReset hr hqinv.fillReset hqread).frame ..

theorem PacketNext.inv {s t : State} {pool : Pool} (h : PacketNext s pool t) (hs : s.Inv) (hr : s.run = .running pool) :
    t.Inv := by
  have hpool := hs.pool pool hr
  have hread : ∀ q, (q = pool ∨ ∃ odd, q = pool.setOdd pool.fill odd) → q.read = pool.read := fun q hq =>
    (Pool.SameRoles.of_odd hq).read
  cases h with
  | quiet rest pool' hp => exact (hs.setPool pool pool' hr (hpool.of_odd hp) (hread pool' hp)).frame ..
  | counted rest => exact hs.frame ..
  | failed => exact hs.frame ..
  | overflowed rest pool' hp =>
    exact (hs.setPool pool (pool'.countErr pool.fill) hr ((hpool.of_odd hp).setBuf _ _ rfl) (hread pool' hp)).frame ..
  | appended rest pool' bytes hp hf hc =>
    have hfill : pool'.fill = pool.fill := (Pool.SameRoles.of_odd hp).fill
    rw [← hfill] at hc hf ⊢
    have hwritten := hs.writeRaw pool'.fill (pool'.buf pool'.fill).off.toNat bytes hf hc
    exact (hwritten.setPool pool _ hr ((hpool.of_odd hp).append bytes hc) (hread pool' hp)).frame ..
  | bounded rest pool' hp =>
    have hrest : (s.setRest rest).Inv := hs.frame ..
    exact boundary_inv pool pool' (s.setRest rest) hrest hr ((hpool.of_odd hp).frame ..) (hread pool' hp)

theorem MoveNext.inv {s t : State} {m : Move} (h : MoveNext s m t) (hs : s.Inv) : t.Inv := by
  cases h with
  | commanded w ws i t hc hd ht => exact ht.inv (hs.frame ..)
  | illegal => exact hs.frame ..
  | discarded => exact hs.frame ..
  | received port pool t hr ht => exact ht.inv (hs.frame ..) hr
  | reported => exact hs.noPull _
  | acquired slot pool hp hr hfull =>
    have hrd : pool.read = none := (s.readRole_of_run pool hr).symm.trans (hs.waitRead slot hp)
    obtain ⟨b, rest, hfull⟩ := List.exists_cons_of_ne_nil hfull
    rw [pool.tryAcquire_of_frame b rest hrd hfull]
    refine hs.withPool _ (.convert slot) s.responses ((hs.pool pool hr).acquire b rest hrd hfull) (fun slot' hp' => ?_)
      nofun (fun _ _ => rfl)
    rcases hp' with hp' | hp' <;> cases hp'
    exact hs.pullSlot slot (.inl hp)
  | converted slot pool b bytes hp hr hrd hv hfit =>
    have hout := (hs.writeOut _ bytes hfit).mapOut fun a v => if s.affectedAddr slot a then brightByte s.bright v else v
    exact hout.withPool_noPull _ _ ((hout.pool pool hr).release b hrd)

/-- Settles O50: whichever move a step makes, its next state is put together from operations that keep the invariant. -/
theorem stepKeepsInv : Obligations.StepKeepsInv := by
  intro s t hs h
  rcases step_next s t h with rfl | ⟨m, sched, n, hn⟩
  · exact hs
  · exact hn.inv (hs.frame ..)

/-- Settles O13: at power-on both memories are empty, nothing runs and no pull is pending. -/
theorem powerOnMeetsInv : Obligations.PowerOnMeetsInv := fun _ => {
  canonical := ⟨rfl, rfl⟩
  rawRange := nofun
  outRange := nofun
  notFatal := rfl
  noFault := rfl
  pullRuns := nofun
  pullSlot := fun _ hp => by rcases hp with hp | hp <;> cases hp
  waitRead := nofun
  convertRead := nofun
  pool := nofun }

end Sys2Proof.Machine
end

