-- ==== Sys2Proof/Proofs/StepLaws.lean ====
section
/-!
PROOF. What every step keeps, whatever the state: the memories' form and writers (R34, R35, R78), the configuration
(R222), the stream error (R30, R112, R219), the answers (R95, R228). Each law is read off the next states of a command
and of a move.
-/
namespace Sys2Proof.Machine

/-! ## The canonical form of the memories -/

theorem CommandNext.memoryCanonical {s t : State} {i : Instr} (h : CommandNext s i t) (hs : s.MemoryCanonical) :
    t.MemoryCanonical := by
  cases h with
  | stopped =>
    obtain ⟨responses, e⟩ := s.terminatePull_frame
    rw [e]
    exact hs
  | converted => exact ⟨hs.1, Mem.wf_writeList _ _ _ hs.2⟩
  | brightened =>
    refine ⟨hs.1, ?_⟩
    rw [State.respond_out, State.setOut_out]
    exact Mem.wf_mapBytes _ _ hs.2
  | _ => exact hs

/-- Raw memory after a packet: as it was, or with bytes stored in the Fill buffer from its fill offset up (R120). -/
theorem PacketNext.raw {s t : State} {pool : Pool} (h : PacketNext s pool t) :
    t.raw = s.raw ∨ ∃ off bytes, off + bytes.length ≤ s.cap ∧
      t.raw = Mem.writeList s.raw (s.rawKey pool.fill off) bytes := by
  cases h with
  | appended rest pool' bytes hp hf hc => exact .inr ⟨_, bytes, hc, rfl⟩
  | bounded rest pool' hp =>
    obtain ⟨_, _, _, _, e⟩ := boundary_roles pool pool' ((s.setRest rest).setPool pool') (.of_odd hp) rfl
    exact .inl (by rw [e]; rfl)
  | _ => exact .inl rfl

theorem MoveNext.memoryCanonical {s t : State} {m : Move} (h : MoveNext s m t) (hs : s.MemoryCanonical) :
    t.MemoryCanonical := by
  cases h with
  | commanded w ws i t hc hd ht => exact ht.memoryCanonical (s := s.setCmdPort ws) hs
  | received port pool t hr ht =>
    have hraw : Mem.wf t.raw = true := by
      rcases ht.raw with e | ⟨off, bytes, -, e⟩ <;> rw [e]
      · exact hs.1
      · exact Mem.wf_writeList _ _ _ hs.1
    obtain ⟨_, _, _, _, _, _, _, _, rfl⟩ := ht.frame hr
    exact ⟨hraw, hs.2⟩
  | converted =>
    refine ⟨hs.1, ?_⟩
    rw [State.respond_out, State.setPull_out, State.setPool_out, State.setOut_out]
    exact Mem.wf_mapBytes _ _ (Mem.wf_writeList _ _ _ hs.2)
  | _ => exact hs

/-- Settles O53: a step writes a memory, if at all, through `Mem.writeList` and `Mem.mapBytes`. -/
theorem memoryStaysCanonical : Obligations.MemoryStaysCanonical := by
  intro s t hs h
  rcases step_next s t h with rfl | ⟨m, sched, n, hn⟩
  · exact hs
  · exact hn.memoryCanonical (s := { s with schedule := sched, tick := n }) hs

/-! ## The writers of the memories -/

theorem CommandNext.raw {s t : State} {i : Instr} (h : CommandNext s i t) : t.raw = s.raw := by
  cases h with
  | stopped =>
    obtain ⟨responses, e⟩ := s.terminatePull_frame
    rw [e]
    rfl
  | _ => rfl

theorem CommandNext.out {s t : State} {i : Instr} (h : CommandNext s i t)
    (hi : ∀ slot, i ≠ .convert slot ∧ i ≠ .brighten slot) : t.out = s.out := by
  cases h with
  | stopped =>
    obtain ⟨responses, e⟩ := s.terminatePull_frame
    rw [e]
    rfl
  | converted slot => exact absurd rfl (hi slot).1
  | brightened slot => exact absurd rfl (hi slot).2
  | _ => rfl

theorem exec_publish_memory (s t : State) (h : exec .publish s = .next t) : t.raw = s.raw ∧ t.out = s.out := by
  cases hr : s.run with
  | stopped => simp [exec, execPublish, hr] at h
  | running pool =>
    rw [exec_publish_of_running s pool hr] at h
    cases h
    unfold State.afterPublish
    split <;> exact ⟨rfl, rfl⟩

theorem exec_xfer_out (xferFail : Bool) (packets : List Packet) (s t : State)
    (h : exec (.xfer xferFail packets) s = .next t) : t.out = s.out := by
  rcases exec_xfer_next _ _ _ _ h with ⟨_, rfl⟩ | ⟨pool, hr, hn⟩
  · rfl
  · obtain ⟨_, _, _, _, _, _, _, _, rfl⟩ := hn.frame hr
    rfl

/-- An address of another buffer is outside the bytes stored in the Fill buffer. -/
theorem State.rawKey_outside (s : State) (b b' a off len : Nat) (hb : b' ≠ b) (ha : a < s.cap)
    (hc : off + len ≤ s.cap) :
    s.rawKey b' a < s.rawKey b off ∨ s.rawKey b off + len ≤ s.rawKey b' a := by
  unfold State.rawKey
  rcases Nat.lt_or_gt_of_ne hb with h | h
  · have := Nat.mul_le_mul_right s.cap (Nat.succ_le_of_lt h)
    rw [Nat.succ_mul] at this
    omega
  · have := Nat.mul_le_mul_right s.cap (Nat.succ_le_of_lt h)
    rw [Nat.succ_mul] at this
    omega

/-- Raw memory after a move: bytes of the Fill buffer may change while running, and no byte while stopped. -/
theorem MoveNext.raw {s t : State} {m : Move} (h : MoveNext s m t) :
    (∀ pool, s.run = .running pool → ∀ b a, b ≠ pool.fill → a < s.cap →
      Mem.read t.raw (s.rawKey b a) = Mem.read s.raw (s.rawKey b a)) ∧
    (s.run = .stopped → t.raw = s.raw) := by
  have hsame : t.raw = s.raw → _ := fun e => And.intro
    (fun (pool : Pool) (_ : s.run = .running pool) b a (_ : b ≠ pool.fill) (_ : a < s.cap) =>
      congrArg (Mem.read · (s.rawKey b a)) e) fun (_ : s.run = .stopped) => e
  cases h with
  | commanded w ws i t hc hd ht => exact hsame ht.raw
  | received port pool t hr ht =>
    rcases ht.raw with e | ⟨off, bytes, hfit, e⟩
    · exact hsame e
    · refine ⟨fun p hp b a hb ha => ?_, fun hp => nomatch hr.symm.trans hp⟩
      cases hr.symm.trans hp
      rw [e]
      exact Mem.read_writeList_outside _ _ _ _ (s.rawKey_outside _ _ _ _ _ hb ha hfit)
  | _ => exact hsame rfl

/-- Settles O54: instruction by instruction for the writers, and by the move for the raw bytes a step can change. -/
theorem memoryWriters : Obligations.MemoryWriters := by
  refine ⟨fun i s t h => ?_, fun s t h => ?_⟩
  · cases hi : i.space with
    | command =>
      have hn := exec_command_next i s t hi h
      exact ⟨fun _ => hn.raw, hn.out⟩
    | ingest =>
      cases i with
      | xfer xferFail packets =>
        exact ⟨fun hx => absurd rfl (hx xferFail packets), fun _ => exec_xfer_out xferFail packets s t h⟩
      | _ => cases hi
    | internal =>
      cases i with
      | publish => exact ⟨fun _ => (exec_publish_memory s t h).1, fun _ => (exec_publish_memory s t h).2⟩
      | _ => cases hi
  · rcases step_next s t h with rfl | ⟨m, sched, n, hn⟩
    · exact ⟨fun _ _ _ _ _ _ => rfl, fun _ => rfl⟩
    · exact hn.raw

/-! ## The configuration -/

theorem CommandNext.configuration {s t : State} {i : Instr} (h : CommandNext s i t) :
    t.params = s.params ∧
      (s.running = true → t.mode = s.mode ∧ t.bright = s.bright ∧ t.viewX = s.viewX ∧ t.viewY = s.viewY) := by
  cases h with
  | configured i mode bright viewX viewY op hp hr =>
    exact ⟨rfl, fun hrun => by rw [s.not_running_of_run hr] at hrun; cases hrun⟩
  | stopped =>
    obtain ⟨responses, e⟩ := s.terminatePull_frame
    rw [e]
    exact ⟨rfl, fun _ => ⟨rfl, rfl, rfl, rfl⟩⟩
  | _ => exact ⟨rfl, fun _ => ⟨rfl, rfl, rfl, rfl⟩⟩

theorem MoveNext.configuration {s t : State} {m : Move} (h : MoveNext s m t) :
    t.params = s.params ∧
      (s.running = true → t.mode = s.mode ∧ t.bright = s.bright ∧ t.viewX = s.viewX ∧ t.viewY = s.viewY) := by
  cases h with
  | commanded w ws i t hc hd ht => exact ht.configuration
  | received port pool t hr ht =>
    obtain ⟨_, _, _, _, _, _, _, _, rfl⟩ := ht.frame hr
    exact ⟨rfl, fun _ => ⟨rfl, rfl, rfl, rfl⟩⟩
  | _ => exact ⟨rfl, fun _ => ⟨rfl, rfl, rfl, rfl⟩⟩

/-- Settles O55: the configuration is written by the CFG commands only, which are accepted while stopped. -/
theorem configurationIsFixedWhileRunning : Obligations.ConfigurationIsFixedWhileRunning := by
  intro s t h
  rcases step_next s t h with rfl | ⟨m, sched, n, hn⟩
  · exact ⟨rfl, fun _ => ⟨rfl, rfl, rfl, rfl⟩⟩
  · exact hn.configuration

/-! ## The stream error -/

/-- Only an accepted START_CAPTURE changes the stream error, to false (R219). -/
theorem CommandNext.streamError {s t : State} {i : Instr} (h : CommandNext s i t) :
    t.streamError = s.streamError ∨
      i = .startCapture ∧ t.streamError = false ∧ s.running = false ∧ t.running = true := by
  cases h with
  | started hp hr => exact .inr ⟨rfl, rfl, s.not_running_of_run hr, rfl⟩
  | stopped =>
    obtain ⟨responses, e⟩ := s.terminatePull_frame
    exact .inl (by rw [e]; rfl)
  | _ => exact .inl rfl

/-- No packet or transfer clears the stream error. -/
theorem PacketNext.streamError {s t : State} {pool : Pool} (h : PacketNext s pool t) (he : s.streamError = true) :
    t.streamError = true := by
  cases h with
  | failed => rfl
  | bounded rest pool' hp => exact (boundary_streamError _ _).trans he
  | _ => exact he

/-- A move keeps the stream error, sets it with a failed transfer, or clears it with START_CAPTURE. -/
theorem MoveNext.streamError {s t : State} {m : Move} (h : MoveNext s m t) :
    t.streamError = s.streamError ∨
    (t.streamError = true ∧ s.running = true ∧
      ∃ packets after, decodeRecord s.ingestPort = .ok (.xfer true packets, after)) ∨
    (t.streamError = false ∧ s.running = false ∧ t.running = true ∧ ∃ ws, s.cmdPort = 0x10000000#32 :: ws) := by
  cases h with
  | commanded w ws i t hc hd ht =>
    rcases ht.streamError with e | ⟨rfl, he, hs, ht'⟩
    · exact .inl e
    · have hw : [0x10000000#32] = [w] := encode_of_decodeCommand w .startCapture hd
      exact .inr (.inr ⟨he, hs, ht', ws, by rw [hc, ← List.singleton_inj.1 hw]⟩)
  | received port pool t hr ht he =>
    rcases he with he | he
    · cases hs : s.streamError with
      | true => exact .inl (ht.streamError hs)
      | false =>
        cases ht' : t.streamError with
        | true => exact .inr (.inl ⟨rfl, s.running_of_run pool hr, he⟩)
        | false => exact .inl rfl
    · exact .inl he
  | _ => exact .inl rfl

/-- Settles O56, by which move changes the stream error. -/
theorem streamErrorIsSticky : Obligations.StreamErrorIsSticky := by
  intro s t h
  rcases step_next s t h with rfl | ⟨m, sched, n, hn⟩
  · exact ⟨fun hs ht => absurd (hs.symm.trans ht) nofun, fun hs ht => absurd (hs.symm.trans ht) nofun⟩
  · rcases hn.streamError with e | ⟨hset, hrun, hrecord⟩ | ⟨hclear, hrun, hrun', hword⟩
    · exact ⟨fun hs ht => absurd (hs.symm.trans (e.symm.trans ht)) nofun,
        fun hs ht => absurd (hs.symm.trans (e.symm.trans ht)) nofun⟩
    · exact ⟨fun _ _ => ⟨hrun, hrecord⟩, fun _ ht => absurd (hset.symm.trans ht) nofun⟩
    · exact ⟨fun _ ht => absurd (hclear.symm.trans ht) nofun, fun _ _ => ⟨hrun, hrun', hword⟩⟩

/-! ## The answers -/

theorem State.answers_of_noPull (s : State) (h : s.pull = .noPull) : s.answers = s.responses.length := by
  simp [State.answers, s.not_pending_iff.2 h]

theorem State.answers_of_pull (s : State) (h : s.pull ≠ .noPull) : s.answers = s.responses.length + 1 := by
  simp [State.answers, s.pending_iff.2 h]

/-- A response answers one command more, with the pull as it was. -/
theorem State.answers_respond (s : State) (op : BitVec 8) (st : Status) (v : Word) :
    (s.respond op st v).answers = s.answers + 1 := by
  unfold State.answers
  rw [State.respond_responses, List.length_append, List.length_singleton, Nat.add_right_comm]
  rfl

/-- A response that ends a pull is the one the pull owed. -/
theorem State.answers_endPull (s : State) (op : BitVec 8) (st : Status) (v : Word) (h : s.pull ≠ .noPull) :
    ((s.respond op st v).setPull .noPull).answers = s.answers := by
  rw [s.answers_of_pull h, State.answers_of_noPull _ rfl]
  simp

theorem State.terminatePull_answers (s : State) : s.terminatePull.answers = s.answers := by
  by_cases h : s.pull = .noPull
  · rw [s.terminatePull_of_noPull h]
  · rw [s.terminatePull_of_pull h, s.answers_endPull _ _ _ h]

theorem State.terminatePull_responses (s : State) : ∃ new, s.terminatePull.responses = s.responses ++ new := by
  by_cases h : s.pull = .noPull
  · exact ⟨[], by rw [s.terminatePull_of_noPull h, List.append_nil]⟩
  · exact ⟨_, by rw [s.terminatePull_of_pull h]; rfl⟩

/-- A command adds one answer, sent or owed by the pull it issues, and takes no further word (R95, R215). -/
theorem CommandNext.answers {s t : State} {i : Instr} (h : CommandNext s i t) :
    (∃ new, t.responses = s.responses ++ new) ∧ t.cmdPort = s.cmdPort ∧ t.answers = s.answers + 1 := by
  cases h with
  | answered | configured | acquired | released | converted | brightened =>
    exact ⟨⟨_, rfl⟩, rfl, State.answers_respond _ _ _ _⟩
  | started => exact ⟨⟨_, rfl⟩, rfl, State.answers_respond _ _ _ _⟩
  | stopped =>
    obtain ⟨new, hnew⟩ := s.terminatePull_responses
    obtain ⟨responses, e⟩ := s.terminatePull_frame
    refine ⟨⟨new ++ [{ op := 0x11, status := .ok, value := 0 }], ?_⟩, ?_, ?_⟩
    · rw [State.respond_responses, State.setRun_responses, hnew, List.append_assoc]
    · rw [e]; rfl
    · rw [State.answers_respond]
      exact congrArg (· + 1) s.terminatePull_answers
  | waits slot pool hp =>
    refine ⟨⟨[], (List.append_nil _).symm⟩, rfl, ?_⟩
    rw [s.answers_of_noPull hp]
    exact State.answers_of_pull (s.setPull (.wait slot)) nofun
  | cancelled slot hp =>
    refine ⟨⟨_, List.append_assoc _ _ _⟩, rfl, ?_⟩
    rw [State.answers_respond, s.answers_endPull _ _ _ (hp ▸ nofun)]

/-- A move adds an answer exactly when it takes a command word (R95, R228). -/
theorem MoveNext.answers {s t : State} {m : Move} (h : MoveNext s m t) :
    (∃ new, t.responses = s.responses ++ new) ∧
      (m ≠ .command → t.cmdPort = s.cmdPort ∧ t.answers = s.answers) ∧
      (m = .command → ∃ w, s.cmdPort = w :: t.cmdPort ∧ t.answers = s.answers + 1) := by
  cases h with
  | commanded w ws i t hc hd ht =>
    obtain ⟨hnew, hport, hans⟩ := ht.answers
    exact ⟨hnew, fun hm => absurd rfl hm, fun _ => ⟨w, hport ▸ hc, hans⟩⟩
  | illegal w ws hc =>
    exact ⟨⟨_, rfl⟩, fun hm => absurd rfl hm, fun _ => ⟨w, hc, State.answers_respond _ _ _ _⟩⟩
  | discarded => exact ⟨⟨[], (List.append_nil _).symm⟩, fun _ => ⟨rfl, rfl⟩, nofun⟩
  | received port pool t hr ht =>
    obtain ⟨_, _, _, _, _, _, _, _, rfl⟩ := ht.frame hr
    exact ⟨⟨[], (List.append_nil _).symm⟩, fun _ => ⟨rfl, rfl⟩, nofun⟩
  | reported slot status hp => exact ⟨⟨_, rfl⟩, fun _ => ⟨rfl, s.answers_endPull _ _ _ (hp ▸ nofun)⟩, nofun⟩
  | acquired slot pool hp =>
    refine ⟨⟨[], (List.append_nil _).symm⟩, fun _ => ⟨rfl, ?_⟩, nofun⟩
    rw [s.answers_of_pull (hp ▸ nofun)]
    exact State.answers_of_pull ((s.setPool pool.tryAcquire.1).setPull (.convert slot)) nofun
  | converted slot pool b bytes hp => exact ⟨⟨_, rfl⟩, fun _ => ⟨rfl, s.answers_endPull _ _ _ (hp ▸ nofun)⟩, nofun⟩

/-- Settles O57: only the SEQUENCER's taking of a word adds an answer, and it adds one. -/
theorem oneAnswerPerCommand : Obligations.OneAnswerPerCommand := by
  intro s t h
  rcases step_next s t h with rfl | ⟨m, sched, n, hn⟩
  · exact ⟨⟨[], (List.append_nil _).symm⟩, .inl ⟨rfl, rfl⟩⟩
  · obtain ⟨hnew, hother, hcommand⟩ := hn.answers
    refine ⟨hnew, ?_⟩
    by_cases hm : m = .command
    · exact .inr (hcommand hm)
    · exact .inl (hother hm)

end Sys2Proof.Machine
end

