-- ==== Sys2Proof/Proofs/Outcomes.lean ====
section
/-!
PROOF. How a step can end (R94, R126, R171, R269): which instructions can fault and with what, that nothing but a
malformed record is refused, and that the invariant leaves no fault.
-/
namespace Sys2Proof.Machine

/-! ## Commands -/

/-- With a pull pending or not, a command whose own rule gives a next state gives one (R215). -/
theorem unlessBusy_runs (op : BitVec 8) (s : State) (own : Host.Outcome State Fault Refusal)
    (h : ∃ t, own = .next t) : ∃ t, unlessBusy op s own = .next t := by
  unfold unlessBusy
  split
  · exact ⟨_, rfl⟩
  · exact h

/-- Every command but CONVERT and BRIGHTEN gives a next state, whatever the state. -/
theorem exec_command_runs (i : Instr) (s : State) (hi : i.space = .command)
    (hslot : ∀ slot, i ≠ .convert slot ∧ i ≠ .brighten slot) : ∃ t, exec i s = .next t := by
  cases i with
  | cfgMode | cfgBright | cfgView | startCapture | pullFrame | acquireRead | releaseRead =>
    refine unlessBusy_runs _ s _ ?_
    repeat' split
    all_goals exact ⟨_, rfl⟩
  | stopCapture | pollReady => exact ⟨_, rfl⟩
  | cancelPull =>
    simp only [exec, execCancelPull]
    split <;> exact ⟨_, rfl⟩
  | readReg n =>
    simp only [exec, execReadReg]
    split <;> exact ⟨_, rfl⟩
  | convert slot => exact absurd rfl (hslot slot).1
  | brighten slot => exact absurd rfl (hslot slot).2
  | xfer | publish => cases hi

/-- CONVERT faults only where the conversion of the Read buffer into a legal slot does. -/
theorem exec_convert_outcome (slot : BitVec 8) (s : State) :
    (∃ t, exec (.convert slot) s = .next t) ∨
    ∃ f pool b, exec (.convert slot) s = .fault f ∧ s.run = .running pool ∧ pool.read = some b ∧
      s.slotOk slot = true ∧ s.demosaic b slot = .error f := by
  simp only [exec, execConvert, unlessBusy]
  split
  · exact .inl ⟨_, rfl⟩
  · split
    · exact .inl ⟨_, rfl⟩
    · next pool hr =>
      split
      · exact .inl ⟨_, rfl⟩
      · split
        · next hs =>
          split
          · exact .inl ⟨_, rfl⟩
          · next b hrd =>
            split
            · exact .inl ⟨_, rfl⟩
            · next f hf => exact .inr ⟨f, pool, b, rfl, hr, hrd, hs, hf⟩
        · exact .inl ⟨_, rfl⟩

/-- BRIGHTEN faults only where the correction of a legal slot does, while running. -/
theorem exec_brighten_outcome (slot : BitVec 8) (s : State) :
    (∃ t, exec (.brighten slot) s = .next t) ∨
    ∃ f, exec (.brighten slot) s = .fault f ∧ s.running = true ∧ s.slotOk slot = true ∧ s.correct slot = .error f := by
  simp only [exec, execBrighten, unlessBusy]
  split
  · exact .inl ⟨_, rfl⟩
  · split
    · next hr =>
      split
      · next hs =>
        split
        · exact .inl ⟨_, rfl⟩
        · next f hf => exact .inr ⟨f, rfl, hr, hs, hf⟩
      · exact .inl ⟨_, rfl⟩
    · exact .inl ⟨_, rfl⟩

theorem exec_command_not_refused (i : Instr) (s : State) (hi : i.space = .command) (r : Refusal) :
    exec i s ≠ .refused r := by
  intro h
  by_cases hslot : ∀ slot, i ≠ .convert slot ∧ i ≠ .brighten slot
  · obtain ⟨t, e⟩ := exec_command_runs i s hi hslot
    cases e.symm.trans h
  · simp only [not_forall, not_and_or, not_not] at hslot
    obtain ⟨slot, rfl | rfl⟩ := hslot
    · rcases exec_convert_outcome slot s with ⟨t, e⟩ | ⟨f, _, _, e, _⟩ <;> cases e.symm.trans h
    · rcases exec_brighten_outcome slot s with ⟨t, e⟩ | ⟨f, e, _⟩ <;> cases e.symm.trans h

/-- Under the invariant every command gives a next state (R171, R126, R219). -/
theorem State.Inv.exec_command_runs {s : State} (hs : s.Inv) (i : Instr) (hi : i.space = .command) :
    ∃ t, exec i s = .next t := by
  by_cases hslot : ∀ slot, i ≠ .convert slot ∧ i ≠ .brighten slot
  · exact Machine.exec_command_runs i s hi hslot
  · simp only [not_forall, not_and_or, not_not] at hslot
    obtain ⟨slot, rfl | rfl⟩ := hslot
    · rcases exec_convert_outcome slot s with h | ⟨f, pool, b, _, hr, hrd, hslot, hf⟩
      · exact h
      · obtain ⟨bytes, _, hd⟩ := (hs.pool pool hr).demosaic hrd slot hslot
        cases hd.symm.trans hf
    · rcases exec_brighten_outcome slot s with h | ⟨f, _, hrun, hslot, hf⟩
      · exact h
      · obtain ⟨pool, hr⟩ := s.running_iff.1 hrun
        cases (s.correct_eq slot ((hs.pool pool hr).slot_fits slot hslot)).symm.trans hf

theorem takeCommand_not_refused (s : State) (r : Refusal) : takeCommand s ≠ .refused r := by
  rcases takeCommand_cases s with ⟨_, e⟩ | ⟨w, ws, i, _, hd, e⟩ | ⟨_, _, _, _, _, e⟩ <;> rw [e]
  · nofun
  · exact exec_command_not_refused i _ (decodeCommand_opcode w i hd).2 r
  · nofun

theorem State.Inv.takeCommand_runs {s : State} (hs : s.Inv) : ∃ t, takeCommand s = .next t := by
  rcases takeCommand_cases s with ⟨_, e⟩ | ⟨w, ws, i, _, hd, e⟩ | ⟨_, _, _, _, _, e⟩ <;> rw [e]
  · exact ⟨_, rfl⟩
  · exact State.Inv.exec_command_runs (s := s.setCmdPort ws) (hs.frame ..) i (decodeCommand_opcode w i hd).2
  · exact ⟨_, rfl⟩

/-! ## Packets -/

/-- Storing a packet's bytes faults only outside raw memory, and never past CAP, which is checked first (R120). -/
theorem appendData_outcome (pool : Pool) (bytes : List Byte) (s : State) :
    (∃ t, appendData pool bytes s = .next t) ∨ ∃ f, appendData pool bytes s = .fault f ∧ s.poolSize ≤ pool.fill := by
  by_cases hc : s.cap < (pool.buf pool.fill).off.toNat + bytes.length
  · exact .inl ⟨_, appendData_of_overflow pool bytes s hc⟩
  · by_cases hb : pool.fill < s.poolSize
    · exact .inl ⟨_, appendData_of_fits pool bytes s hb (Nat.not_lt.1 hc)⟩
    · exact .inr ⟨_, by simp [appendData, hc, State.rawStore, hb]; rfl, Nat.not_lt.1 hb⟩

theorem exec_xfer_outcome (xferFail : Bool) (packets : List Packet) (s : State) :
    (∃ t, exec (.xfer xferFail packets) s = .next t) ∨
    ∃ f pool, exec (.xfer xferFail packets) s = .fault f ∧ s.run = .running pool ∧ s.poolSize ≤ pool.fill := by
  cases hr : s.run with
  | stopped => exact .inl ⟨_, exec_xfer_of_stopped s xferFail packets hr⟩
  | running pool =>
    cases xferFail with
    | true => exact .inl ⟨_, exec_xfer_failed s pool packets hr⟩
    | false =>
      cases packets with
      | nil => exact .inl ⟨_, exec_xfer_nil s pool hr⟩
      | cons p rest =>
        rw [exec_xfer_cons s pool p rest hr]
        rcases packetStep_cases p pool (s.setRest rest) with ⟨_, e⟩ | ⟨_, _, e⟩ | ⟨first, more, _, _, _, e⟩ |
          ⟨first, more, _, _, _, e⟩ | ⟨first, more, _, _, _, e⟩ <;> rw [e]
        case inr.inr.inl =>
          rcases appendData_outcome (recordOdd p first pool) (p.payload.drop (headerLength first))
            ((s.setRest rest).setPool (recordOdd p first pool)) with h | ⟨f, hf, hfill⟩
          · exact .inl h
          · exact .inr ⟨f, pool, hf, rfl, recordOdd_fill p first pool ▸ hfill⟩
        all_goals exact .inl ⟨_, rfl⟩

theorem exec_xfer_not_refused (xferFail : Bool) (packets : List Packet) (s : State) (r : Refusal) :
    exec (.xfer xferFail packets) s ≠ .refused r := by
  rcases exec_xfer_outcome xferFail packets s with ⟨t, e⟩ | ⟨f, _, e, _⟩ <;> rw [e] <;> nofun

/-- Under the invariant the Fill buffer is one of the pool's, so no packet faults (R61). -/
theorem State.Inv.exec_xfer_runs {s : State} (hs : s.Inv) (xferFail : Bool) (packets : List Packet) :
    ∃ t, exec (.xfer xferFail packets) s = .next t := by
  rcases exec_xfer_outcome xferFail packets s with h | ⟨f, pool, _, hr, hfill⟩
  · exact h
  · exact absurd (hs.pool pool hr).fill_lt (Nat.not_lt.2 hfill)

/-- The PRODUCER is refused only at words that spell no record (R94). -/
theorem producerStep_refused (s : State) (r : Refusal) (h : producerStep s = .refused r) :
    ∃ e, r = .malformedRecord e ∧ s.xferRest = [] ∧ decodeRecord s.ingestPort = .error e := by
  rcases producerStep_cases s with ⟨_, _, _, e⟩ | ⟨_, _, e⟩ | ⟨_, _, _, _, _, e⟩ | ⟨err, hx, hd, e⟩ <;> rw [e] at h
  · exact absurd h (exec_xfer_not_refused _ _ _ r)
  · cases h
  · exact absurd h (exec_xfer_not_refused _ _ _ r)
  · cases h
    exact ⟨err, rfl, hx, hd⟩

theorem State.Inv.producerStep_no_fault {s : State} (hs : s.Inv) (f : Fault) : producerStep s ≠ .fault f := by
  rcases producerStep_cases s with ⟨p, rest, _, e⟩ | ⟨_, _, e⟩ | ⟨xferFail, packets, after, _, _, e⟩ | ⟨_, _, _, e⟩ <;>
    rw [e]
  · obtain ⟨t, e⟩ := hs.exec_xfer_runs false (p :: rest)
    rw [e]
    nofun
  · nofun
  · obtain ⟨t, e⟩ := State.Inv.exec_xfer_runs (s := s.setIngestPort after) (hs.frame ..) xferFail packets
    rw [e]
    nofun
  · nofun

/-! ## The pull -/

theorem pullStep_not_refused (s : State) (r : Refusal) : pullStep s ≠ .refused r := by
  unfold pullStep waitStep convertStep
  repeat' split
  all_goals nofun

/-- Under the invariant a pull step gives a next state: the pool is there, and in CONVERT a complete Read frame. -/
theorem State.Inv.pullStep_runs {s : State} (hs : s.Inv) : ∃ t, pullStep s = .next t := by
  cases hp : s.pull with
  | noPull => exact ⟨s, by simp only [pullStep, hp]⟩
  | wait slot =>
    obtain ⟨pool, hr⟩ := s.running_iff.1 (hs.pullRuns (s.pending_iff.2 (hp ▸ nofun)))
    rw [pullStep_of_wait s slot hp]
    simp only [waitStep, hr]
    repeat' split
    all_goals exact ⟨_, rfl⟩
  | convert slot =>
    obtain ⟨_, _, _, _, _, hstep, _⟩ := pullConvertsCorrectsReleases slot s hs hp
    exact ⟨_, hstep⟩

/-! ## Every step -/

/-- Settles O51, by the move that is made. -/
theorem invNeverFaults : Obligations.InvNeverFaults := by
  intro s f hs h
  rcases step_eq s with ⟨_, e⟩ | ⟨m, s', hc, e⟩ <;> rw [e] at h
  · cases h
  · obtain ⟨_, sched, n, rfl⟩ := s.chooseMove_some s' m hc
    have hs' : State.Inv { s with schedule := sched, tick := n } := hs.frame ..
    cases m with
    | produce => exact hs'.producerStep_no_fault f h
    | command =>
      obtain ⟨t, e⟩ := hs'.takeCommand_runs
      cases e.symm.trans h
    | pull =>
      obtain ⟨t, e⟩ := hs'.pullStep_runs
      cases e.symm.trans h

theorem step_refused (s : State) (r : Refusal) (h : step s = .refused r) :
    ∃ e, r = .malformedRecord e ∧ s.xferRest = [] ∧ decodeRecord s.ingestPort = .error e := by
  rcases step_eq s with ⟨_, e⟩ | ⟨m, s', hc, e⟩ <;> rw [e] at h
  · cases h
  · obtain ⟨_, sched, n, rfl⟩ := s.chooseMove_some s' m hc
    cases m with
    | produce => exact producerStep_refused { s with schedule := sched, tick := n } r h
    | command => exact absurd h (takeCommand_not_refused _ r)
    | pull => exact absurd h (pullStep_not_refused _ r)

/-- Settles O52: the refusals of a step, the PRODUCER at a malformed record, the command step under the invariant, and
PUBLISH on its own. -/
theorem onlyMalformedRecordsRefused : Obligations.OnlyMalformedRecordsRefused := by
  refine ⟨step_refused, fun s sched e hsched hx hport hd => ?malformed, fun s sched hs hsched hport => ?command,
    fun s => ?publish⟩
  case malformed =>
    rw [step_of_schedule s .produce sched hsched (s.enabled_produce_of_port hport)]
    exact producerStep_of_malformed (s.setSchedule sched) e hx hport hd
  case command =>
    obtain ⟨w, ws, hc⟩ := List.exists_cons_of_ne_nil hport
    have hm := s.enabled_command_of_cons w ws hc
    obtain ⟨t, e⟩ := State.Inv.takeCommand_runs (s := s.setSchedule sched) (hs.frame ..)
    obtain ⟨-, -, hcommand⟩ := (takeCommand_next (s.setSchedule sched) t hm e).answers
    obtain ⟨-, -, hanswers⟩ := hcommand rfl
    exact ⟨t, (step_of_schedule s .command sched hsched hm).trans e, hanswers⟩
  case publish =>
    cases hr : s.run with
    | stopped => simp [exec, execPublish, hr]
    | running pool => simp [exec, execPublish, hr]

end Sys2Proof.Machine
end

