-- ==== Sys2Proof/Proofs/MarkerFrames.lean ====
section
/-!
PROOF. A marker on a frame with bytes (R121 to R124): the parity flag first, then the frame is published, with the new
Fill buffer reset, or dropped.
-/
namespace Sys2Proof.Machine

/-! ## The two outcomes of a frame boundary -/

theorem Pool.fillReset_countErr (pool : Pool) (hb : pool.fill < pool.bufs.length) :
    (pool.countErr pool.fill).fillReset = pool.fillReset := by
  simp only [Pool.fillReset, Pool.countErr, Pool.setBuf_fill, Pool.buf_setBuf _ _ _ _ hb, Pool.setBuf_setBuf, if_true]

section
variable (pool : Pool) (s : State) (hoff : (pool.buf pool.fill).off ≠ 0)
include hoff

/-- A frame of at least the expected size without errors is published (R122, R123). -/
theorem boundary_of_good (hlong : s.expectedBytes ≤ (pool.buf pool.fill).off.toNat)
    (herr : (pool.buf pool.fill).err = 0) : boundary pool s = publishFrame pool s := by
  have hcheck : shortCheck pool s = pool := if_neg (Nat.not_lt.2 hlong)
  simp only [boundary, if_neg hoff, hcheck, if_pos herr]

/-- A short frame, or one with errors, is dropped (R122): a short one counts an error, which the reset clears. -/
theorem boundary_of_bad (hb : pool.fill < pool.bufs.length)
    (hbad : (pool.buf pool.fill).off.toNat < s.expectedBytes ∨ (pool.buf pool.fill).err ≠ 0) :
    boundary pool s = (s.setPool pool.fillReset).countDropped := by
  simp only [boundary, if_neg hoff]
  by_cases hshort : (pool.buf pool.fill).off.toNat < s.expectedBytes
  · have hcheck : shortCheck pool s = pool.countErr pool.fill := if_pos hshort
    have herr : ((pool.countErr pool.fill).buf pool.fill).err ≠ 0 := by
      simpa [Pool.countErr, Pool.buf_setBuf _ _ _ _ hb] using satInc32_ne_zero _
    rw [hcheck]
    exact (if_neg herr).trans (by rw [dropFrame, pool.fillReset_countErr hb])
  · have hcheck : shortCheck pool s = pool := if_neg hshort
    rw [hcheck, if_neg (hbad.resolve_left hshort), dropFrame]

end

/-- What publishing a frame does (R123, R124, R140), by where the new Fill buffer comes from. -/
theorem publishFrame_eq (pool : Pool) (s : State) (fill' : Nat) (empty' full' : List Nat)
    (h : pool.empty = fill' :: empty' ∧ full' = pool.full ++ [pool.fill] ∨
      pool.empty = [] ∧ empty' = [] ∧ pool.full ++ [pool.fill] = fill' :: full') :
    publishFrame pool s = { s with
      run := .running (Pool.fillReset { pool with fill := fill', empty := empty', full := full' })
      dumped := if pool.empty = [] then s.dumped + 1 else s.dumped } := by
  rcases h with ⟨he, rfl⟩ | ⟨he, rfl, hf⟩
  · simp only [publishFrame, pool.publish_of_empty_cons pool.fill fill' empty' he, he]
    rfl
  · simp only [publishFrame, pool.publish_of_empty_nil pool.fill fill' full' he hf, he]
    rfl

/-! ## The fields of the buffers -/

theorem Pool.setBuf_buf (p : Pool) (b : Nat) (hb : b < p.bufs.length) : p.setBuf b (p.buf b) = p := by
  simp [Pool.setBuf, Pool.buf, hb]

/-- The Fill buffer's fields with the parity flag recorded (R117). -/
def Pool.markedFill (pool : Pool) (p : Packet) (first : Byte) : Buf :=
  { pool.buf pool.fill with odd := if p.payload.length = 8 then first.getLsbD 6 else (pool.buf pool.fill).odd }

theorem recordOdd_eq_setBuf (p : Packet) (first : Byte) (pool : Pool) (hb : pool.fill < pool.bufs.length) :
    recordOdd p first pool = pool.setBuf pool.fill (pool.markedFill p first) := by
  unfold recordOdd Pool.markedFill
  split
  · rfl
  · exact (pool.setBuf_buf pool.fill hb).symm

/-! ## The obligations -/

/-- Settles O36: the parity flag leaves offset and error count alone, and the reset is the one write of the buffer's
fields that stays. -/
theorem markerDropsBadFrame : Obligations.MarkerDropsBadFrame := by
  intro s pool p rest first more hrun hb hoff hbad herr hpay hlen
  have hfill := recordOdd_fill p first pool
  have hbuf := recordOdd_buf_fill p first pool hb
  have hlength : (recordOdd p first pool).fill < (recordOdd p first pool).bufs.length := by
    rwa [recordOdd_eq_setBuf p first pool hb, Pool.setBuf_bufs_length]
  rw [exec_xfer_cons s pool p rest hrun, packetStep_of_marker p pool _ first more herr hpay hlen,
    boundary_of_bad _ _ (by rwa [hfill, hbuf]) hlength (by rwa [hfill, hbuf]), Pool.fillReset, hfill, recordOdd_setBuf,
    hbuf]
  rfl

/-- Settles O35: the buffers after the marker are those before with the old Fill buffer's parity flag recorded and then
the new Fill buffer reset. -/
theorem markerPublishesGoodFrame : Obligations.MarkerPublishesGoodFrame := by
  intro s pool p rest first more fill' empty' full' hrun hids hoff hlong hgood herr hpay hlen hroles
  have hb : pool.fill < pool.bufs.length := hids _ List.mem_cons_self
  have hb' : fill' < pool.bufs.length := by
    refine hids _ ?_
    rcases hroles with ⟨he, _⟩ | ⟨_, _, hf⟩
    · simp [Pool.ids, he]
    · have : fill' ∈ pool.full ++ [pool.fill] := hf ▸ List.mem_cons_self
      simp [Pool.ids] at this ⊢
      tauto
  have hmark := recordOdd_eq_setBuf p first pool hb
  have hfill := recordOdd_fill p first pool
  have hbuf := recordOdd_buf_fill p first pool hb
  have hexec := exec_xfer_cons s pool p rest hrun
  rw [packetStep_of_marker p pool _ first more herr hpay hlen,
    boundary_of_good _ _ (by rwa [hfill, hbuf]) (by rwa [hfill, hbuf]) (by rwa [hfill, hbuf]),
    publishFrame_eq _ _ fill' empty' full' (by rwa [hmark]), hmark] at hexec
  refine ⟨_, _, hexec, rfl, ?length, fun b buf hne hne' hat => ?others, fun hne => ?published, ?reset⟩
  all_goals simp only [Pool.setBuf_bufs]
  case length => simp only [List.length_set]
  case others => rwa [List.getElem?_set_ne (Ne.symm hne), List.getElem?_set_ne (Ne.symm hne')]
  case published =>
    rw [List.getElem?_set_ne hne, List.getElem?_set_self hb, Pool.markedFill, hgood]
  case reset =>
    rw [List.getElem?_set_self (by rwa [List.length_set])]
    have hodd : ((pool.setBuf pool.fill (pool.markedFill p first)).buf fill').odd =
        if fill' = pool.fill ∧ p.payload.length = 8 then first.getLsbD 6 else (pool.buf fill').odd := by
      rw [Pool.buf_setBuf _ _ _ _ hb]
      by_cases hsame : fill' = pool.fill <;> simp [hsame, Pool.markedFill]
    exact congrArg (fun odd => some (Buf.mk 0 0 odd)) hodd

end Sys2Proof.Machine
end

