-- ==== Sys2Proof/Proofs/Defaults.lean ====
section
/-!
PROOF. The default parameters (R8, R167; logs 2, 19): a size of `largest` is the greatest over RES_TABLE, and a view's
side is the image's or what a 12-bit field of VIEW holds.
-/
namespace Sys2Proof.Machine

theorem viewSide_le (n : Nat) (v : BitVec 12) : (if v = 0 then n else v.toNat) ≤ max n 4095 := by
  have := v.isLt
  split <;> omega

/-- The longest side is the image's own, with VIEW 0, or the greatest value of the field. -/
theorem viewSide_max (n : Nat) : ∃ v : BitVec 12, (if v = 0 then n else v.toNat) = max n 4095 := by
  by_cases h : n ≤ 4095
  · exact ⟨4095, by simp [h]⟩
  · exact ⟨0, by simp; omega⟩

theorem resetParams_eq : ∃ o : OpenParams, resetParams.val = withDefaults o := by
  unfold resetParams
  split <;> exact ⟨_, rfl⟩

/-- Settles O12: CAP and SLOT_BYTES are the greatest of a size over the entries, and the other defaults are the
literals of R8. -/
theorem defaultParameters : Obligations.DefaultParameters := by
  refine ⟨fun o => ?_, resetParams_eq⟩
  obtain ⟨hframe, hframe'⟩ := largest_spec frameBytes o.resTable
  obtain ⟨hview, e, he, hview'⟩ := largest_spec maxViewPixels o.resTable
  refine ⟨rfl, rfl, rfl, rfl, rfl, rfl, hframe, hframe', ⟨fun e he viewX viewY => ?bound, ?attained⟩, rfl⟩
  case bound =>
    exact Nat.mul_le_mul_left 4 ((Nat.mul_le_mul (viewSide_le _ viewX) (viewSide_le _ viewY)).trans (hview e he))
  case attained =>
    obtain ⟨viewX, hx⟩ := viewSide_max (e.width / e.factor)
    obtain ⟨viewY, hy⟩ := viewSide_max (e.height / e.factor)
    exact ⟨e, he, viewX, viewY, congrArg (4 * ·) (hview'.trans (congrArg₂ (· * ·) hx hy).symm)⟩

end Sys2Proof.Machine
end

