-- ==== Sys2Proof/Proofs/HostReads.lean ====
section
/-!
PROOF. What a HOST read of an output byte admits (R43, R62, R77; log 13): a pending write of the slot as a proposition.
-/
namespace Sys2Proof.Machine

theorem writesSlot_iff (k : Nat) (i : Instr) :
    writesSlot k i = true ↔ ∃ slot : BitVec 8, slot.toNat = k ∧
      (i = .pullFrame slot ∨ i = .convert slot ∨ i = .brighten slot) := by
  cases i <;> simp [writesSlot]

theorem wordWritesSlot_iff (k : Nat) (w : Word) :
    wordWritesSlot k w = true ↔ ∃ i, decodeCommand w = .ok i ∧ writesSlot k i = true := by
  unfold wordWritesSlot
  split
  · next i hd => simp [hd]
  · next e hd => simp [hd]

/-- A write of a slot is pending when the pull or a word on the command port is for it (R77). -/
theorem State.slotPending_iff (s : State) (k : Nat) :
    s.slotPending k = true ↔ ∃ slot : BitVec 8, slot.toNat = k ∧
      (s.pull = .wait slot ∨ s.pull = .convert slot ∨ ∃ w ∈ s.cmdPort, ∃ i, decodeCommand w = .ok i ∧
        (i = .pullFrame slot ∨ i = .convert slot ∨ i = .brighten slot)) := by
  have hport : s.cmdPort.any (wordWritesSlot k) = true ↔ ∃ slot : BitVec 8, slot.toNat = k ∧
      ∃ w ∈ s.cmdPort, ∃ i, decodeCommand w = .ok i ∧
        (i = .pullFrame slot ∨ i = .convert slot ∨ i = .brighten slot) := by
    simp only [List.any_eq_true, wordWritesSlot_iff, writesSlot_iff]
    constructor
    · rintro ⟨w, hw, i, hd, slot, hs, hi⟩
      exact ⟨slot, hs, w, hw, i, hd, hi⟩
    · rintro ⟨slot, hs, w, hw, i, hd, hi⟩
      exact ⟨w, hw, i, hd, slot, hs, hi⟩
  unfold State.slotPending
  rw [Bool.or_eq_true, hport]
  cases s.pull <;> simp [and_or_left, exists_or]

/-- Settles O59, by whether a write of the byte's slot is pending. -/
theorem hostReadsOutput : Obligations.HostReadsOutput := by
  intro s a v ha
  rw [← s.slotPending_iff]
  refine ⟨fun hp => ?_, fun hp => ?_⟩
  · simp only [State.hostRead, if_pos ha, if_pos hp]
    rfl
  · simp only [State.hostRead, if_pos ha, if_neg hp]
    cases s.outRead a <;> simp [HostRead.admits]

end Sys2Proof.Machine
end

