-- ==== Sys2Proof/Proofs/Fairness.lean ====
section
/-!
PROOF. Runs without end (R299): a move that stays enabled gets into the schedule, which then shortens until the move is
made; and a pull whose step is enabled stays so until a step ends it with an answer.
-/
namespace Sys2Proof.Machine

/-! ## What the HOST leaves alone -/

theorem hostActs_schedule (s : State) (actions : List HostAction) : (hostActs s actions).schedule = s.schedule := by
  obtain ⟨_, _, _, e⟩ := hostActs_frame s actions
  rw [e]

theorem hostActs_pull (s : State) (actions : List HostAction) : (hostActs s actions).pull = s.pull := by
  obtain ⟨_, _, _, e⟩ := hostActs_frame s actions
  rw [e]

theorem hostActs_enabled_pull (s : State) (actions : List HostAction) :
    (hostActs s actions).enabled .pull = s.enabled .pull := by
  obtain ⟨_, _, _, e⟩ := hostActs_frame s actions
  rw [e]
  rfl

/-! ## Weak fairness -/

theorem State.nextMove_of_chooseMove (s s' : State) (m : Move) (h : s.chooseMove = some (m, s')) :
    s.nextMove = some m := by
  rw [State.nextMove, h]
  rfl

section
variable {s : Nat → State} {host : Nat → List HostAction} (h : IsRun s host)
include h

/-- The schedule after a step is the one the choice left. -/
theorem IsRun.schedule_of_chooseMove (n : Nat) (m : Move) (s' : State)
    (hc : (hostActs (s n) (host n)).chooseMove = some (m, s')) : (s (n + 1)).schedule = s'.schedule := by
  rcases h.step_cases n with ⟨hc', _⟩ | ⟨_, _, hc', _, hs⟩ <;> cases hc.symm.trans hc'
  exact hs

/-- An enabled move is made, or stands in the schedule after the step, or that schedule is shorter. -/
theorem IsRun.made_or_scheduled (n : Nat) (m : Move) (hm : (hostActs (s n) (host n)).enabled m = true) :
    (hostActs (s n) (host n)).nextMove = some m ∨ m ∈ (s (n + 1)).schedule ∨
      (s (n + 1)).schedule.length < (s n).schedule.length := by
  obtain ⟨m', s', hc, hcase⟩ := State.chooseMove_enabled _ m hm
  rw [h.schedule_of_chooseMove n m' s' hc, ← hostActs_schedule (s n) (host n)]
  exact hcase.imp_left fun hm' => (State.nextMove_of_chooseMove _ s' m' hc).trans (congrArg some hm')

/-- A scheduled move that is enabled is made, or still scheduled with fewer entries left. -/
theorem IsRun.made_or_nearer (n : Nat) (m : Move) (hm : (hostActs (s n) (host n)).enabled m = true)
    (hs : m ∈ (s n).schedule) :
    (hostActs (s n) (host n)).nextMove = some m ∨
      m ∈ (s (n + 1)).schedule ∧ (s (n + 1)).schedule.length < (s n).schedule.length := by
  rw [← hostActs_schedule (s n) (host n)] at hs ⊢
  obtain ⟨m', s', hc, hcase⟩ := State.chooseMove_scheduled _ m hm hs
  rw [h.schedule_of_chooseMove n m' s' hc]
  exact hcase.imp_left fun hm' => (State.nextMove_of_chooseMove _ s' m' hc).trans (congrArg some hm')

variable (m : Move)

/-- A scheduled move that stays enabled is made, by induction on the length of the schedule. -/
theorem IsRun.made_of_scheduled (n : Nat) (hm : ∀ k, n ≤ k → (hostActs (s k) (host k)).enabled m = true)
    (hs : m ∈ (s n).schedule) : ∃ k, n ≤ k ∧ (hostActs (s k) (host k)).nextMove = some m := by
  induction hl : (s n).schedule.length using Nat.strong_induction_on generalizing n with
  | _ l ih =>
    rcases h.made_or_nearer n m (hm n le_rfl) hs with hmade | ⟨hs', hlt⟩
    · exact ⟨n, le_rfl, hmade⟩
    · obtain ⟨k, hk, hmade⟩ := ih _ (hl ▸ hlt) (n + 1) (fun k hk => hm k (Nat.le_of_succ_le hk)) hs' rfl
      exact ⟨k, Nat.le_of_succ_le hk, hmade⟩

/-- A move that stays enabled is made: the schedule cannot shorten for ever without taking the move in. -/
theorem IsRun.made (n : Nat) (hm : ∀ k, n ≤ k → (hostActs (s k) (host k)).enabled m = true) :
    ∃ k, n ≤ k ∧ (hostActs (s k) (host k)).nextMove = some m := by
  induction hl : (s n).schedule.length using Nat.strong_induction_on generalizing n with
  | _ l ih =>
    have hm' : ∀ k, n + 1 ≤ k → (hostActs (s k) (host k)).enabled m = true := fun k hk => hm k (Nat.le_of_succ_le hk)
    rcases h.made_or_scheduled n m (hm n le_rfl) with hmade | hs | hlt
    · exact ⟨n, le_rfl, hmade⟩
    · obtain ⟨k, hk, hmade⟩ := h.made_of_scheduled m (n + 1) hm' hs
      exact ⟨k, Nat.le_of_succ_le hk, hmade⟩
    · obtain ⟨k, hk, hmade⟩ := ih _ (hl ▸ hlt) (n + 1) hm' rfl
      exact ⟨k, Nat.le_of_succ_le hk, hmade⟩

theorem IsRun.weaklyFair : WeaklyFair s host :=
  fun m n => h.made m n

end

/-! ## A step with an enabled pull -/

/-- The step from `s` to `t` ends a pull, with the pull's answer first (R95, R224). -/
def PullEnds (s t : State) : Prop :=
  t.pull = .noPull ∧ ∃ r more, r.op = 0x20 ∧ t.responses = s.responses ++ r :: more

theorem State.pull_ne_of_enabled (s : State) (h : s.enabled .pull = true) : s.pull ≠ .noPull := by
  intro hp
  simp [State.enabled, State.pullEnabled, hp] at h

theorem State.enabled_pull_of_convert (s : State) (slot : BitVec 8) (h : s.pull = .convert slot) :
    s.enabled .pull = true := by
  simp only [State.enabled, State.pullEnabled, h]

/-- A command leaves an enabled pull as it is, or ends it (R215, R221, R230). -/
theorem CommandNext.pull {s t : State} {i : Instr} (h : CommandNext s i t) (hm : s.enabled .pull = true) :
    PullEnds s t ∨ t.enabled .pull = true ∧ t.pull = s.pull := by
  have hne := s.pull_ne_of_enabled hm
  cases h with
  | answered => exact .inr ⟨hm, rfl⟩
  | configured _ _ _ _ _ _ hp | started hp | waits _ _ hp | acquired _ _ _ hp | released _ _ hp | converted _ _ _ _ hp
  | brightened _ hp => exact absurd hp hne
  | stopped =>
    rw [s.terminatePull_of_pull hne]
    exact .inl ⟨rfl, _, _, rfl, List.append_assoc _ _ _⟩
  | cancelled => exact .inl ⟨rfl, _, _, rfl, List.append_assoc _ _ _⟩

theorem Pool.publish_full_ne_nil (p : Pool) (b : Nat) (h : p.full ≠ []) : (p.publish b).1.full ≠ [] := by
  rcases p.publish_cases b with ⟨e, es, _, e'⟩ | ⟨f, fs, _, hf, e'⟩ <;> rw [e']
  · exact List.append_ne_nil_of_left_ne_nil h _
  · rintro rfl
    exact h (by simpa using congrArg List.length hf)

theorem Pool.PacketRoles.full_ne_nil {p q : Pool} (hq : p.PacketRoles q) (h : p.full ≠ []) : q.full ≠ [] := by
  rcases hq with hq | hq <;> rw [hq.full]
  · exact h
  · exact p.publish_full_ne_nil p.fill h

/-- A packet keeps an enabled pull enabled: the stream error stays, and Full does not run empty (R140). -/
theorem PacketNext.pull {s t : State} {pool : Pool} (h : PacketNext s pool t) (hr : s.run = .running pool)
    (hm : s.enabled .pull = true) : t.enabled .pull = true ∧ t.pull = s.pull := by
  obtain ⟨_, q, _, _, _, _, _, hq, e⟩ := h.frame hr
  have hpull : t.pull = s.pull := by rw [e]
  have hfatal : t.fatal = s.fatal := by rw [e]
  have hrun : t.run = .running q := by rw [e]
  refine ⟨?_, hpull⟩
  cases hp : s.pull with
  | noPull => exact absurd hp (s.pull_ne_of_enabled hm)
  | convert slot => exact t.enabled_pull_of_convert slot (hpull.trans hp)
  | wait slot =>
    rw [t.enabled_pull_of_wait slot q (hpull.trans hp) hrun, hfatal]
    exact ((s.enabled_pull_of_wait slot pool hp hr).1 hm).imp id (.imp h.streamError hq.full_ne_nil)

/-- A move leaves an enabled pull as it is, ends it, or is the pull's own acquisition of a frame. -/
theorem MoveNext.pull {s t : State} {m : Move} (h : MoveNext s m t) (hm : s.enabled .pull = true) :
    PullEnds s t ∨ (m ≠ .pull ∧ t.enabled .pull = true ∧ t.pull = s.pull) ∨
      ∃ slot, m = .pull ∧ s.pull = .wait slot ∧ t.pull = .convert slot := by
  cases h with
  | commanded w ws i t hc hd ht => exact (ht.pull hm).imp_right fun h => .inl ⟨nofun, h⟩
  | illegal => exact .inr (.inl ⟨nofun, hm, rfl⟩)
  | discarded => exact .inr (.inl ⟨nofun, hm, rfl⟩)
  | received port pool t hr ht => exact .inr (.inl ⟨nofun, ht.pull hr hm⟩)
  | reported => exact .inl ⟨rfl, _, _, rfl, rfl⟩
  | acquired slot pool hp => exact .inr (.inr ⟨slot, rfl, hp, rfl⟩)
  | converted => exact .inl ⟨rfl, _, _, rfl, rfl⟩

/-! ## The answer of a pull in a run -/

section
variable {s : Nat → State} {host : Nat → List HostAction} (h : IsRun s host)
include h

/-- `MoveNext.pull` for a step of a run. -/
theorem IsRun.pull_step (n : Nat) (hm : (s n).enabled .pull = true) :
    PullEnds (hostActs (s n) (host n)) (s (n + 1)) ∨
    ((hostActs (s n) (host n)).nextMove ≠ some .pull ∧ (s (n + 1)).enabled .pull = true ∧
      (s (n + 1)).pull = (s n).pull) ∨
    ∃ slot, (s n).pull = .wait slot ∧ (s (n + 1)).pull = .convert slot := by
  rw [← hostActs_enabled_pull (s n) (host n)] at hm
  rw [← hostActs_pull (s n) (host n)]
  rcases h.step_cases n with ⟨hc, _⟩ | ⟨m, s', hc, ht, _⟩
  · have hnone := (mem_enabledMoves _ _).2 hm
    rw [(State.chooseMove_none _).1 hc] at hnone
    cases hnone
  · have hmove := State.nextMove_of_chooseMove _ s' m hc
    obtain ⟨henabled, sched, tick, rfl⟩ := State.chooseMove_some _ s' m hc
    have hnext := runMove_next m { hostActs (s n) (host n) with schedule := sched, tick := tick } _ henabled ht
    rcases hnext.pull hm with hend | ⟨hne, hstay⟩ | ⟨slot, _, hp, hp'⟩
    · exact .inl hend
    · exact .inr (.inl ⟨fun hm' => hne (Option.some.inj (hmove.symm.trans hm')), hstay⟩)
    · exact .inr (.inr ⟨slot, hp, hp'⟩)

/-- A pull whose step is enabled stays so until it ends. -/
theorem IsRun.enabled_pull_until (n k : Nat) (hk : n ≤ k) (hm : (s n).enabled .pull = true)
    (hno : ∀ j, n ≤ j → j < k → ¬PullEnds (hostActs (s j) (host j)) (s (j + 1))) : (s k).enabled .pull = true := by
  induction k, hk using Nat.le_induction with
  | base => exact hm
  | succ k hk ih =>
    have hk' := ih fun j hj hlt => hno j hj (Nat.lt_succ_of_lt hlt)
    rcases h.pull_step k hk' with hend | ⟨_, henabled, _⟩ | ⟨slot, _, hp⟩
    · exact absurd hend (hno k hk (Nat.lt_succ_self k))
    · exact henabled
    · exact (s (k + 1)).enabled_pull_of_convert slot hp

/-- A converting pull that is never ended stays in CONVERT. -/
theorem IsRun.convert_until (n k : Nat) (slot : BitVec 8) (hk : n ≤ k) (hp : (s n).pull = .convert slot)
    (hno : ∀ j, n ≤ j → ¬PullEnds (hostActs (s j) (host j)) (s (j + 1))) : (s k).pull = .convert slot := by
  induction k, hk using Nat.le_induction with
  | base => exact hp
  | succ k hk ih =>
    rcases h.pull_step k ((s k).enabled_pull_of_convert slot ih) with hend | ⟨_, _, hsame⟩ | ⟨slot', hp', _⟩
    · exact absurd hend (hno k hk)
    · exact hsame.trans ih
    · cases ih.symm.trans hp'

/-- By weak fairness a converting pull ends: only its own step can be the one that is made. -/
theorem IsRun.convert_ends (n : Nat) (slot : BitVec 8) (hp : (s n).pull = .convert slot) :
    ∃ k, n ≤ k ∧ PullEnds (hostActs (s k) (host k)) (s (k + 1)) := by
  by_contra hno
  simp only [not_exists, not_and] at hno
  have hstay := fun k hk => h.convert_until n k slot hk hp hno
  have henabled := fun k hk => (s k).enabled_pull_of_convert slot (hstay k hk)
  obtain ⟨k, hk, hmade⟩ := h.made .pull n fun k hk => (hostActs_enabled_pull (s k) (host k)).trans (henabled k hk)
  rcases h.pull_step k (henabled k hk) with hend | ⟨hother, _⟩ | ⟨slot', hp', _⟩
  · exact hno k hk hend
  · exact hother hmade
  · cases (hstay k hk).symm.trans hp'

/-- By weak fairness an enabled pull step is made, which ends the pull or starts its conversion. -/
theorem IsRun.pull_ends (n : Nat) (hm : (s n).enabled .pull = true) :
    ∃ k, n ≤ k ∧ PullEnds (hostActs (s k) (host k)) (s (k + 1)) := by
  by_contra hno
  simp only [not_exists, not_and] at hno
  have henabled := fun k hk => h.enabled_pull_until n k hk hm fun j hj _ => hno j hj
  obtain ⟨k, hk, hmade⟩ := h.made .pull n fun k hk => (hostActs_enabled_pull (s k) (host k)).trans (henabled k hk)
  rcases h.pull_step k (henabled k hk) with hend | ⟨hother, _⟩ | ⟨slot, _, hp⟩
  · exact hno k hk hend
  · exact hother hmade
  · obtain ⟨j, hj, hend⟩ := h.convert_ends (k + 1) slot hp
    exact hno j (by omega) hend

end

/-- Settles O60: weak fairness, and for a pull the first step that ends it. -/
theorem runsAreWeaklyFair : Obligations.RunsAreWeaklyFair := by
  classical
  intro s host h
  refine ⟨h.weaklyFair, fun n hm => ?_⟩
  rw [hostActs_enabled_pull] at hm
  have hends := h.pull_ends n hm
  obtain ⟨hk, hnone, hresponse⟩ := Nat.find_spec hends
  refine ⟨Nat.find hends, hk, fun j hj hjk => ?_, hnone, hresponse⟩
  rw [hostActs_pull]
  refine (s j).pull_ne_of_enabled (h.enabled_pull_until n j hj hm fun i hi hij hend => ?_)
  exact Nat.find_min hends (hij.trans_le hjk) ⟨hi, hend⟩

end Sys2Proof.Machine
end
